-- ==== Sys2Proof/Word.lean ====
section
/-! DEFINITION. The word types of ARC-CE: 64-bit registers (10_state R20), bytes of system memory (20_memory R60),
32-bit command words (30_encoding R90). -/

namespace Sys2Proof

/-- A byte of memory, of a stream or of a device (20_memory R60, 42_reed_solomon R210). -/
abbrev Byte := BitVec 8

/-- The contents of a register slot or of a table word as the host sees it (10_state R20, 00_scope R9). -/
abbrev Word64 := BitVec 64

/-- The command word (30_encoding R90). -/
abbrev Word32 := BitVec 32

/-- `2^64`, the number of byte addresses (20_memory R60). -/
def addressSpace : Nat := 18446744073709551616

/-- `2^32`: a count below it fits a 32-bit header field (30_encoding R100, R104). -/
def fieldSpace : Nat := 4294967296

end Sys2Proof
end

