-- ==== Sys2Proof/Config.lean ====
section
/-! DEFINITION. What the platform fixes (00_scope R7, 92 section 2: NLANES, BASE, MemReadable, MemWritable), and the free
values: the results the spec calls unspecified (93_implementation_defined section 1), as constants without a body. -/

namespace Sys2Proof

/-- A range of byte addresses that the platform denies to the engine, for reading, for writing or for both
(20_memory R63). Log entry 10. -/
structure Region where
  base    : Nat
  size    : Nat
  noRead  : Bool
  noWrite : Bool
deriving DecidableEq, Repr

/-- The open parameters of 92_eei_decisions section 2, as plain data. Log entry 10.
`nlanes` is NLANES, `base` the bus address of slot 0, `denied` says where MemReadable or MemWritable fails
beside the register window. -/
structure Platform where
  nlanes : Nat
  base   : Nat
  denied : List Region
deriving DecidableEq, Repr

namespace Config

/-- FREE VALUE: the byte that a read, identified by its draw, gives at an address whose byte is unspecified
(60_exceptions R291, 70 R311, 20_memory R77; 93 U2, U4, U5). Log entries 6, 8, 9, 12. -/
opaque freeByte : (draw address : Nat) → Byte

/-- FREE VALUE: the word that one read of a table entry never written since reset gives: for a command's draw, a work
item, the how-manieth reading of that entry by the item, and the T-space index (10_state R35; 93 U1). Log entries 5, 9. -/
opaque freeTable : (draw item pass index : Nat) → Word64

/-- FREE VALUE: what the command of that draw leaves in the result register of that slot after another agent raced with it
(70 R324; 93 U4). Log entries 8, 9. -/
opaque freeResult : (draw slot : Nat) → Word64

/-- FREE VALUE: what a host read of a result register gives while a command is in flight (70 R323; 93 U3).
Log entries 7, 9. -/
opaque freeReg : (draw : Nat) → Word64

end Config
end Sys2Proof
end

