-- ==== Sys2Proof/Syntax.lean ====
section
/-! DEFINITION. The command set, version 1: one constructor per row of the opcode map (30_encoding R92). No command has
an operand in its word (30_encoding R91). -/

namespace Sys2Proof

/-- The 21 commands of ARC-CE, in the order of 30_encoding R92. -/
inductive Instr where
  /-- `NOP` (43 R255). -/
  | nop
  /-- `ENC.PAR` (41 R177). -/
  | encPar
  /-- `ENC.HAM` (41 R178). -/
  | encHam
  /-- `ENC.SEC` (41 R179). -/
  | encSec
  /-- `ENC.RS` (42 R225). -/
  | encRs
  /-- `DEC.AUTO` (43 R254). -/
  | decAuto
  /-- `DEC.PAR` (41 R186). -/
  | decPar
  /-- `DEC.HAM` (41 R187). -/
  | decHam
  /-- `DEC.SEC` (41 R188). -/
  | decSec
  /-- `DEC.RS` (42 R234). -/
  | decRs
  /-- `BENC.PAR` (40 R146). -/
  | bencPar
  /-- `BENC.HAM` (40 R147). -/
  | bencHam
  /-- `BENC.SEC` (40 R148). -/
  | bencSec
  /-- `BDEC.PAR` (40 R149). -/
  | bdecPar
  /-- `BDEC.HAM` (40 R150). -/
  | bdecHam
  /-- `BDEC.SEC` (40 R151). -/
  | bdecSec
  /-- `PCM` (40 R145). -/
  | pcm
  /-- `TWR` (43 R258). -/
  | twr
  /-- `TRD` (43 R259). -/
  | trd
  /-- `INIT` (43 R256). -/
  | init
  /-- `CLOSE` (43 R257). -/
  | close
deriving DecidableEq, Repr

end Sys2Proof
end

