-- ==== Sys2Proof/WellFormed.lean ====
section
/-! DEFINITION. What is well formed: a value written to `c[CMD]` (the list of illegal values of 30_encoding R96, written
apart from the opcode map that the decoder follows), a command (always: R91 gives it no operand), a platform
(92_eei_decisions section 2). -/

namespace Sys2Proof

/-- Bits 7:4 of a value written to `c[CMD]` (30_encoding R90). -/
def opField (v : Word64) : Nat := (v.extractLsb' 4 4).toNat

/-- Bits 3:0 of a value written to `c[CMD]` (30_encoding R90). -/
def tagField (v : Word64) : Nat := (v.extractLsb' 0 4).toNat

/-- 30_encoding R96, clause by clause: the values written to `c[CMD]` that are illegal. -/
def illegalValue (v : Word64) : Bool :=
  let op := opField v
  let tag := tagField v
  (v.extractLsb' 8 56 != 0)
    || (decide (10 ≤ op))
    || (op == 0 && tag != 0)
    || (op == 1 && (tag == 0 || decide (5 ≤ tag)))
    || (op == 2 && decide (5 ≤ tag))
    || ((op == 3 || op == 4) && (tag == 0 || decide (4 ≤ tag)))
    || (decide (5 ≤ op) && decide (op ≤ 9) && tag != 0)

/-- A command term has no field that could be out of range (30_encoding R91), so each is well formed. -/
def Instr.wellFormed (_ : Instr) : Bool := true

/-- The constraints on the open parameters (00_scope R7, 10_state R21, 92 section 2): at least one lane, a window base
aligned to 256 bytes, and the 256-byte window inside the address space. -/
def Platform.wellFormed (p : Platform) : Bool :=
  decide (1 ≤ p.nlanes) && p.base % 256 == 0 && decide (p.base + 256 ≤ addressSpace)

end Sys2Proof
end

