-- ==== Sys2Proof/Decode.lean ====
section
/-! DEFINITION. The decoder of values written to `c[CMD]`, total on all 2^64 of them (30_encoding R93), then the encoder,
written from the fields `op` and `tag` of R90 and R92 apart from the decoder's table of words. -/

namespace Sys2Proof

/-- Why a value is no command, in the order of the tests of 30_encoding R93. -/
inductive DecodeReject where
  /-- Bits 63:32 are not zero. -/
  | upperHalf
  /-- Bits 31:8 (the field `zero`) are not zero. -/
  | zeroField
  /-- The pair (`op`, `tag`) is no row of R92. -/
  | unassigned
deriving DecidableEq, Repr

/-- The opcode map of 30_encoding R92: the word of every command. -/
def opcodeMap : List (Word32 × Instr) :=
  [ (0x00000000, .nop),
    (0x00000011, .encPar),  (0x00000012, .encHam),  (0x00000013, .encSec), (0x00000014, .encRs),
    (0x00000020, .decAuto), (0x00000021, .decPar),  (0x00000022, .decHam), (0x00000023, .decSec), (0x00000024, .decRs),
    (0x00000031, .bencPar), (0x00000032, .bencHam), (0x00000033, .bencSec),
    (0x00000041, .bdecPar), (0x00000042, .bdecHam), (0x00000043, .bdecSec),
    (0x00000050, .pcm), (0x00000060, .twr), (0x00000070, .trd), (0x00000080, .init), (0x00000090, .close) ]

/-- 30_encoding R93: every 64-bit value written to `c[CMD]` is one command or illegal. -/
def decode (v : Word64) : Except DecodeReject Instr :=
  if v.extractLsb' 32 32 ≠ 0 then .error .upperHalf
  else if v.extractLsb' 8 24 ≠ 0 then .error .zeroField
  else
    match opcodeMap.find? (fun row => row.1 == v.setWidth 32) with
    | some row => .ok row.2
    | none => .error .unassigned

/-- The decoder on an opcode-table word of `nbits` bits, every bit above them zero. A word that does not fit the 64-bit
write to `c[CMD]` is refused. -/
def decodeTableWord (nbits w : Nat) : Option Instr :=
  let bits := w % 2 ^ nbits
  if bits < addressSpace then (decode (BitVec.ofNat 64 bits)).toOption else none

/-- The layout of a command word (30_encoding R90): `zero` in bits 31:8, `op` in bits 7:4, `tag` in bits 3:0. -/
def commandWord (op tag : BitVec 4) : Word32 := (0#24 ++ op) ++ tag

/-- The `op` of a command (30_encoding R92). -/
def opOf : Instr → BitVec 4
  | .nop => 0
  | .encPar | .encHam | .encSec | .encRs => 1
  | .decAuto | .decPar | .decHam | .decSec | .decRs => 2
  | .bencPar | .bencHam | .bencSec => 3
  | .bdecPar | .bdecHam | .bdecSec => 4
  | .pcm => 5
  | .twr => 6
  | .trd => 7
  | .init => 8
  | .close => 9

/-- The `tag` of a command: the source's method tag, or 0 (30_encoding R90, R92). -/
def tagOf : Instr → BitVec 4
  | .encPar | .decPar | .bencPar | .bdecPar => 1
  | .encHam | .decHam | .bencHam | .bdecHam => 2
  | .encSec | .decSec | .bencSec | .bdecSec => 3
  | .encRs | .decRs => 4
  | .nop | .decAuto | .pcm | .twr | .trd | .init | .close => 0

/-- The word of a command (30_encoding R90, R92). -/
def encode (i : Instr) : Word32 := commandWord (opOf i) (tagOf i)

end Sys2Proof
end

