-- ==== Sys2Proof/Machine/Bytes.lean ====
section
/-! DEFINITION. Byte sequences and numbers (00_scope R8, R10, R13; 20_memory R66), and the parity fold (40 R130). -/

namespace Sys2Proof.Machine

/-- `ceil(a/b)` for `b >= 1` (00_scope R13). -/
def ceilDiv (a b : Nat) : Nat := (a + b - 1) / b

/-- The 4-byte big-endian encoding of `v < 2^32`, most significant byte first (00_scope R10). -/
def be32 (v : Nat) : List Byte :=
  [BitVec.ofNat 8 (v / 16777216), BitVec.ofNat 8 (v / 65536), BitVec.ofNat 8 (v / 256), BitVec.ofNat 8 v]

/-- The number of a big-endian byte sequence; on four bytes the inverse of `be32` (00_scope R10). -/
def ube32 (b : List Byte) : Nat := b.foldl (fun acc x => acc * 256 + x.toNat) 0

/-- The little-endian value of a byte sequence (00_scope R10). -/
def le : List Byte → Nat
  | [] => 0
  | b :: bs => b.toNat + 256 * le bs

/-- The little-endian byte sequence of length `n` of a value (00_scope R10). -/
def bytesLE : Nat → Nat → List Byte
  | 0, _ => []
  | n + 1, v => BitVec.ofNat 8 v :: bytesLE n (v / 256)

/-- The XOR of the bits of a list. -/
def xorBits (bits : List Bool) : Bool := bits.foldr Bool.xor false

/-- `parity(v)`: the XOR of all bits of `v` (00_scope R8). -/
def parity {n : Nat} (v : BitVec n) : Bool := xorBits ((List.range n).map v.getLsbD)

/-- `fold(b)`: the XOR of all bits of a byte sequence (40 R130). -/
def fold (b : List Byte) : Bool := xorBits (b.map parity)

/-- A bit as a byte: `zext_8`. -/
def bitByte (b : Bool) : Byte := if b then 1 else 0

/-- The parity byte of a block or device: `0x00` or `0x01` (30_encoding R101, R105). -/
def foldByte (b : List Byte) : Byte := bitByte (fold b)

/-- A list of bits as a byte, first bit in bit 0. -/
def bitsToByte : List Bool → Byte
  | [] => 0
  | b :: bs => bitByte b ||| (bitsToByte bs <<< 1)

end Sys2Proof.Machine
end

