-- ==== Sys2Proof/Machine/State.lean ====
section
/-! DEFINITION. The state of ARC-CE and of what it is connected to, as plain data: the register slots (10_state section 1 to
3), the table store (10_state R35), the command in flight (10_state R41), system memory and the platform (10_state R45), and
what the host does next. Then the reasons a step can stop, and the state after reset (10_state R47). -/

namespace Sys2Proof.Machine

/-- The nine operand registers `x[0]` to `x[8]` (10_state R22). `bp` implements bits 7:0 only (R25). -/
structure Operands where
  src : Word64
  dst : Word64
  len : Word64
  cap : Word64
  pa  : Word64
  pb  : Word64
  nt  : Word64
  bd  : Word64
  bp  : Byte
deriving DecidableEq, Repr

/-- A table-store entry of `n` stored bits (10_state R35). `unloaded` is the spec's own state of an entry that no `TWR` has
written since reset (10_state R26, R35; 93 U1): reading it is no fault, each read gives a free value. Log entry 5. -/
inductive Entry (n : Nat) where
  | unloaded
  | loaded (v : BitVec n)
deriving DecidableEq, Repr

/-- The table store: 99 entries in four tables (10_state R35). -/
structure Tables where
  h1 : Vector (Entry 8) 4
  h8 : Vector (Entry 64) 7
  s1 : Vector (Entry 8) 16
  s8 : Vector (Entry 8) 72
deriving DecidableEq, Repr

/-- The record of the command in flight (10_state R41 (a)): the value written to `c[CMD]` and the latched operands (43 R251).
`key` is the draw of free values this command makes (log entry 9); `raced` says that another agent has raced with it on its
windows since its acceptance (20_memory R77, 70 R324; log entry 8). All of it is dead while `BUSY = 0`. -/
structure Flight where
  value : Word64
  ops   : Operands
  key   : Nat
  raced : Bool
deriving DecidableEq, Repr

/-- System memory (20_memory R60). `cells` lists the bytes that differ from what an unlisted address reads as, `wild` the
addresses whose byte is unspecified (60_exceptions R291); both rise strictly and share no address. -/
structure Memory where
  cells : List Host.Cell
  wild  : List Nat
deriving DecidableEq, Repr

/-- What happens next at the engine's boundary: the host actions of 30_encoding R109, accesses by bus address (10_state R21),
loads and stores of system memory by the host or another agent (20_memory R77), reset (70 R310), or the engine's own move.
Log entry 1. -/
inductive HostEvent where
  /-- `WR`: a 64-bit write of `v` to a slot. -/
  | wr (slot : Fin 32) (v : Word64)
  /-- `RD`: a 64-bit read of a slot. -/
  | rd (slot : Fin 32)
  /-- A write of `width` bytes at a bus address. -/
  | busWr (addr width : Nat) (v : Word64)
  /-- A read of `width` bytes at a bus address. -/
  | busRd (addr width : Nat)
  /-- `POKE`, or the first contents of memory (`MEM`): a store of bytes to system memory. -/
  | poke (addr : Nat) (bytes : List Byte)
  /-- A load of `n` bytes of system memory by an agent other than the engine. -/
  | peek (addr n : Nat)
  /-- `WAIT`: poll STATUS until `DONE = 1`. -/
  | wait
  /-- The reset input is asserted and released. -/
  | reset
  /-- No host action: the engine moves. -/
  | tick
deriving DecidableEq, Repr

/-- What a host read answered (30_encoding R109: "the script's result lists the values read"). -/
inductive Reading where
  | reg (slot : Nat) (v : Word64)
  | mem (addr : Nat) (b : Byte)
deriving DecidableEq, Repr

/-- The whole state. The register slots are 10_state R20 to R34, R39; `c[ID]`, the reserved slots and the bits `ERR` and
`CORR` of STATUS are not stored (R24, R28, R42). `inputs`, `reads`, `draws` are the model's own (log entries 1 and 9). -/
structure State where
  x        : Operands
  cmd      : Word32
  init     : Bool
  busy     : Bool
  done     : Bool
  ok       : Bool
  ecause   : BitVec 15
  olen     : Word64
  corrcnt  : Word64
  einfo    : Word64
  cpos     : Word64
  ie       : BitVec 2
  hstat    : BitVec 2
  tables   : Tables
  flight   : Flight
  mem      : Memory
  platform : Platform
  inputs   : List HostEvent
  reads    : List Reading
  draws    : Nat
deriving DecidableEq, Repr

/-- Why the machine stops. The engine itself never faults (60_exceptions R293; 93 section 1, last paragraph). -/
inductive Fault where
  /-- Raised by `hostPoke` and `hostPeek`: the host addresses a byte outside `[0, 2^64)`, which system memory does not have
  (20_memory R60). SAFE: the model stops where no hardware access exists. Log entry 14. -/
  | addressOutsideSpace (addr : Nat)
deriving DecidableEq, Repr

/-- Situations to which the spec gives no meaning. No command is refused. -/
inductive Refusal where
  /-- For an arm of `exec` without a meaning; no arm uses it. SAFE. -/
  | notModelled (mnemonic : String)
  /-- Raised by `busSlot`, and by `hostPoke` and `hostPeek` for bytes of the register window: an access to it that is not a
  naturally aligned 64-bit one (10_state R21; 93 U6: refuse). SAFE. Log entries 13, 18. -/
  | registerAccessShape (addr width : Nat)
  /-- Raised by `busSlot`: a bus access outside the 256-byte register window, which is not the engine's (10_state R21,
  20_memory R69). SAFE. Log entry 13. -/
  | outsideRegisterWindow (addr : Nat)
  /-- Raised by `endOfRun`: the run ended with a command in flight (70 R332; 93 U7: refuse). SAFE. Log entry 15. -/
  | runEndsInFlight
deriving DecidableEq, Repr

/-- All operand registers zero (10_state R47). -/
def Operands.zero : Operands := ⟨0, 0, 0, 0, 0, 0, 0, 0, 0⟩

/-- The table store after reset: every entry unspecified (10_state R35, R47). -/
def Tables.unloaded : Tables :=
  ⟨Vector.replicate 4 .unloaded, Vector.replicate 7 .unloaded, Vector.replicate 16 .unloaded, Vector.replicate 72 .unloaded⟩

/-- No command in flight (10_state R47). -/
def Flight.none : Flight := ⟨0, Operands.zero, 0, false⟩

/-- Memory with nothing listed. -/
def Memory.empty : Memory := ⟨[], []⟩

/-- The platform of the start state of 95_test_vectors section 6: one lane, all memory readable and writable. BASE is the last
256 bytes of the address space, away from the memory the spec's programs use. DESIGN CHOICE, log entry 10. -/
def plainPlatform : Platform := ⟨1, 0xFFFFFFFFFFFFFF00, []⟩

/-- The machine right after reset (10_state R47, 70 R310). -/
def State.reset : State where
  x        := Operands.zero
  cmd      := 0
  init     := false
  busy     := false
  done     := false
  ok       := false
  ecause   := 0
  olen     := 0
  corrcnt  := 0
  einfo    := 0
  cpos     := 0
  ie       := 0
  hstat    := 0
  tables   := Tables.unloaded
  flight   := Flight.none
  mem      := Memory.empty
  platform := plainPlatform
  inputs   := []
  reads    := []
  draws    := 0

end Sys2Proof.Machine
end

