-- ==== Sys2Proof/Machine/TableStore.lean ====
section
/-! DEFINITION. The table store's index space and its reads and writes (10_state R35, 30_encoding R108). -/

namespace Sys2Proof.Machine

/-- A valid T-space index, by table and row (30_encoding R108). -/
inductive TRef where
  | h1 (i : Fin 4)
  | h8 (i : Fin 7)
  | s1 (i : Fin 16)
  | s8 (i : Fin 72)
deriving DecidableEq, Repr

/-- 30_encoding R108: 0 to 3 `H1`, 8 to 14 `H8`, 16 to 31 `S1`, 32 to 103 `S8`; every other index is invalid. -/
def tRef? (idx : Nat) : Option TRef :=
  if h : idx < 4 then some (.h1 ⟨idx, h⟩)
  else if h : 8 ≤ idx ∧ idx - 8 < 7 then some (.h8 ⟨idx - 8, h.2⟩)
  else if h : 16 ≤ idx ∧ idx - 16 < 16 then some (.s1 ⟨idx - 16, h.2⟩)
  else if h : 32 ≤ idx ∧ idx - 32 < 72 then some (.s8 ⟨idx - 32, h.2⟩)
  else none

/-- The T-space index of an entry, the inverse of `tRef?`. -/
def tIndex : TRef → Nat
  | .h1 i => i.val
  | .h8 i => 8 + i.val
  | .s1 i => 16 + i.val
  | .s8 i => 32 + i.val

/-- One read of an entry, zero-extended (10_state R35): an unloaded entry gives the low bits of the free value. -/
def entryValue {n : Nat} (e : Entry n) (free : Word64) : Word64 :=
  match e with
  | .loaded v => v.setWidth 64
  | .unloaded => (free.setWidth n).setWidth 64

/-- `T[i]` read, with the free value of that read (43 R259). -/
def tableRead (t : Tables) (r : TRef) (free : Word64) : Word64 :=
  match r with
  | .h1 i => entryValue t.h1[i] free
  | .h8 i => entryValue t.h8[i] free
  | .s1 i => entryValue t.s1[i] free
  | .s8 i => entryValue t.s8[i] free

/-- `T[i] <- v`, truncated to the entry's stored width (43 R258). -/
def tableWrite (t : Tables) (r : TRef) (v : Word64) : Tables :=
  match r with
  | .h1 i => { t with h1 := t.h1.set i (.loaded (v.setWidth 8)) }
  | .h8 i => { t with h8 := t.h8.set i (.loaded v) }
  | .s1 i => { t with s1 := t.s1.set i (.loaded (v.setWidth 8)) }
  | .s8 i => { t with s8 := t.s8.set i (.loaded (v.setWidth 8)) }

/-- The block sizes of the Hamming and SECDED codes, 1 or 8 bytes (41 R171). -/
inductive Width where
  | one
  | eight
deriving DecidableEq, Repr

/-- The width of a block size in bytes, where it is legal. -/
def width? (n : Nat) : Option Width :=
  if n = 1 then some .one else if n = 8 then some .eight else none

/-- The block size in bytes. -/
def Width.bytes : Width → Nat
  | .one => 1
  | .eight => 8

/-- `r_w`, the number of parity-check rows (00_scope R7). -/
def Width.rows : Width → Nat
  | .one => 4
  | .eight => 7

/-- Every entry of a table read once, in order; `base` is the T-space index of its first entry. -/
def readTable {n : Nat} (es : List (Entry n)) (draw item pass base : Nat) : List Word64 :=
  es.zipIdx.map fun e => entryValue e.1 (Config.freeTable draw item pass (base + e.2))

/-- One reading of the rows `H_w[0..r-1]` (10_state R35). -/
def readRows (t : Tables) (w : Width) (draw item pass : Nat) : List Word64 :=
  match w with
  | .one => readTable t.h1.toList draw item pass 0
  | .eight => readTable t.h8.toList draw item pass 8

/-- One reading of the syndrome table `S_w[0..N_w-1]` (10_state R35). -/
def readSyndromes (t : Tables) (w : Width) (draw item : Nat) : List Byte :=
  match w with
  | .one => (readTable t.s1.toList draw item 0 16).map (·.setWidth 8)
  | .eight => (readTable t.s8.toList draw item 0 32).map (·.setWidth 8)

end Sys2Proof.Machine
end

