-- ==== Sys2Proof/Machine/Kernel.lean ====
section
/-! DEFINITION. The linear-code kernel: parity-check matrix multiplier, check bytes, syndrome search, block decoders
(40_block_kernels R131 to R140, R142). A block value is its little-endian number in the low bits of 64 (20_memory R66). -/

namespace Sys2Proof.Machine

/-- What one block decode reads from the table store: the rows for the syndrome, the rows again for the verification, and
the syndrome table. For loaded entries the two readings of the rows are equal; for unloaded ones they need not agree
(93 U1). Log entry 5. -/
structure CodeReads where
  r         : Nat
  rows      : List Word64
  rowsAgain : List Word64
  syn       : List Byte
deriving DecidableEq, Repr

/-- The readings of work item `item` of the command that makes draw `draw`. -/
def codeReads (t : Tables) (w : Width) (draw item : Nat) : CodeReads where
  r         := w.rows
  rows      := readRows t w draw item 0
  rowsAgain := readRows t w draw item 1
  syn       := readSyndromes t w draw item

/-- `pcm_w(d)`: row `i` gives result bit `i` (40 R131). -/
def pcm (rows : List Word64) (d : Word64) : Byte := bitsToByte (rows.map fun h => parity (d &&& h))

/-- `chk_ham_w(d)` (40 R133). -/
def chkHam (rows : List Word64) (d : Word64) : Byte := pcm rows d

/-- `chk_sec_w(d)`: the overall parity in bit `r` (40 R134). -/
def chkSec (r : Nat) (rows : List Word64) (d : Word64) : Byte :=
  pcm rows d ||| (bitByte (Bool.xor (parity (pcm rows d)) (parity d)) <<< r)

/-- `synlookup_w(s)`: the smallest position whose entry equals `s` (40 R136). -/
def synLookup (syn : List Byte) (s : Byte) : Option Nat := syn.findIdx? (· == s)

/-- `flip_w(chk, d, p)`: flip codeword bit `p` (40 R135, R137). -/
def flipBit (chk : Byte) (d : Word64) (p : Nat) : Byte × Word64 :=
  if p ≤ 7 then (chk ^^^ (1#8 <<< p), d) else (chk, d ^^^ (1#64 <<< (p - 8)))

/-- The outcomes of a block decode (40 R138, R139). -/
inductive Verdict where
  | clean
  | corr
  | failDbl
  | failInt
deriving DecidableEq, Repr

/-- What a block decode returns: outcome, check byte, data, flipped position (40 R138, R139). -/
structure BlockResult where
  verdict : Verdict
  chk     : Byte
  d       : Word64
  pos     : Option Nat
deriving DecidableEq, Repr

/-- The last part of both block decoders: flip position `p`, recompute with `enc`, verify that the corrected syndrome is zero
(40 R138, R139). -/
def correctAt (enc : Word64 → Byte) (chk : Byte) (d : Word64) (p : Nat) : BlockResult :=
  let c := flipBit chk d p
  if enc c.2 ^^^ c.1 ≠ 0 then ⟨.failInt, chk, d, none⟩ else ⟨.corr, c.1, c.2, some p⟩

/-- `dec_ham_w(chk, d)` (40 R138). -/
def decHam (t : CodeReads) (chk : Byte) (d : Word64) : BlockResult :=
  let s := chkHam t.rows d ^^^ chk
  if s = 0 then ⟨.clean, chk, d, none⟩
  else
    match synLookup t.syn s with
    | none => ⟨.failInt, chk, d, none⟩
    | some p => correctAt (chkHam t.rowsAgain) chk d p

/-- `dec_sec_w(chk, d)` (40 R139). -/
def decSec (t : CodeReads) (chk : Byte) (d : Word64) : BlockResult :=
  let s := chkSec t.r t.rows d ^^^ chk
  let sh := s &&& ~~~(1#8 <<< t.r)
  if s = 0 then ⟨.clean, chk, d, none⟩
  else if parity s = false then ⟨.failDbl, chk, d, none⟩
  else if sh = 0 then correctAt (chkSec t.r t.rowsAgain) chk d t.r
  else
    match synLookup t.syn sh with
    | none => ⟨.failInt, chk, d, none⟩
    | some p => correctAt (chkSec t.r t.rowsAgain) chk d p

/-- `dec_par(pb, b)`: whole-byte compare of the parity byte (40 R140). True when the block is intact. -/
def decPar (pb : Byte) (b : List Byte) : Bool := pb == foldByte b

end Sys2Proof.Machine
end

