-- ==== Sys2Proof/Machine/Flags.lean ====
section
/-! DEFINITION. The causes and their codes (60_exceptions R270), ERRMASK (10_state R29), the STATUS word (10_state R28), the
hard-wired ID (10_state R42) and the interrupt line (60_exceptions R285). -/

namespace Sys2Proof.Machine

/-- The causes (60 R270). Codes 1 and 8 are reserved and never set (R271). -/
inductive Cause where
  | notInitialized
  | invalidConstraint
  | invalidParameter
  | singleBitCorrected
  | doubleBitUncorrectable
  | tooManyErasures
  | integrityError
  | unknownEncoding
  | persistenceWarning
  | illegalCommand
  | malformedStream
  | capacityExceeded
  | busFault
  | bufferOverlap
  | tableLocked
deriving DecidableEq, Repr

/-- The code of a cause (60 R270). -/
def Cause.code : Cause → Nat
  | .notInitialized => 0
  | .invalidConstraint => 1
  | .invalidParameter => 2
  | .singleBitCorrected => 3
  | .doubleBitUncorrectable => 4
  | .tooManyErasures => 5
  | .integrityError => 6
  | .unknownEncoding => 7
  | .persistenceWarning => 8
  | .illegalCommand => 9
  | .malformedStream => 10
  | .capacityExceeded => 11
  | .busFault => 12
  | .bufferOverlap => 13
  | .tableLocked => 14

/-- The bit of `c[ECAUSE]` of a cause: code `n` is bit `n` (10_state R29). -/
def Cause.bit (c : Cause) : BitVec 15 := 1#15 <<< c.code

/-- `ERRMASK`: every cause but `SingleBitCorrected` (10_state R29). -/
def errMask : BitVec 15 := 0x7FF7

/-- A set of causes holds an error: `(ECAUSE & ERRMASK) != 0` (10_state R28, R29). -/
def hasError (ecause : BitVec 15) : Bool := ecause &&& errMask != 0

/-- STATUS.ERR, not stored (10_state R28). -/
def State.err (s : State) : Bool := hasError s.ecause

/-- STATUS.CORR, not stored (10_state R28). -/
def State.corr (s : State) : Bool := s.ecause.getLsbD 3

/-- Bit `n` of a register when `b` holds. -/
def bitAt (n : Nat) (b : Bool) : Word64 := if b then 1#64 <<< n else 0

/-- The word a read of STATUS gives for given bits ERR and CORR (10_state R28). -/
def statusWith (s : State) (err corr : Bool) : Word64 :=
  bitAt 0 s.init ||| bitAt 1 s.busy ||| bitAt 2 s.done ||| bitAt 3 s.ok ||| bitAt 4 err ||| bitAt 5 corr

/-- `c[STATUS]` (10_state R28). -/
def State.status (s : State) : Word64 := statusWith s s.err s.corr

/-- `c[ID]`: bits 31:0 = 0x41524301, bits 47:32 = NLANES mod 2^16, bits 63:48 = 0 (10_state R42). -/
def idWord (p : Platform) : Word64 := 0x41524301 ||| (BitVec.ofNat 64 (p.nlanes % 65536) <<< 32)

/-- The interrupt line `irq` (60 R285). -/
def State.irq (s : State) : Bool := s.done && (s.ie.getLsbD 0 || (s.ie.getLsbD 1 && s.err))

end Sys2Proof.Machine
end

