-- ==== Sys2Proof/Machine/Memory.lean ====
section
/-! DEFINITION. Reading and writing system memory (20_memory R60, R64, R65), the bytes the spec calls unspecified
(60_exceptions R291), and the canonical form of memory. -/

namespace Sys2Proof.Machine

/-- What an address that memory does not list reads as (95 section 6: "memory bytes 0 except the MEM lines").
DESIGN CHOICE, log entry 4. -/
def Memory.unlisted : Byte := 0

/-- The canonical form: addresses strictly rising in both lists, no listed byte equal to an unlisted one, and no address in
both. -/
abbrev Memory.wf (m : Memory) : Prop :=
  (m.cells.map Prod.fst).Pairwise (· < ·) ∧ (∀ c ∈ m.cells, c.2 ≠ Memory.unlisted)
    ∧ m.wild.Pairwise (· < ·) ∧ ∀ c ∈ m.cells, c.1 ∉ m.wild

/-- Memory lists no address outside the address space (20_memory R60). -/
abbrev Memory.inSpace (m : Memory) : Prop :=
  (∀ c ∈ m.cells, c.1 < addressSpace) ∧ ∀ a ∈ m.wild, a < addressSpace

/-- The byte listed for an address, or the unlisted one. -/
def lookCell (a : Nat) : List Host.Cell → Byte
  | [] => Memory.unlisted
  | c :: cs => if c.1 = a then c.2 else lookCell a cs

/-- The byte at an address: `none` where the spec says it is unspecified. -/
def Memory.look (m : Memory) (a : Nat) : Option Byte :=
  if a ∈ m.wild then none else some (lookCell a m.cells)

/-- One read of one byte: an unspecified byte gives the free value of that draw (60_exceptions R291). -/
def Memory.read (m : Memory) (draw a : Nat) : Byte :=
  (m.look a).getD (Config.freeByte draw a)

/-- `MemRead(a, n)`: the bytes at `a .. a+n-1`, lowest address first (00_scope R10, 20_memory R64). -/
def Memory.readBytes (m : Memory) (draw a n : Nat) : List Byte :=
  (List.range n).map fun t => m.read draw (a + t)

/-- Put a cell in its place among rising addresses. -/
def insertCell (a : Nat) (b : Byte) : List Host.Cell → List Host.Cell
  | [] => [(a, b)]
  | c :: cs => if c.1 < a then c :: insertCell a b cs else (a, b) :: c :: cs

/-- Take an address out of the listed cells. -/
def dropCell (a : Nat) (cs : List Host.Cell) : List Host.Cell := cs.filter fun c => c.1 != a

/-- Put an address in its place among rising addresses. -/
def insertAddr (a : Nat) : List Nat → List Nat
  | [] => [a]
  | x :: xs => if x < a then x :: insertAddr a xs else a :: x :: xs

/-- Take an address out of a list. -/
def dropAddr (a : Nat) (xs : List Nat) : List Nat := xs.filter fun x => x != a

/-- Store one byte: the address holds it, and is no longer unspecified. -/
def Memory.write (m : Memory) (a : Nat) (b : Byte) : Memory where
  cells := if b = Memory.unlisted then dropCell a m.cells else insertCell a b (dropCell a m.cells)
  wild  := dropAddr a m.wild

/-- The byte at an address becomes unspecified. -/
def Memory.blur (m : Memory) (a : Nat) : Memory where
  cells := dropCell a m.cells
  wild  := insertAddr a (dropAddr a m.wild)

/-- `MemWrite(a, n, v)`: store a byte sequence, first byte at the lowest address (00_scope R10, 20_memory R65). -/
def Memory.writeBytes : Memory → Nat → List Byte → Memory
  | m, _, [] => m
  | m, a, b :: bs => Memory.writeBytes (m.write a b) (a + 1) bs

/-- The `n` bytes at `a` become unspecified (60_exceptions R291, 70 R311). -/
def Memory.blurRange : Memory → Nat → Nat → Memory
  | m, _, 0 => m
  | m, a, n + 1 => Memory.blurRange (m.blur a) (a + 1) n

/-- The bytes at the listed addresses become unspecified (20_memory R77). -/
def Memory.blurAll (m : Memory) (as : List Nat) : Memory := as.foldl Memory.blur m

/-- Two ranges of bytes share an address. Empty ranges share none. -/
def rangesMeet (a n b k : Nat) : Bool := decide (0 < n) && decide (0 < k) && decide (a < b + k) && decide (b < a + n)

/-- A range of bytes meets the engine's own register window `[BASE, BASE+256)`, which is a device and no plain memory
(10_state R21, 20_memory R68, 60 R306). Log entry 18. -/
def meetsRegisters (p : Platform) (a n : Nat) : Bool := rangesMeet a n p.base 256

/-- `MemReadable(a, n)` (20_memory R63, R68): neither the register window nor a denied region takes a byte of the range away.
Holds for `n = 0`. -/
def memReadable (p : Platform) (a n : Nat) : Bool :=
  !meetsRegisters p a n && p.denied.all fun r => !(r.noRead && rangesMeet a n r.base r.size)

/-- `MemWritable(a, n)` (20_memory R63, R68). -/
def memWritable (p : Platform) (a n : Nat) : Bool :=
  !meetsRegisters p a n && p.denied.all fun r => !(r.noWrite && rangesMeet a n r.base r.size)

end Sys2Proof.Machine
end

