-- ==== Sys2Proof/Machine/Ops.lean ====
section
/-! DEFINITION. The shared operations: acceptance (43 R250, R251), completion (43 R260), raising and noting a cause
(60_exceptions R290, R292), the order of checks (R280), and the run of a stream command over its work items (41 R185,
60 R291, R301). -/

namespace Sys2Proof.Machine

/-- The result registers cleared at every acceptance (43 R250). -/
def clearResults (s : State) : State :=
  { s with ecause := 0, olen := 0, corrcnt := 0, einfo := 0, cpos := 0 }

/-- Acceptance of the value `v` written to `c[CMD]` while `BUSY = 0` (43 R250): the command register, the status bits, the
result registers, the latched operands (R251). The command gets a draw of its own (log entry 9). -/
def accept (v : Word64) (s : State) : State :=
  { clearResults s with
    cmd    := v.setWidth 32
    busy   := true
    done   := false
    ok     := false
    flight := { value := v, ops := s.x, key := s.draws, raced := false }
    draws  := s.draws + 1 }

/-- Completion of a command (43 R260). The interrupt line is a function of the state (`State.irq`). -/
def complete (s : State) : State := { s with busy := false, done := true, ok := !hasError s.ecause }

/-- A cause and its `info` (60 R272). -/
structure Raise where
  cause : Cause
  info  : Word64
deriving DecidableEq, Repr

/-- `raise Cause(info)` (60 R290): set the cause, the info, `OLEN` 0, and complete with `OK = 0`. Nothing else changes. -/
def raise (r : Raise) (s : State) : State :=
  { s with ecause := s.ecause ||| r.cause.bit, einfo := r.info, olen := 0, busy := false, done := true, ok := false }

/-- A block-level failure (cause 4, 5 or 6) was noted before (60 R292). -/
def failureNoted (ecause : BitVec 15) : Bool := ecause &&& 0x70 != 0

/-- `note Cause(i)` from work item `i` (60 R292): OR the cause in; a failure keeps the smallest index. -/
def note (c : Cause) (i : Nat) (s : State) : State :=
  let idx := BitVec.ofNat 64 i
  { s with
    ecause := s.ecause ||| c.bit
    einfo  := if c = .singleBitCorrected then s.einfo
              else if failureNoted s.ecause && decide (s.einfo < idx) then s.einfo else idx }

/-- What a work item notes: nothing, or a cause; a correction also counts (40 R142, 60 R292). -/
def noteItem (c : Option Cause) (i : Nat) (s : State) : State :=
  match c with
  | none => s
  | some .singleBitCorrected => { note .singleBitCorrected i s with corrcnt := s.corrcnt + 1 }
  | some c => note c i s

/-- The first failing check of a list decides (60 R280): "the first in this order is raised and the others are not looked
at". -/
def firstRaise (checks : List (Bool × Raise)) : Option Raise := (checks.find? Prod.fst).map Prod.snd

/-- A command that ends at its checks or does `k` and completes. -/
def checked (checks : List (Bool × Raise)) (k : State → State) (s : State) : State :=
  match firstRaise checks with
  | some r => raise r s
  | none => complete (k s)

/-- The effect of one work item (41 R176, 42 R224): what it notes, and the bytes it writes at an address. -/
structure WorkItem where
  noted : Option Cause
  addr  : Nat
  out   : List Byte
deriving DecidableEq, Repr

/-- A stream command that has passed its checks: the size of its output, the bytes it writes at `DST` before any work item
(the header of an encode), its work items. -/
structure Job where
  need   : Nat
  header : List Byte
  count  : Nat
  item   : Nat → WorkItem

/-- What a stream command will do (20_memory R61, R62): `early`, a check that precedes the computation of its output size
fails; `late`, a check on the windows fails, after that computation; `run`, it runs its job. -/
inductive Plan where
  | early (r : Raise)
  | late (r : Raise) (need : Nat)
  | run (job : Job)

/-- The output size a command computes; 0 where a check fails before (20_memory R61, R62). -/
def Plan.need : Plan → Nat
  | .early _ => 0
  | .late _ n => n
  | .run job => job.need

/-- The plan of a stream command, from the checks that precede its output size, the checks of the windows, and its job. -/
def plan (checks windows : List (Bool × Raise)) (job : Job) : Plan :=
  match firstRaise checks with
  | some r => .early r
  | none =>
    match firstRaise windows with
    | some r => .late r job.need
    | none => .run job

/-- The bytes of the destination window of a plan: its output size, of a window that wraps the part inside the address space
(20_memory R60, R61). -/
def destinationSize (p : Plan) (s : State) : Nat := min p.need (addressSpace - s.flight.ops.dst.toNat)

/-- `MemWrite` by the engine. -/
def memWrite (a : Nat) (bs : List Byte) (s : State) : State := { s with mem := s.mem.writeBytes a bs }

/-- `MemRead` by the command in flight (20_memory R64), every read with that command's draw. -/
def memRead (s : State) (a n : Nat) : List Byte := s.mem.readBytes s.flight.key a n

/-- Run work item `i`: write its output, note its cause. -/
def runItem (item : Nat → WorkItem) (s : State) (i : Nat) : State :=
  noteItem (item i).noted i (memWrite (item i).addr (item i).out s)

/-- Run work items in the order given (60 R301 says that the order does not matter). -/
def runItems (item : Nat → WorkItem) (order : List Nat) (s : State) : State := order.foldl (runItem item) s

/-- An address lies in the window `[a, a+n)` (20_memory R61). -/
def inWindow (a n x : Nat) : Bool := decide (a ≤ x) && decide (x < a + n)

/-- The end of a stream command (41 R185): on a noted error `OLEN` is 0 and the window's bytes are unspecified (60 R291),
else `OLEN` is the output size. -/
def finishStream (need : Nat) (s : State) : State :=
  let dst := s.flight.ops.dst.toNat
  if hasError s.ecause then
    complete { s with olen := 0, mem := s.mem.blurRange dst need }
  else
    complete { s with olen := BitVec.ofNat 64 need }

/-- All work items of a job in index order, then its end. -/
def runJob (job : Job) (s : State) : State :=
  finishStream job.need
    (runItems job.item (List.range job.count) (memWrite s.flight.ops.dst.toNat job.header s))

/-- The free causes of a raced command: any set but the reserved codes 1 and 8, which no command sets (60 R271). -/
def racedCauses (s : State) : BitVec 15 := (Config.freeResult s.flight.key 18).setWidth 15 &&& 0x7EFD

/-- The end of a stream command with which another agent raced (70 R324; 93 U4): it completes, its result registers and its
whole destination window are unspecified. `OK` is computed from the free causes (43 R260), `OLEN` is 0 when they hold an
error (10_state R30), `CPOS` is not written (R33). Log entry 8. -/
def finishRaced (size : Nat) (s : State) : State :=
  complete { s with
    ecause  := racedCauses s
    olen    := if hasError (racedCauses s) then 0 else Config.freeResult s.flight.key 19
    corrcnt := Config.freeResult s.flight.key 20
    einfo   := Config.freeResult s.flight.key 21
    mem     := s.mem.blurRange s.flight.ops.dst.toNat size }

/-- A stream command: the end of a raced one, else the raise of its plan, or its job. -/
def runPlan (p : Plan) (s : State) : State :=
  if s.flight.raced then finishRaced (destinationSize p s) s
  else
    match p with
    | .early r => raise r s
    | .late r _ => raise r s
    | .run job => runJob job s

end Sys2Proof.Machine
end

