-- ==== Sys2Proof/Machine/Operands.lean ====
section
/-! DEFINITION. The operand forms: the latched operands of a command, its checks on them (60_exceptions R280), the source and
destination windows (20_memory R61, R63, R70 to R72), the block operand (40 R143), header fields. -/

namespace Sys2Proof.Machine

/-- `NotInitialized` (43 R252). -/
def checkInit (s : State) : Bool × Raise := (!s.init, ⟨.notInitialized, 0⟩)

/-- The latched source address. -/
def srcAddr (s : State) : Nat := s.flight.ops.src.toNat

/-- The latched destination address. -/
def dstAddr (s : State) : Nat := s.flight.ops.dst.toNat

/-- The latched source length. -/
def srcLen (s : State) : Nat := s.flight.ops.len.toNat

/-- `BusFault(0)`: the source window wraps or is not readable (20_memory R63, R70). -/
def checkSource (s : State) : Bool × Raise :=
  (decide (addressSpace < srcAddr s + srcLen s) || !memReadable s.platform (srcAddr s) (srcLen s), ⟨.busFault, 0⟩)

/-- `CapacityExceeded` (20_memory R72). -/
def checkCapacity (s : State) (need : Nat) : Bool × Raise :=
  (decide (s.flight.ops.cap.toNat < need), ⟨.capacityExceeded, BitVec.ofNat 64 need⟩)

/-- `BusFault(1)`: the destination window wraps or is not writable (20_memory R63, R70). -/
def checkDestination (s : State) (need : Nat) : Bool × Raise :=
  (decide (addressSpace < dstAddr s + need) || !memWritable s.platform (dstAddr s) need, ⟨.busFault, 1⟩)

/-- `BufferOverlap`: both windows are non-empty and share a byte (20_memory R71). -/
def checkOverlap (s : State) (need : Nat) : Bool × Raise :=
  (rangesMeet (srcAddr s) (srcLen s) (dstAddr s) need, ⟨.bufferOverlap, 0⟩)

/-- The checks 12 to 14 of 60 R280, in their order. -/
def windowChecks (s : State) (need : Nat) : List (Bool × Raise) :=
  [checkCapacity s need, checkDestination s need, checkOverlap s need]

/-- A thread count is legal: `1 <= T <= 2^32 - 1` (41 R172). -/
def legalThreads (t : Nat) : Bool := decide (1 ≤ t) && decide (t < fieldSpace)

/-- The 32-bit big-endian field of the source window at an offset (20_memory R66). -/
def headerField (s : State) (offset : Nat) : Nat := ube32 (memRead s (srcAddr s + offset) 4)

/-- The first byte of the source window. -/
def tagByte (s : State) : Byte := s.mem.read s.flight.key (srcAddr s)

/-- `MalformedStream(code)` (60 R272). -/
def malformed (failed : Bool) (code : Word64) : Bool × Raise := (failed, ⟨.malformedStream, code⟩)

/-- The first checks of every decode: `INIT`, the source window, `len < 1` (41 R181 (1) to (3), 42 R230, 43 R254). -/
def decodeChecks (s : State) : List (Bool × Raise) :=
  [checkInit s, checkSource s, malformed (srcLen s == 0) 1]

/-- The tag of an explicit decode must match (41 R181 (4), 42 R230 (4)). -/
def checkTag (s : State) (expected : Byte) : Bool × Raise := malformed (tagByte s != expected) 2

/-- The number `x[BD][8w-1:0]` of a block of `w` bytes (40 R143). -/
def blockValue (w : Nat) (bd : Word64) : Word64 := BitVec.ofNat 64 (bd.toNat % 2 ^ (8 * w))

/-- The block operand of the command in flight. -/
def blockOperand (s : State) : Word64 := blockValue s.flight.ops.pa.toNat s.flight.ops.bd

/-- The block size in `x[PA]`, where it is 1 or 8 (the whole 64-bit register is compared). -/
def blockWidth? (s : State) : Option Width := width? s.flight.ops.pa.toNat

/-- The checks of the block-level commands (40 R143). -/
def blockChecks (s : State) (legal : Bool) : List (Bool × Raise) :=
  [checkInit s, (!legal, ⟨.invalidParameter, s.flight.ops.pa⟩)]

/-- The template of the block-level commands on blocks of 1 or 8 bytes (40 R143). -/
def withWidth (k : Width → State → State) (s : State) : State :=
  match blockWidth? s with
  | some w => checked (blockChecks s true) (k w) s
  | none => checked (blockChecks s false) id s

/-- `x[BP] <- v`. -/
def setBP (v : Byte) (s : State) : State := { s with x := { s.x with bp := v } }

/-- `x[BD] <- v`. -/
def setBD (v : Word64) (s : State) : State := { s with x := { s.x with bd := v } }

end Sys2Proof.Machine
end

