-- ==== Sys2Proof/Machine/Block.lean ====
section
/-! DEFINITION. The block-level commands (40_block_kernels R143 to R151). -/

namespace Sys2Proof.Machine

/-- The rows read by a block-level command on width `w` (70 R314). -/
def blockRows (s : State) (w : Width) : List Word64 := readRows s.tables w s.flight.key 0 0

/-- `PCM` (40 R145): `x[BP] <- zext_8(pcm_w(d))`. -/
def execPcm (s : State) : Host.Outcome State Fault Refusal :=
  .next (withWidth (fun w => setBP (pcm (blockRows s w) (blockOperand s))) s)

/-- The legal block sizes of `BENC.PAR` and `BDEC.PAR`: 1 to 8 (40 R143). -/
def parityBlockLegal (s : State) : Bool :=
  decide (1 ≤ s.flight.ops.pa.toNat) && decide (s.flight.ops.pa.toNat ≤ 8)

/-- The block operand as its bytes, lowest first. -/
def blockBytes (s : State) : List Byte := bytesLE s.flight.ops.pa.toNat (blockOperand s).toNat

/-- `BENC.PAR` (40 R146): `x[BP] <- zext_8(fold(bytes_w(d)))`. -/
def execBencPar (s : State) : Host.Outcome State Fault Refusal :=
  .next (checked (blockChecks s (parityBlockLegal s)) (setBP (foldByte (blockBytes s))) s)

/-- `BENC.HAM` (40 R147): `x[BP] <- chk_ham_w(d)`. -/
def execBencHam (s : State) : Host.Outcome State Fault Refusal :=
  .next (withWidth (fun w => setBP (chkHam (blockRows s w) (blockOperand s))) s)

/-- `BENC.SEC` (40 R148): `x[BP] <- chk_sec_w(d)`. -/
def execBencSec (s : State) : Host.Outcome State Fault Refusal :=
  .next (withWidth (fun w => setBP (chkSec w.rows (blockRows s w) (blockOperand s))) s)

/-- `BDEC.PAR` (40 R149): note `IntegrityError` when the whole parity byte differs; no register is written. -/
def execBdecPar (s : State) : Host.Outcome State Fault Refusal :=
  .next (checked (blockChecks s (parityBlockLegal s))
    (if decPar s.flight.ops.bp (blockBytes s) then id else note .integrityError 0) s)

/-- The outcome of a block decode on the registers (40 R150, R151). -/
def applyBlockResult (r : BlockResult) (s : State) : State :=
  match r.verdict with
  | .clean => setBD r.d s
  | .corr =>
    { note .singleBitCorrected 0 (setBP r.chk (setBD r.d s)) with
      cpos := BitVec.ofNat 64 (r.pos.getD 0), corrcnt := 1 }
  | .failDbl => note .doubleBitUncorrectable 0 s
  | .failInt => note .integrityError 0 s

/-- The table readings of a block-level decode. -/
def blockReads (s : State) (w : Width) : CodeReads := codeReads s.tables w s.flight.key 0

/-- `BDEC.HAM` (40 R150). -/
def execBdecHam (s : State) : Host.Outcome State Fault Refusal :=
  .next (withWidth (fun w => applyBlockResult (decHam (blockReads s w) s.flight.ops.bp (blockOperand s))) s)

/-- `BDEC.SEC` (40 R151). -/
def execBdecSec (s : State) : Host.Outcome State Fault Refusal :=
  .next (withWidth (fun w => applyBlockResult (decSec (blockReads s w) s.flight.ops.bp (blockOperand s))) s)

end Sys2Proof.Machine
end

