-- ==== Sys2Proof/Machine/LinearStreams.lean ====
section
/-! DEFINITION. The linear stream commands ENC.PAR, ENC.HAM, ENC.SEC, DEC.PAR, DEC.HAM, DEC.SEC (41_linear_streams), on the
stream formats of 30_encoding R99 to R103. -/

namespace Sys2Proof.Machine

/-- The three linear codecs. -/
inductive Codec where
  | par
  | ham
  | sec
deriving DecidableEq, Repr

/-- The method tag (30_encoding R107). -/
def Codec.tag : Codec → Byte
  | .par => 1
  | .ham => 2
  | .sec => 3

/-- Block size validity (41 R171). -/
def Codec.legalBlockSize (c : Codec) (bs : Nat) : Bool :=
  match c with
  | .par => decide (1 ≤ bs) && decide (bs < fieldSpace)
  | .ham | .sec => (width? bs).isSome

/-- The layout of a linear stream: block count, full blocks, remainder, block size, data size, thread count (41 R173,
R181). -/
structure Layout where
  B   : Nat
  F   : Nat
  rem : Nat
  bs  : Nat
  n   : Nat
  T   : Nat
deriving DecidableEq, Repr

/-- The layout of an encode (41 R173). -/
def encLayout (s : State) : Layout :=
  let n := srcLen s
  let bs := s.flight.ops.pa.toNat
  { B := ceilDiv n bs, F := n / bs, rem := n % bs, bs := bs, n := n, T := s.flight.ops.nt.toNat }

/-- The layout a 17-byte header gives (41 R181 (6), (10)). -/
def decLayout (s : State) : Layout :=
  let B := headerField s 1
  let bs := headerField s 5
  let rem := headerField s 9
  let F := B - (if 0 < rem then 1 else 0)
  { B := B, F := F, rem := rem, bs := bs, n := F * bs + rem, T := headerField s 13 }

/-- The stream size (30_encoding R103, 41 R174). -/
def Codec.streamSize (c : Codec) (l : Layout) : Nat :=
  match c with
  | .par => 17 + l.n + l.B
  | .ham | .sec => 17 + l.F * (1 + l.bs) + 2 * l.rem

/-- The 17-byte header (30_encoding R100). -/
def linHeader (c : Codec) (l : Layout) : List Byte := c.tag :: (be32 l.B ++ be32 l.bs ++ be32 l.rem ++ be32 l.T)

/-- The number of work items (41 R176). -/
def Codec.items (c : Codec) (l : Layout) : Nat :=
  match c with
  | .par => l.B
  | .ham | .sec => l.F + l.rem

/-- The data bytes of work item `q` (41 R175, R176): `L_i` for Parity, `bs` or 1 for Hamming and SECDED. -/
def Codec.itemLen (c : Codec) (l : Layout) (q : Nat) : Nat :=
  match c with
  | .par => if 0 < l.rem ∧ q + 1 = l.B then l.rem else l.bs
  | .ham | .sec => if q < l.F then l.bs else 1

/-- The offset of work item `q`'s data in the data (41 R175, R184). -/
def Codec.dataOffset (c : Codec) (l : Layout) (q : Nat) : Nat :=
  match c with
  | .par => q * l.bs
  | .ham | .sec => if q < l.F then q * l.bs else l.F * l.bs + (q - l.F)

/-- The offset of work item `q`'s codeword in the stream (41 R175, R184). -/
def Codec.codeOffset (c : Codec) (l : Layout) (q : Nat) : Nat :=
  match c with
  | .par => 17 + q * (1 + l.bs)
  | .ham | .sec => if q < l.F then 17 + q * (1 + l.bs) else 17 + l.F * (1 + l.bs) + 2 * (q - l.F)

/-- The code width of a Hamming or SECDED work item: that of the block size for full blocks, 1 byte for the remainder
(41 R178, R187). -/
def itemWidth (l : Layout) (q : Nat) : Width := if q < l.F then (width? l.bs).getD .one else .one

/-- The check byte of a block (41 R177 to R179). -/
def Codec.checkByte (c : Codec) (w : Width) (rows : List Word64) (blk : List Byte) : Byte :=
  match c with
  | .par => foldByte blk
  | .ham => chkHam rows (BitVec.ofNat 64 (le blk))
  | .sec => chkSec w.rows rows (BitVec.ofNat 64 (le blk))

/-- Encode work item `q` (41 R177 to R179): one codeword, the check byte first. -/
def encItem (c : Codec) (s : State) (l : Layout) (q : Nat) : WorkItem :=
  let blk := memRead s (srcAddr s + c.dataOffset l q) (c.itemLen l q)
  let w := itemWidth l q
  { noted := none
    addr  := dstAddr s + c.codeOffset l q
    out   := c.checkByte w (readRows s.tables w s.flight.key q 0) blk :: blk }

/-- The plan of a linear encode, with the checks of 41 R180. DESIGN CHOICE, unsafe: `need` counts as computed after the check of
the source window, on which R180 is silent, so the destination window is empty before that BusFault. Log entry 17. -/
def encPlan (c : Codec) (s : State) : Plan :=
  let l := encLayout s
  let need := c.streamSize l
  plan
    [ checkInit s,
      (!c.legalBlockSize l.bs, ⟨.invalidParameter, s.flight.ops.pa⟩),
      (!legalThreads l.T, ⟨.invalidParameter, s.flight.ops.nt⟩),
      (decide (fieldSpace ≤ l.B), ⟨.invalidParameter, BitVec.ofNat 64 l.B⟩),
      checkSource s ]
    (windowChecks s need)
    { need := need, header := linHeader c l, count := c.items l, item := encItem c s l }

/-- The cause a block decode notes (40 R142). -/
def Verdict.cause : Verdict → Option Cause
  | .clean => none
  | .corr => some .singleBitCorrected
  | .failDbl => some .doubleBitUncorrectable
  | .failInt => some .integrityError

/-- What a codeword decodes to: the noted cause and the data bytes (41 R186 to R188). -/
def Codec.decodeBlock (c : Codec) (w : Width) (t : CodeReads) (chk : Byte) (blk : List Byte) : Option Cause × List Byte :=
  match c with
  | .par => (if decPar chk blk then none else some .integrityError, blk)
  | .ham =>
    let r := decHam t chk (BitVec.ofNat 64 (le blk))
    (Verdict.cause r.verdict, bytesLE w.bytes r.d.toNat)
  | .sec =>
    let r := decSec t chk (BitVec.ofNat 64 (le blk))
    (Verdict.cause r.verdict, bytesLE w.bytes r.d.toNat)

/-- Decode work item `q` (41 R186 to R188). -/
def decItem (c : Codec) (s : State) (l : Layout) (q : Nat) : WorkItem :=
  let at_ := srcAddr s + c.codeOffset l q
  let chk := s.mem.read s.flight.key at_
  let blk := memRead s (at_ + 1) (c.itemLen l q)
  let w := itemWidth l q
  let r := c.decodeBlock w (codeReads s.tables w s.flight.key q) chk blk
  { noted := r.1, addr := dstAddr s + c.dataOffset l q, out := r.2 }

/-- The checks (5) to (10) of 41 R181 on the header. -/
def linHeaderChecks (c : Codec) (s : State) (l : Layout) : List (Bool × Raise) :=
  [ malformed (decide (srcLen s < 17)) 3,
    (!c.legalBlockSize l.bs, ⟨.invalidParameter, BitVec.ofNat 64 l.bs⟩),
    (l.T == 0, ⟨.invalidParameter, 0⟩),
    malformed (decide (l.bs ≤ l.rem) || (decide (0 < l.rem) && l.B == 0)) 4,
    malformed (c.streamSize l != srcLen s) 5 ]

/-- A linear decode from step (5) of 41 R181 on. -/
def decFromHeader (c : Codec) (before : List (Bool × Raise)) (s : State) : Plan :=
  let l := decLayout s
  plan (before ++ linHeaderChecks c s l) (windowChecks s l.n)
    { need := l.n, header := [], count := c.items l, item := decItem c s l }

/-- The plan of an explicit linear decode (41 R181). -/
def decPlan (c : Codec) (s : State) : Plan :=
  decFromHeader c (decodeChecks s ++ [checkTag s c.tag]) s

/-- `ENC.PAR` (41 R177). -/
def execEncPar (s : State) : Host.Outcome State Fault Refusal := .next (runPlan (encPlan .par s) s)

/-- `ENC.HAM` (41 R178). -/
def execEncHam (s : State) : Host.Outcome State Fault Refusal := .next (runPlan (encPlan .ham s) s)

/-- `ENC.SEC` (41 R179). -/
def execEncSec (s : State) : Host.Outcome State Fault Refusal := .next (runPlan (encPlan .sec s) s)

/-- `DEC.PAR` (41 R186). -/
def execDecPar (s : State) : Host.Outcome State Fault Refusal := .next (runPlan (decPlan .par s) s)

/-- `DEC.HAM` (41 R187). -/
def execDecHam (s : State) : Host.Outcome State Fault Refusal := .next (runPlan (decPlan .ham s) s)

/-- `DEC.SEC` (41 R188). -/
def execDecSec (s : State) : Host.Outcome State Fault Refusal := .next (runPlan (decPlan .sec s) s)

end Sys2Proof.Machine
end

