-- ==== Sys2Proof/Machine/Galois.lean ====
section
/-! DEFINITION. GF(2^8) arithmetic, devices, the coding matrix, and the group encoder and decoder of the Reed-Solomon
erasure engine (42_reed_solomon R210 to R220). -/

namespace Sys2Proof.Machine

/-- A device: a sequence of 8 bytes, each one field element (42 R210). -/
abbrev Device := List Byte

/-- Multiplication by `z`: shift left, and reduce by 0x11D when bit 8 appears (42 R211). -/
def xtime (a : Byte) : Byte := if a.msb then (a <<< 1) ^^^ 0x1D else a <<< 1

/-- `n` rounds of the loop of 42 R211. -/
def gmulLoop : Nat → Byte → Byte → Byte → Byte
  | 0, _, _, r => r
  | n + 1, a, b, r => gmulLoop n (xtime a) (b >>> 1) (if b.getLsbD 0 then r ^^^ a else r)

/-- `gmul(a, b)`: polynomial product modulo `z^8 + z^4 + z^3 + z^2 + 1` (42 R211). -/
def gmul (a b : Byte) : Byte := gmulLoop 8 a b 0

/-- `ginv(a) = a^254 = a^2 a^4 a^8 a^16 a^32 a^64 a^128` (42 R212). Its value at 0 is never used (42 R212, 93 U12). -/
def ginv (a : Byte) : Byte :=
  let a2 := gmul a a
  let a4 := gmul a2 a2
  let a8 := gmul a4 a4
  let a16 := gmul a8 a8
  let a32 := gmul a16 a16
  let a64 := gmul a32 a32
  let a128 := gmul a64 a64
  gmul a2 (gmul a4 (gmul a8 (gmul a16 (gmul a32 (gmul a64 a128)))))

/-- `gdiv(a, b)` for `b != 0` (42 R212). -/
def gdiv (a b : Byte) : Byte := gmul a (ginv b)

/-- The product over the elements `u` of a list of `(y ^ u)`; the empty product is 1 (42 R214). -/
def diffProduct (y : Byte) (us : List Byte) : Byte := us.foldr (fun u acc => gmul (y ^^^ u) acc) 1

/-- `lag(X, t, y)`, the Lagrange coefficient (42 R214). -/
def lag (X : List Byte) (t : Nat) (y : Byte) : Byte :=
  gdiv (diffProduct y (X.eraseIdx t)) (diffProduct (X.getD t 0) (X.eraseIdx t))

/-- `node(i)`: the byte with value `i` (42 R215). -/
def node (i : Nat) : Byte := BitVec.ofNat 8 i

/-- The coding matrix `C(k, m)[i][j]` (42 R215); the number of rows does not enter an entry. -/
def codingCoeff (k i j : Nat) : Byte := lag ((List.range k).map node) j (node (k + i))

/-- `dev_scale(c, u)` (42 R210). -/
def devScale (c : Byte) (u : Device) : Device := u.map (gmul c)

/-- `dev_xor(u, v)` (42 R210). -/
def devXor (u v : Device) : Device := List.zipWith (· ^^^ ·) u v

/-- The XOR of a list of devices. -/
def devSum (us : List Device) : Device := us.foldr devXor (List.replicate 8 0)

/-- The XOR over `t` of `dev_scale(coeff t, v[t])` (42 R218, R220). -/
def combine (coeff : Nat → Byte) (vs : List Device) : Device :=
  devSum (vs.zipIdx.map fun v => devScale (coeff v.2) v.1)

/-- Code device `i` of a group with the data devices `v` (42 R218). -/
def codeDevice (v : List Device) (i : Nat) : Device := combine (codingCoeff v.length i) v

/-- The 9-byte record of a device: its parity byte, then its bytes (30_encoding R105, 42 R219). -/
def deviceRecord (dev : Device) : List Byte := foldByte dev :: dev

/-- The records of a group in stream order: code devices, then data devices (30_encoding R106, 42 R225). -/
def groupRecords (m : Nat) (v : List Device) : List (List Byte) :=
  ((List.range m).map fun i => deviceRecord (codeDevice v i)) ++ v.map deviceRecord

/-- A record whose parity byte differs from the parity of its device is an erasure (42 R219). -/
def isErasure (record : List Byte) : Bool := record.headD 0 != foldByte record.tail

/-- The device at the node `y` by interpolation from the devices `vs` at the nodes `X` (42 R214, R220). -/
def interpolate (X : List Byte) (vs : List Device) (y : Byte) : Device := combine (fun t => lag X t y) vs

/-- Group decode (42 R220), from the `m + kb` records in stream order: `none` for `TOO_MANY`, else the data devices. Coding
order is data devices first, so the stream's last `kb` records come before its first `m`. -/
def groupDecode (m kb : Nat) (records : List (List Byte)) : Option (List Device) :=
  let coded := records.drop m ++ records.take m
  let erased := fun e => isErasure (coded.getD e [])
  let dev := fun e => (coded.getD e []).tail
  if m < ((List.range (kb + m)).filter erased).length then none
  else
    let surv := ((List.range (kb + m)).filter fun e => !erased e).take kb
    some ((List.range kb).map fun e =>
      if erased e then interpolate (surv.map node) (surv.map dev) (node e) else dev e)

end Sys2Proof.Machine
end

