-- ==== Sys2Proof/Machine/ReedSolomon.lean ====
section
/-! DEFINITION. The Reed-Solomon stream commands ENC.RS and DEC.RS (42_reed_solomon R221 to R234), on the stream format of
30_encoding R104 to R106. -/

namespace Sys2Proof.Machine

/-- The layout of a Reed-Solomon stream (42 R222, R230): `k` data and `m` code devices a group, `W` data words, `B` groups,
`rdd` data devices in a short last group, `rl` bytes in a partial last word, `n` data bytes, thread count. -/
structure RsLayout where
  k   : Nat
  m   : Nat
  W   : Nat
  B   : Nat
  rdd : Nat
  rl  : Nat
  n   : Nat
  T   : Nat
deriving DecidableEq, Repr

/-- The layout of an encode (42 R222). -/
def rsEncLayout (s : State) : RsLayout :=
  let n := srcLen s
  let k := s.flight.ops.pa.toNat
  let W := ceilDiv n 8
  { k := k, m := s.flight.ops.pb.toNat, W := W, B := ceilDiv W k, rdd := W % k, rl := n % 8, n := n,
    T := s.flight.ops.nt.toNat }

/-- The layout a 25-byte header gives (42 R230 (6), (10), (11)). -/
def rsDecLayout (s : State) : RsLayout :=
  let k := headerField s 1
  let B := headerField s 9
  let rdd := headerField s 13
  let rl := headerField s 17
  let W := (B - (if 0 < rdd then 1 else 0)) * k + rdd
  { k := k, m := headerField s 5, W := W, B := B, rdd := rdd, rl := rl,
    n := 8 * W - (if 0 < rl then 8 - rl else 0), T := headerField s 21 }

/-- The stream size (30_encoding R106). -/
def rsStreamSize (l : RsLayout) : Nat := 25 + 9 * (l.B * l.m + l.W)

/-- The 25-byte header (30_encoding R104). -/
def rsHeader (l : RsLayout) : List Byte :=
  4 :: (be32 l.k ++ be32 l.m ++ be32 l.B ++ be32 l.rdd ++ be32 l.rl ++ be32 l.T)

/-- The number of data devices of group `b` (30_encoding R106). -/
def groupSize (l : RsLayout) (b : Nat) : Nat := if 0 < l.rdd ∧ b + 1 = l.B then l.rdd else l.k

/-- The stream offset of group `b` (42 R223). -/
def groupOffset (l : RsLayout) (b : Nat) : Nat := 25 + 9 * b * (l.m + l.k)

/-- Data word `i`, the final one padded with zero bytes (42 R223). -/
def dataWord (s : State) (l : RsLayout) (i : Nat) : Device :=
  if 0 < l.rl ∧ i + 1 = l.W then memRead s (srcAddr s + 8 * i) l.rl ++ List.replicate (8 - l.rl) 0
  else memRead s (srcAddr s + 8 * i) 8

/-- The device counts are legal (42 R221). -/
def legalDevices (k m : Nat) : Bool := decide (1 ≤ k) && decide (1 ≤ m) && decide (k + m ≤ 256)

/-- The `info` of bad device counts (42 R221, 60 R272). -/
def devicesInfo (k m : Nat) : Word64 :=
  (BitVec.ofNat 64 (k % fieldSpace) <<< 32) ||| BitVec.ofNat 64 (m % fieldSpace)

/-- Encode group `b` (42 R225): its records, code devices first. -/
def rsEncItem (s : State) (l : RsLayout) (b : Nat) : WorkItem :=
  let v := (List.range (groupSize l b)).map fun j => dataWord s l (b * l.k + j)
  { noted := none, addr := dstAddr s + groupOffset l b, out := (groupRecords l.m v).flatten }

/-- The plan of `ENC.RS`, with the checks of 42 R225. DESIGN CHOICE, unsafe: `need` counts as computed after the check of the
source window, although R225 lists R222, which holds it, before that check. Log entry 17. -/
def rsEncPlan (s : State) : Plan :=
  let l := rsEncLayout s
  let need := rsStreamSize l
  plan
    [ checkInit s,
      (!legalDevices l.k l.m, ⟨.invalidParameter, devicesInfo l.k l.m⟩),
      (!legalThreads l.T, ⟨.invalidParameter, s.flight.ops.nt⟩),
      (decide (fieldSpace ≤ l.B), ⟨.invalidParameter, BitVec.ofNat 64 l.B⟩),
      checkSource s ]
    (windowChecks s need)
    { need := need, header := rsHeader l, count := l.B, item := rsEncItem s l }

/-- The records of group `b` in stream order (42 R223, R232). -/
def groupRecordsAt (s : State) (l : RsLayout) (b : Nat) : List (List Byte) :=
  (List.range (l.m + groupSize l b)).map fun r => memRead s (srcAddr s + groupOffset l b + 9 * r) 9

/-- The output bytes of group `b` with the data devices `v`: of a partial final word only the first `rl` (42 R232). -/
def groupOutput (l : RsLayout) (b : Nat) (v : List Device) : List Byte :=
  if 0 < l.rl ∧ b + 1 = l.B then v.flatten.take (8 * groupSize l b - (8 - l.rl)) else v.flatten

/-- Decode group `b` (42 R234): `TooManyErasures`, or its data devices. -/
def rsDecItem (s : State) (l : RsLayout) (b : Nat) : WorkItem :=
  match groupDecode l.m (groupSize l b) (groupRecordsAt s l b) with
  | none => { noted := some .tooManyErasures, addr := dstAddr s + 8 * (b * l.k), out := [] }
  | some v => { noted := none, addr := dstAddr s + 8 * (b * l.k), out := groupOutput l b v }

/-- The checks (5) to (10) of 42 R230 on the header. -/
def rsHeaderChecks (s : State) (l : RsLayout) : List (Bool × Raise) :=
  [ malformed (decide (srcLen s < 25)) 3,
    (!legalDevices l.k l.m, ⟨.invalidParameter, devicesInfo l.k l.m⟩),
    (l.T == 0, ⟨.invalidParameter, 0⟩),
    malformed (decide (l.k ≤ l.rdd) || decide (8 ≤ l.rl) || (l.B == 0 && (decide (0 < l.rdd) || decide (0 < l.rl)))) 4,
    malformed (rsStreamSize l != srcLen s) 5 ]

/-- A Reed-Solomon decode from step (5) of 42 R230 on. -/
def rsDecFromHeader (before : List (Bool × Raise)) (s : State) : Plan :=
  let l := rsDecLayout s
  plan (before ++ rsHeaderChecks s l) (windowChecks s l.n)
    { need := l.n, header := [], count := l.B, item := rsDecItem s l }

/-- The plan of `DEC.RS` (42 R230). -/
def rsDecPlan (s : State) : Plan := rsDecFromHeader (decodeChecks s ++ [checkTag s 4]) s

/-- `ENC.RS` (42 R225). -/
def execEncRs (s : State) : Host.Outcome State Fault Refusal := .next (runPlan (rsEncPlan s) s)

/-- `DEC.RS` (42 R234). -/
def execDecRs (s : State) : Host.Outcome State Fault Refusal := .next (runPlan (rsDecPlan s) s)

end Sys2Proof.Machine
end

