-- ==== Sys2Proof/Machine/SystemCommands.lean ====
section
/-! DEFINITION. Dispatch and the system commands: DEC.AUTO, NOP, INIT, CLOSE, TWR, TRD (43_dispatch_system). -/

namespace Sys2Proof.Machine

/-- The plan of `DEC.AUTO` (43 R254): the tag byte chooses the codec, which continues from its step (5). -/
def autoPlan (s : State) : Plan :=
  match firstRaise (decodeChecks s) with
  | some r => .early r
  | none =>
    match (tagByte s).toNat with
    | 1 => decFromHeader .par [] s
    | 2 => decFromHeader .ham [] s
    | 3 => decFromHeader .sec [] s
    | 4 => rsDecFromHeader [] s
    | _ => .early ⟨.unknownEncoding, (tagByte s).setWidth 64⟩

/-- `DEC.AUTO` (43 R254). -/
def execDecAuto (s : State) : Host.Outcome State Fault Refusal := .next (runPlan (autoPlan s) s)

/-- `NOP` (43 R255): nothing, then completion. -/
def execNop (s : State) : Host.Outcome State Fault Refusal := .next (complete s)

/-- `INIT` (43 R256): `STATUS.INIT <- 1`; the tables are not checked. -/
def execInit (s : State) : Host.Outcome State Fault Refusal := .next (complete { s with init := true })

/-- `CLOSE` (43 R257): `STATUS.INIT <- 0`; the tables keep their contents. -/
def execClose (s : State) : Host.Outcome State Fault Refusal := .next (complete { s with init := false })

/-- `InvalidParameter` for a T-space index (43 R258, R259). -/
def checkIndex (s : State) : Bool × Raise :=
  ((tRef? s.flight.ops.pa.toNat).isNone, ⟨.invalidParameter, s.flight.ops.pa⟩)

/-- `T[x[PA]] <- x[BD]`, where the index is valid. -/
def storeEntry (s : State) : State :=
  match tRef? s.flight.ops.pa.toNat with
  | some r => { s with tables := tableWrite s.tables r s.flight.ops.bd }
  | none => s

/-- `TWR` (43 R258). -/
def execTwr (s : State) : Host.Outcome State Fault Refusal :=
  .next (checked [(s.init, ⟨.tableLocked, 0⟩), checkIndex s] storeEntry s)

/-- `x[BD] <- zext_64(T[x[PA]])`, where the index is valid: one read, with a free value for an unloaded entry. -/
def loadEntry (s : State) : State :=
  match tRef? s.flight.ops.pa.toNat with
  | some r => setBD (tableRead s.tables r (Config.freeTable s.flight.key 0 0 (tIndex r))) s
  | none => s

/-- `TRD` (43 R259): allowed whether `INIT` is 0 or 1. -/
def execTrd (s : State) : Host.Outcome State Fault Refusal := .next (checked [checkIndex s] loadEntry s)

end Sys2Proof.Machine
end

