-- ==== Sys2Proof/Machine/Dispatch.lean ====
section
/-! DEFINITION. The dispatch of a command to its meaning: the run of the command in flight, from its first check to its
completion (43_dispatch_system R260), on a state in which it has been accepted. -/

namespace Sys2Proof.Machine

def exec (i : Instr) (s : State) : Host.Outcome State Fault Refusal :=
  match i with
  | .nop => Sys2Proof.Machine.execNop s
  | .encPar => Sys2Proof.Machine.execEncPar s
  | .encHam => Sys2Proof.Machine.execEncHam s
  | .encSec => Sys2Proof.Machine.execEncSec s
  | .encRs => Sys2Proof.Machine.execEncRs s
  | .decAuto => Sys2Proof.Machine.execDecAuto s
  | .decPar => Sys2Proof.Machine.execDecPar s
  | .decHam => Sys2Proof.Machine.execDecHam s
  | .decSec => Sys2Proof.Machine.execDecSec s
  | .decRs => Sys2Proof.Machine.execDecRs s
  | .bencPar => Sys2Proof.Machine.execBencPar s
  | .bencHam => Sys2Proof.Machine.execBencHam s
  | .bencSec => Sys2Proof.Machine.execBencSec s
  | .bdecPar => Sys2Proof.Machine.execBdecPar s
  | .bdecHam => Sys2Proof.Machine.execBdecHam s
  | .bdecSec => Sys2Proof.Machine.execBdecSec s
  | .pcm => Sys2Proof.Machine.execPcm s
  | .twr => Sys2Proof.Machine.execTwr s
  | .trd => Sys2Proof.Machine.execTrd s
  | .init => Sys2Proof.Machine.execInit s
  | .close => Sys2Proof.Machine.execClose s

end Sys2Proof.Machine
end

