-- ==== Sys2Proof/Machine/Sequencer.lean ====
section
/-! DEFINITION. The engine's move: the command in flight runs to its completion (10_state R41, 43 R260), an illegal value
reports (43 R253); and the windows of the command in flight, for what other agents may do to them meanwhile (20_memory R61,
R77). -/

namespace Sys2Proof.Machine

/-- An accepted value that is no command (43 R253, 30_encoding R96). -/
def illegalCommand (s : State) : State :=
  raise ⟨.illegalCommand, (s.flight.value.setWidth 32).setWidth 64⟩ s

/-- One move of the engine: it runs the command in flight to completion; with none in flight it is idle and keeps all state
(60 R306). -/
def advance (s : State) : Host.Outcome State Fault Refusal :=
  if s.busy then
    match decode s.flight.value with
    | .ok i => exec i s
    | .error _ => .next (illegalCommand s)
  else .next s

/-- The plan of the nine stream commands (20_memory R61); no other command accesses system memory. -/
def streamPlan (i : Instr) (s : State) : Option Plan :=
  match i with
  | .encPar => some (encPlan .par s)
  | .encHam => some (encPlan .ham s)
  | .encSec => some (encPlan .sec s)
  | .encRs => some (rsEncPlan s)
  | .decAuto => some (autoPlan s)
  | .decPar => some (decPlan .par s)
  | .decHam => some (decPlan .ham s)
  | .decSec => some (decPlan .sec s)
  | .decRs => some (rsDecPlan s)
  | .nop | .bencPar | .bencHam | .bencSec | .bdecPar | .bdecHam | .bdecSec | .pcm | .twr | .trd | .init | .close => none

/-- The plan of the stream command in flight, where there is one. DESIGN CHOICE, unsafe: the windows are barred while `BUSY = 1`
(20_memory R77), not until the host has observed `DONE = 1` (70 R324). Log entry 19. -/
def flightPlan (s : State) : Option Plan :=
  if s.busy then
    match decode s.flight.value with
    | .ok i => streamPlan i s
    | .error _ => none
  else none

/-- An address in the source window of the command in flight (20_memory R61). -/
def inFlightSource (s : State) (a : Nat) : Bool := (flightPlan s).isSome && inWindow (srcAddr s) (srcLen s) a

/-- The size of the destination window of the command in flight; empty when it will raise before it has computed its output
size (20_memory R61, R62). -/
def flightNeed (s : State) : Nat :=
  match flightPlan s with
  | some p => destinationSize p s
  | none => 0

/-- An address in the destination window of the command in flight (20_memory R61). -/
def inFlightDestination (s : State) (a : Nat) : Bool := inWindow (dstAddr s) (flightNeed s) a

end Sys2Proof.Machine
end

