-- ==== Sys2Proof/Machine/HostPort.lean ====
section
/-! DEFINITION. What the host and other agents do to the engine: reads and writes of the register slots (10_state R21 to R34,
R39; 70 R321, R323), stores and loads of system memory with their races (20_memory R77), reset (70 R310, R311, R313). -/

namespace Sys2Proof.Machine

/-- `x[n] <- v` for an operand slot (10_state R22, R25); `x[8]` keeps bits 7:0. -/
def setOperand (n : Nat) (v : Word64) (x : Operands) : Operands :=
  match n with
  | 0 => { x with src := v }
  | 1 => { x with dst := v }
  | 2 => { x with len := v }
  | 3 => { x with cap := v }
  | 4 => { x with pa := v }
  | 5 => { x with pb := v }
  | 6 => { x with nt := v }
  | 7 => { x with bd := v }
  | 8 => { x with bp := v.setWidth 8 }
  | _ => x

/-- A write to an operand slot: dropped and flagged `WBUSY` while `BUSY = 1` (10_state R23, 70 R321). -/
def writeOperand (n : Nat) (v : Word64) (s : State) : State :=
  if s.busy then { s with hstat := s.hstat ||| 2 } else { s with x := setOperand n v s.x }

/-- A write to `c[CMD]`: acceptance, or dropped and flagged `CMDOVR` while `BUSY = 1` (43 R250). -/
def writeCmd (v : Word64) (s : State) : State :=
  if s.busy then { s with hstat := s.hstat ||| 1 } else accept v s

/-- A write to `c[STATUS]`: written bit 2 clears `DONE`; ignored while `BUSY = 1` (10_state R28, 70 R321). -/
def writeStatus (v : Word64) (s : State) : State :=
  if !s.busy && v.getLsbD 2 then { s with done := false } else s

/-- A host write of `v` to a slot; reserved and read-only slots ignore it (10_state R24). -/
def hostWrite (slot : Nat) (v : Word64) (s : State) : State :=
  if slot ≤ 8 then writeOperand slot v s
  else if slot = 16 then writeCmd v s
  else if slot = 17 then writeStatus v s
  else if slot = 23 then { s with ie := v.setWidth 2 }
  else if slot = 24 then { s with hstat := s.hstat &&& ~~~(v.setWidth 2) }
  else s

/-- A result register read by the host: unspecified while `BUSY = 1` (70 R323). -/
def resultValue (s : State) (free v : Word64) : Word64 := if s.busy then free else v

/-- `c[STATUS]` read by the host: `ERR` and `CORR` are unspecified while `BUSY = 1` (70 R323). -/
def statusValue (s : State) (free : Word64) : Word64 :=
  if s.busy then statusWith s (free.getLsbD 4) (free.getLsbD 5) else s.status

/-- What a host read of a slot gives, with the free value of that read (10_state R20 to R42, 70 R323). -/
def hostReadValue (s : State) (free : Word64) (slot : Nat) : Word64 :=
  match slot with
  | 0 => s.x.src
  | 1 => s.x.dst
  | 2 => s.x.len
  | 3 => s.x.cap
  | 4 => s.x.pa
  | 5 => s.x.pb
  | 6 => s.x.nt
  | 7 => s.x.bd
  | 8 => s.x.bp.setWidth 64
  | 16 => s.cmd.setWidth 64
  | 17 => statusValue s free
  | 18 => resultValue s free (s.ecause.setWidth 64)
  | 19 => resultValue s free s.olen
  | 20 => resultValue s free s.corrcnt
  | 21 => resultValue s free s.einfo
  | 22 => resultValue s free s.cpos
  | 23 => s.ie.setWidth 64
  | 24 => s.hstat.setWidth 64
  | 25 => idWord s.platform
  | _ => 0

/-- A draw for a host read is used up while a command is in flight (log entry 9). -/
def spendDraw (s : State) : State := if s.busy then { s with draws := s.draws + 1 } else s

/-- `RD`: the value read joins the list of readings (30_encoding R109). -/
def hostRead (slot : Nat) (s : State) : State :=
  { spendDraw s with reads := s.reads ++ [.reg slot (hostReadValue s (Config.freeReg s.draws) slot)] }

/-- The slot at a bus address (10_state R21): only naturally aligned 64-bit accesses inside the window have a meaning. -/
def busSlot (p : Platform) (addr width : Nat) : Except Refusal Nat :=
  if addr < p.base ∨ p.base + 256 ≤ addr then .error (.outsideRegisterWindow addr)
  else if width ≠ 8 ∨ addr % 8 ≠ 0 then .error (.registerAccessShape addr width)
  else .ok ((addr - p.base) / 8)

/-- A bus access to a register: refused, or `k` on the slot. -/
def onSlot (addr width : Nat) (k : Nat → State → State) (s : State) : Host.Outcome State Fault Refusal :=
  match busSlot s.platform addr width with
  | .ok slot => .next (k slot s)
  | .error r => .refused r

/-- A race with the command in flight on these bytes: each becomes unspecified (20_memory R77), and so do the results of the
command when it ends (70 R324). Log entry 8. -/
def markRaced (as : List Nat) (s : State) : State :=
  if as.isEmpty then s else { s with mem := s.mem.blurAll as, flight := { s.flight with raced := true } }

/-- A store of one byte by another agent: a race on a byte of either window of the command in flight (20_memory R77), else a
plain store. -/
def pokeByte (s : State) (a : Nat) (b : Byte) : State :=
  if inFlightSource s a || inFlightDestination s a then markRaced [a] s else { s with mem := s.mem.write a b }

/-- The bytes of a store, lowest address first. -/
def pokeBytes : State → Nat → List Byte → State
  | s, _, [] => s
  | s, a, b :: bs => pokeBytes (pokeByte s a b) (a + 1) bs

/-- `POKE` (30_encoding R109); an address outside the space faults (log entry 14), bytes of the register window are refused
(10_state R21; log entry 18). -/
def hostPoke (addr : Nat) (bytes : List Byte) (s : State) : Host.Outcome State Fault Refusal :=
  if addressSpace < addr + bytes.length then .fault (.addressOutsideSpace addr)
  else if meetsRegisters s.platform addr bytes.length then .refused (.registerAccessShape addr bytes.length)
  else .next (pokeBytes s addr bytes)

/-- The byte another agent loads: a free value in the destination window of a command in flight (20_memory R77). -/
def peekValue (s : State) (a : Nat) : Byte :=
  if inFlightDestination s a then Config.freeByte s.draws a else s.mem.read s.draws a

/-- A load of system memory by another agent: a race on the bytes of the destination window of the command in flight
(20_memory R77). -/
def hostPeek (addr n : Nat) (s : State) : Host.Outcome State Fault Refusal :=
  if addressSpace < addr + n then .fault (.addressOutsideSpace addr)
  else if meetsRegisters s.platform addr n then .refused (.registerAccessShape addr n)
  else
    let at_ := (List.range n).map (addr + ·)
    .next { markRaced (at_.filter (inFlightDestination s)) s with
      reads := s.reads ++ at_.map fun a => .mem a (peekValue s a)
      draws := s.draws + 1 }

/-- Reset (70 R310, R313): every register at its reset value, the table store unspecified, the destination window of a command
in flight unspecified (R311), the rest of system memory untouched. -/
def hostReset (s : State) : State :=
  { State.reset with
    mem      := s.mem.blurRange (dstAddr s) (flightNeed s)
    platform := s.platform
    inputs   := s.inputs
    reads    := s.reads
    draws    := s.draws }

/-- One event, on the state in which `rest` is what follows it. A `WAIT` polls: it ends when `DONE = 1`, else the engine moves
and the poll is repeated (30_encoding R109; log entry 1). -/
def hostStep (e : HostEvent) (rest : List HostEvent) (s : State) : Host.Outcome State Fault Refusal :=
  let t := { s with inputs := rest }
  match e with
  | .wr slot v => .next (hostWrite slot v t)
  | .rd slot => .next (hostRead slot t)
  | .busWr addr width v => onSlot addr width (fun slot => hostWrite slot v) t
  | .busRd addr width => onSlot addr width hostRead t
  | .poke addr bytes => hostPoke addr bytes t
  | .peek addr n => hostPeek addr n t
  | .wait => if s.done then .next t else advance s
  | .reset => .next (hostReset t)
  | .tick => advance t

end Sys2Proof.Machine
end

