-- ==== Sys2Proof/Machine/Step.lean ====
section
/-! DEFINITION. One step: the next event at the engine's boundary, or, when the host does nothing, the engine's own move. -/

namespace Sys2Proof.Machine

/-- One step of the machine. Log entry 1. -/
def step (s : State) : Host.Outcome State Fault Refusal :=
  match s.inputs with
  | [] => advance s
  | e :: rest => hostStep e rest s

/-- `s` with the value `w` accepted as the command in flight and the engine to move next: a command is not fetched from
memory, the host writes it to `c[CMD]` (10_state R40, 43 R250). Log entry 3. -/
def State.withFetchWord (s : State) (nbits w : Nat) : State :=
  let t := accept (BitVec.ofNat 64 (w % 2 ^ nbits)) s
  { t with inputs := .tick :: t.inputs }

end Sys2Proof.Machine
end

