-- ==== Sys2Proof/Machine/Lanes.lean ====
section
/-! DEFINITION. The logical work ranges of a stream command (60_exceptions R300). No result depends on them (R301), and the
model runs the items in index order (log entry 2). -/

namespace Sys2Proof.Machine

/-- The items of range `t` of `T` ranges over `W` items: `floor(W/T)` each, the last range takes the left-over. -/
def workRange (W T t : Nat) : List Nat :=
  if t + 1 = T then (List.range (W - t * (W / T))).map (t * (W / T) + ·)
  else (List.range (W / T)).map (t * (W / T) + ·)

/-- All ranges, in order. -/
def workRanges (W T : Nat) : List (List Nat) := (List.range T).map (workRange W T)

end Sys2Proof.Machine
end

