-- ==== Sys2Proof/Machine/Script.lean ====
section
/-! DEFINITION. The host-script notation (30_encoding R109, R110), the default tables (10_state R38), and the end of a run
(70 R332). -/

namespace Sys2Proof.Machine

/-- The slot names of 30_encoding R109. -/
inductive Reg where
  | src | dst | len | cap | pa | pb | nt | bd | bp | cmd | status | ecause | olen | corrcnt | einfo | cpos | ie | hstat | id
deriving DecidableEq, Repr

/-- The slot of a register name (10_state R20, R22, R27 to R42). -/
def Reg.slot : Reg → Fin 32
  | .src => 0
  | .dst => 1
  | .len => 2
  | .cap => 3
  | .pa => 4
  | .pb => 5
  | .nt => 6
  | .bd => 7
  | .bp => 8
  | .cmd => 16
  | .status => 17
  | .ecause => 18
  | .olen => 19
  | .corrcnt => 20
  | .einfo => 21
  | .cpos => 22
  | .ie => 23
  | .hstat => 24
  | .id => 25

/-- `WR <reg>, <value>` (30_encoding R109). -/
def scriptWr (r : Reg) (v : Word64) : HostEvent := .wr r.slot v

/-- `RD <reg>` (30_encoding R109). -/
def scriptRd (r : Reg) : HostEvent := .rd r.slot

/-- `CMD <mnemonic>` (30_encoding R109). -/
def scriptCmd (i : Instr) : HostEvent := scriptWr .cmd ((encode i).setWidth 64)

/-- `RUN <mnemonic>` (30_encoding R110). -/
def scriptRun (i : Instr) : List HostEvent := [scriptCmd i, .wait]

/-- `TLOAD <idx>, <value>` (30_encoding R110). -/
def scriptTload (idx : Nat) (v : Word64) : List HostEvent :=
  [scriptWr .pa (BitVec.ofNat 64 idx), scriptWr .bd v] ++ scriptRun .twr

/-- `ACK` (30_encoding R110). -/
def scriptAck : HostEvent := scriptWr .status 4

/-- `H1[0..3]` of the default tables (10_state R38). -/
def defaultH1 : List Byte := [0x5B, 0x6D, 0x8E, 0xF0]

/-- `H8[0..6]` of the default tables (10_state R38). -/
def defaultH8 : List Word64 :=
  [0xAB55555556AAAD5B, 0xCD9999999B33366D, 0xF1E1E1E1E3C3C78E, 0x01FE01FE03FC07F0, 0x01FFFE0003FFF800, 0x01FFFFFFFC000000,
   0xFE00000000000000]

/-- The positive integers below 72 that are no power of two, in order: `npw(0), npw(1), ...` (10_state R38). -/
def nonPowers : List Nat := (List.range 72).filter fun p => p != 0 && p &&& (p - 1) != 0

/-- The entries of a default syndrome table: the eight check bits, then the columns of `n` data bits (10_state R38). -/
def defaultSyndromes (n : Nat) : List Byte :=
  [0x01, 0x02, 0x04, 0x08, 0x10, 0x20, 0x40, 0x80] ++ (nonPowers.take n).map (BitVec.ofNat 8)

/-- The default table contents as T-space index and word, in the order of `LOADDEFAULT` (30_encoding R110). -/
def defaultWords : List (Nat × Word64) :=
  defaultH1.zipIdx.map (fun e => (e.2, e.1.setWidth 64)) ++ defaultH8.zipIdx.map (fun e => (8 + e.2, e.1))
    ++ (defaultSyndromes 8).zipIdx.map (fun e => (16 + e.2, e.1.setWidth 64))
    ++ (defaultSyndromes 64).zipIdx.map (fun e => (32 + e.2, e.1.setWidth 64))

/-- Write words into a table store, as `TWR` does; invalid indices write nothing. -/
def loadWords (t : Tables) (ws : List (Nat × Word64)) : Tables :=
  ws.foldl (fun t w => match tRef? w.1 with
    | some r => tableWrite t r w.2
    | none => t) t

/-- The default tables (10_state R38). -/
def defaultTables : Tables := loadWords Tables.unloaded defaultWords

/-- `LOADDEFAULT` (30_encoding R110). -/
def scriptLoadDefault : List HostEvent := defaultWords.flatMap fun w => scriptTload w.1 w.2

/-- `BOOT` (30_encoding R110, 70 R312). -/
def scriptBoot : List HostEvent := scriptLoadDefault ++ scriptRun .init

/-- The end of a run (70 R332): a run that ends with a command in flight has no defined end state. -/
def endOfRun (s : State) : Host.Outcome State Fault Refusal :=
  if s.busy then .refused .runEndsInFlight else .next s

/-- A run of a host script from a state, in at most `fuel` steps. It ends when its last line has executed, for a `WAIT` when
`DONE = 1` is observed (70 R332); `none` where lines are left when the steps are used up, since such a run has not ended. -/
def runScript (fuel : Nat) (s : State) : Option (Host.Outcome State Fault Refusal) :=
  match s.inputs with
  | [] => some (endOfRun s)
  | _ :: _ =>
    match fuel with
    | 0 => none
    | fuel + 1 =>
      match step s with
      | .next t => runScript fuel t
      | .fault f => some (.fault f)
      | .refused r => some (.refused r)

end Sys2Proof.Machine
end

