-- ==== Sys2Proof/Safety.lean ====
section
/-! DEFINITION. The terms claims use: a command in flight, how a command ends, windows a stream command may use, well-formed
tables (10_state R37), a host that keeps to the protocol (70 R320), and the invariant of the machine. -/

namespace Sys2Proof.Machine

/-- A command has been accepted and nothing has been noted yet: the state in which the engine runs a command (43 R250,
R251). -/
abbrev Accepted (s : State) : Prop :=
  s.busy = true ∧ s.done = false ∧ s.ok = false ∧ s.ecause = 0 ∧ s.olen = 0 ∧ s.corrcnt = 0 ∧ s.einfo = 0 ∧ s.cpos = 0
    ∧ s.flight.ops = s.x ∧ s.cmd = s.flight.value.setWidth 32

/-- No other agent has raced with the command in flight on its windows (70 R324). -/
abbrev Undisturbed (s : State) : Prop := s.flight.raced = false

/-- The completion event of a command without error (43 R260). -/
def succeeded (s : State) : State := { s with busy := false, done := true, ok := true }

/-- The end of a command by a raise (60 R290) of the causes given, from a state with no cause noted. -/
def failedWith (causes : BitVec 15) (info : Word64) (s : State) : State :=
  { s with ecause := causes, einfo := info, olen := 0, busy := false, done := true, ok := false }

/-- One byte of system memory as the command in flight reads it (20_memory R64). -/
def srcByte (s : State) (a : Nat) : Byte := s.mem.read s.flight.key a

/-- The source window lies in the address space and is readable (20_memory R63, R70). -/
abbrev SourceGood (s : State) : Prop :=
  srcAddr s + srcLen s ≤ addressSpace ∧ memReadable s.platform (srcAddr s) (srcLen s) = true

/-- A destination window of `need` bytes fits its capacity and the address space, is writable, and shares no byte with the
source window (20_memory R63, R70 to R72). -/
abbrev DestinationGood (s : State) (need : Nat) : Prop :=
  need ≤ s.flight.ops.cap.toNat ∧ dstAddr s + need ≤ addressSpace ∧ memWritable s.platform (dstAddr s) need = true
    ∧ ¬ (0 < srcLen s ∧ 0 < need ∧ srcAddr s < dstAddr s + need ∧ dstAddr s < srcAddr s + srcLen s)

/-- The command in flight may use both its windows for an output of `need` bytes. -/
abbrev WindowsGood (s : State) (need : Nat) : Prop := SourceGood s ∧ DestinationGood s need

/-- Every byte outside `[a, a+n)` reads in `m'` as in `m`. -/
def SameOutside (m m' : Memory) (a n : Nat) : Prop := ∀ x, x < a ∨ a + n ≤ x → m'.look x = m.look x

/-- `m'` holds the bytes `bs` at `a`. -/
def HoldsAt (m' : Memory) (a : Nat) (bs : List Byte) : Prop := ∀ j, j < bs.length → m'.look (a + j) = bs[j]?

/-- Every byte of `[a, a+n)` is unspecified in `m'`. -/
def UnspecifiedAt (m' : Memory) (a n : Nat) : Prop := ∀ x, a ≤ x → x < a + n → m'.look x = none

/-- An access of another agent to `n` bytes of plain system memory: inside the address space, no byte of the register window
(20_memory R60, 10_state R21). -/
def PlainAccess (s : State) (a n : Nat) : Prop :=
  a + n ≤ 2 ^ 64 ∧ ∀ x, a ≤ x → x < a + n → ¬ (s.platform.base ≤ x ∧ x < s.platform.base + 256)

/-- An entry has been written since reset. -/
def entryLoaded {n : Nat} : Entry n → Bool
  | .loaded _ => true
  | .unloaded => false

/-- Every entry of the table store has been written (70 R312). -/
def allLoaded (t : Tables) : Bool :=
  t.h1.toList.all entryLoaded && t.h8.toList.all entryLoaded && t.s1.toList.all entryLoaded && t.s8.toList.all entryLoaded

/-- `col_w(j)`: the column of data bit `j`, row `i` in bit `i` (10_state R37). -/
def column (rows : List Word64) (j : Nat) : Byte := bitsToByte (rows.map fun h => h.getLsbD j)

/-- Clauses (a) to (d) of `TablesOK` for one width (10_state R37): at least two one bits in each column, distinct columns, and
the syndrome table that belongs to the columns. -/
abbrev CodeOK (w : Width) (rows : List Word64) (syn : List Byte) : Prop :=
  rows.length = w.rows
    ∧ (∀ j < 8 * w.bytes, 2 ≤ ((List.range 8).filter (column rows j).getLsbD).length)
    ∧ ((List.range (8 * w.bytes)).map (column rows)).Nodup
    ∧ syn = (List.range 8).map (fun p => 1#8 <<< p) ++ (List.range (8 * w.bytes)).map (column rows)

/-- `TablesOK` (10_state R37): every entry loaded, and both codes well formed. `H1` has no bit above bit 7 by its width. -/
abbrev TablesOK (t : Tables) : Prop :=
  allLoaded t = true ∧ CodeOK .one (readRows t .one 0 0 0) (readSyndromes t .one 0 0)
    ∧ CodeOK .eight (readRows t .eight 0 0 0) (readSyndromes t .eight 0 0)

/-- The premise of the guarantees: one decode's readings of well-formed tables, the two readings of the rows equal. -/
abbrev GoodReads (w : Width) (t : CodeReads) : Prop := t.r = w.rows ∧ t.rowsAgain = t.rows ∧ CodeOK w t.rows t.syn

/-- The stream commands (20_memory R61). -/
def isStream (i : Instr) : Bool :=
  match i with
  | .encPar | .encHam | .encSec | .encRs | .decAuto | .decPar | .decHam | .decSec | .decRs => true
  | .nop | .bencPar | .bencHam | .bencSec | .bdecPar | .bdecHam | .bdecSec | .pcm | .twr | .trd | .init | .close => false

/-- The size of the destination window of a command: 0 where it raises before it has computed its output size or accesses no
memory (20_memory R61, R62). -/
def outputNeed (i : Instr) (s : State) : Nat :=
  match streamPlan i s with
  | some p => destinationSize p s
  | none => 0

/-- A command raises at a check that precedes the computation of its output size: nothing but the result registers changes,
and its destination window is empty (60 R290, 20_memory R62). -/
def RaisesEarly (i : Instr) (s : State) (causes : BitVec 15) (info : Word64) : Prop :=
  exec i s = .next (failedWith causes info s) ∧ outputNeed i s = 0

/-- A command raises at a check on its windows: nothing but the result registers changes, and its destination window is that of
the `need` bytes it has computed, as far as the address space goes (60 R290, 20_memory R61, R62). -/
def RaisesLate (i : Instr) (s : State) (need : Nat) (causes : BitVec 15) (info : Word64) : Prop :=
  exec i s = .next (failedWith causes info s) ∧ outputNeed i s = min need (2 ^ 64 - dstAddr s)

/-- Writes to `c[CMD]` or to an operand register, which a host owes not to make while `BUSY = 1` (70 R320). -/
def protectedSlot (slot : Nat) : Bool := decide (slot ≤ 8) || slot == 16

/-- An event that a host keeping to 70 R320 may cause in a state. -/
def politeEvent (s : State) (e : HostEvent) : Bool :=
  match e with
  | .wr slot _ => !s.busy || !protectedSlot slot.val
  | .busWr addr width _ =>
    match busSlot s.platform addr width with
    | .ok slot => !s.busy || !protectedSlot slot
    | .error _ => true
  | .rd _ | .busRd _ _ | .poke _ _ | .peek _ _ | .wait | .reset | .tick => true

/-- What every reachable state satisfies: memory in canonical form and inside the address space; a command in flight leaves
the result registers cleared and the operand registers as latched (43 R250, R251); `BUSY` and `DONE` never both 1 and `OK`
only without an error (10_state R28); an error comes with `OLEN = 0` (10_state R30); the reserved causes never set
(60 R271). -/
abbrev Inv (s : State) : Prop :=
  s.mem.wf ∧ s.mem.inSpace ∧ (s.busy = true → Accepted s) ∧ (s.ok = true → hasError s.ecause = false)
    ∧ ¬ (s.busy = true ∧ s.done = true) ∧ (hasError s.ecause = true → s.olen = 0)
    ∧ s.ecause.getLsbD 1 = false ∧ s.ecause.getLsbD 8 = false

/-! ## The shapes of claims -/

/-- The XOR of a list of bytes. -/
def xorBytes (bs : List Byte) : Byte := bs.foldr (· ^^^ ·) 0

/-- The raises of a block-level command whose legal block sizes are given (40 R143). -/
def BlockRaises (i : Instr) (legal : Nat → Prop) : Prop :=
  ∀ s : State, Accepted s →
    (s.init = false → exec i s = .next (failedWith 0x0001 0 s))
      ∧ (s.init = true → ¬ legal s.flight.ops.pa.toNat → exec i s = .next (failedWith 0x0004 s.flight.ops.pa s))

/-- Block sizes of the Hamming and SECDED codes. -/
abbrev oneOrEight (n : Nat) : Prop := n = 1 ∨ n = 8

/-- Block sizes of the parity block commands. -/
abbrev oneToEight (n : Nat) : Prop := 1 ≤ n ∧ n ≤ 8

/-- Bit `i` of the product of the matrix rows and `d`: the parity of `d` masked by row `i` (40 R131). -/
def productBit (rows : List Word64) (d : Word64) (i : Nat) : Bool := parity (d &&& rows.getD i 0)

/-- No position of a syndrome table holds `s` (40 R136). -/
def NoHit (syn : List Byte) (s : Byte) : Prop := ∀ p : Nat, syn[p]? ≠ some s

/-- `p` is the smallest position of a syndrome table that holds `s` (40 R136). -/
def SmallestHit (syn : List Byte) (s : Byte) (p : Nat) : Prop := syn[p]? = some s ∧ ∀ q < p, syn[q]? ≠ some s

/-- The result of a block decode that takes position `p` for the error: codeword bit `p` flipped where the check byte of the
flipped data is then the flipped check byte, else a failure that leaves the pair as received (40 R135, R137 to R139). -/
def FlipsAndVerifies (enc : Word64 → Byte) (chk : Byte) (d : Word64) (p : Nat) (r : BlockResult) : Prop :=
  let chk' := if p < 8 then chk ^^^ (1#8 <<< p) else chk
  let d' := if p < 8 then d else d ^^^ (1#64 <<< (p - 8))
  (enc d' = chk' → r = ⟨.corr, chk', d', some p⟩) ∧ (enc d' ≠ chk' → r = ⟨.failInt, chk, d, none⟩)

/-- The product over the nodes `X[u]`, `u` other than `t`, of `y ^ X[u]` (42 R214). -/
def nodeProduct (X : List Byte) (t : Nat) (y : Byte) : Byte :=
  ((List.range X.length).filter fun u => u != t).foldr (fun u acc => gmul (y ^^^ X.getD u 0) acc) 1

/-- The record with coding-order index `e` of a group: data devices first, then code devices (42 R220). -/
def codingRecord (m kb : Nat) (records : List (List Byte)) (e : Nat) : List Byte :=
  records.getD (if e < kb then m + e else e - kb) []

/-- The `kb` smallest coding-order indices of a group whose records are no erasures, ascending (42 R220). -/
def survivors (m kb : Nat) (records : List (List Byte)) : List Nat :=
  ((List.range (kb + m)).filter fun e => !isErasure (codingRecord m kb records e)).take kb

/-- The linear encode command of a codec. -/
def encodeOf : Codec → Instr
  | .par => .encPar
  | .ham => .encHam
  | .sec => .encSec

/-- The linear decode command of a codec. -/
def decodeOf : Codec → Instr
  | .par => .decPar
  | .ham => .decHam
  | .sec => .decSec

/-- What `ENC.HAM` and `ENC.SEC` do (41 R178, R179) with the tag byte and check byte given: the header, a codeword for each
full block, a 1-byte codeword for each remaining byte, every other byte of memory as before. -/
def EncodesCodewords (i : Instr) (tag : Byte) (chk : Width → List Word64 → Word64 → Byte) : Prop :=
  ∀ (s : State) (w : Width), Accepted s → Undisturbed s → s.init = true → s.flight.ops.pa.toNat = w.bytes →
    let n := srcLen s
    let bs := w.bytes
    let T := s.flight.ops.nt.toNat
    let B := (n + bs - 1) / bs
    let F := n / bs
    let rem := n % bs
    let need := 17 + F * (1 + bs) + 2 * rem
    1 ≤ T → T < 2 ^ 32 → B < 2 ^ 32 → WindowsGood s need →
    ∃ m : Memory,
      exec i s = .next (succeeded { s with mem := m, olen := BitVec.ofNat 64 need })
        ∧ SameOutside s.mem m (dstAddr s) need
        ∧ HoldsAt m (dstAddr s) ([tag] ++ be32 B ++ be32 bs ++ be32 rem ++ be32 T)
        ∧ (∀ q < F,
            let blk := memRead s (srcAddr s + q * bs) bs
            HoldsAt m (dstAddr s + 17 + q * (1 + bs))
              (chk w (readRows s.tables w s.flight.key q 0) (BitVec.ofNat 64 (le blk)) :: blk))
        ∧ ∀ j < rem,
            let blk := memRead s (srcAddr s + F * bs + j) 1
            HoldsAt m (dstAddr s + 17 + F * (1 + bs) + 2 * j)
              (chk .one (readRows s.tables .one s.flight.key (F + j) 0) (BitVec.ofNat 64 (le blk)) :: blk)

/-- What `DEC.HAM` and `DEC.SEC`, and `DEC.AUTO` on their streams, do (41 R187, R188) with the tag byte and block decoder
given, on a stream whose header and windows pass the checks of 41 R181. -/
def DecodesCodewords (c : Codec) (dec : CodeReads → Byte → Word64 → BlockResult) : Prop :=
  ∀ (s : State) (i : Instr) (w : Width), i = decodeOf c ∨ i = .decAuto →
    Accepted s → Undisturbed s → s.init = true → headerField s 5 = w.bytes →
    let B := headerField s 1
    let bs := w.bytes
    let rem := headerField s 9
    let F := B - (if 0 < rem then 1 else 0)
    let n := F * bs + rem
    17 ≤ srcLen s → tagByte s = c.tag → headerField s 13 ≠ 0 → rem < bs → (0 < rem → B ≠ 0) →
    17 + F * (1 + bs) + 2 * rem = srcLen s → WindowsGood s n →
    let iw := fun q => if q < F then w else Width.one
    let cw := fun q => srcAddr s + (if q < F then 17 + q * (1 + bs) else 17 + F * (1 + bs) + 2 * (q - F))
    let out := fun q => dstAddr s + (if q < F then q * bs else F * bs + (q - F))
    let res := fun q => dec (codeReads s.tables (iw q) s.flight.key q) (srcByte s (cw q))
      (BitVec.ofNat 64 (le (memRead s (cw q + 1) (iw q).bytes)))
    let has := fun v => (List.range (F + rem)).any fun q => (res q).verdict == v
    let failed := fun q => (res q).verdict = .failDbl ∨ (res q).verdict = .failInt
    let corrected := ((List.range (F + rem)).filter fun q => (res q).verdict == .corr).length
    let causes : BitVec 15 := (if has .corr then 0x08 else 0) ||| (if has .failDbl then 0x10 else 0)
      ||| (if has .failInt then 0x40 else 0)
    ((∀ q < F + rem, ¬ failed q) →
        ∃ m : Memory,
          exec i s = .next (succeeded { s with
              mem := m, olen := BitVec.ofNat 64 n, corrcnt := BitVec.ofNat 64 corrected, ecause := causes })
            ∧ SameOutside s.mem m (dstAddr s) n
            ∧ ∀ q < F + rem, HoldsAt m (out q) (bytesLE (iw q).bytes (res q).d.toNat))
      ∧ ∀ q < F + rem, failed q → (∀ p < q, ¬ failed p) →
          ∃ m : Memory,
            exec i s = .next (failedWith causes (BitVec.ofNat 64 q)
                { s with mem := m, corrcnt := BitVec.ofNat 64 corrected })
              ∧ SameOutside s.mem m (dstAddr s) n ∧ UnspecifiedAt m (dstAddr s) n

/-- A decode command `i` on the stream that an encode left in memory, run later in the state `s'`: it delivers the `n` bytes
that the encode had read from `src` (41 R189). -/
def DeliversBack (i : Instr) (s s' : State) : Prop :=
  ∃ t' : State,
    exec i s' = .next t' ∧ t'.ok = true ∧ t'.ecause = 0 ∧ t'.corrcnt = 0 ∧ t'.olen = s.flight.ops.len
      ∧ HoldsAt t'.mem (dstAddr s') (memRead s (srcAddr s) (srcLen s))

/-- The state `s'` has accepted a decode of the stream that the encode accepted in `s` and ended in `t` left in memory, with a
destination window good for the data. -/
def ReadsTheStreamOf (s t s' : State) : Prop :=
  Accepted s' ∧ Undisturbed s' ∧ s'.init = true ∧ s'.mem = t.mem ∧ s'.flight.ops.src = s.flight.ops.dst
    ∧ s'.flight.ops.len = t.olen ∧ WindowsGood s' (srcLen s)

/-- An event after which the result registers may differ: a write to `c[CMD]`, or reset (60 R294). -/
def startsOrResets (p : Platform) (e : HostEvent) : Bool :=
  match e with
  | .wr slot _ => slot.val == 16
  | .busWr addr width _ =>
    match busSlot p addr width with
    | .ok slot => slot == 16
    | .error _ => false
  | .reset => true
  | .rd _ | .busRd _ _ | .poke _ _ | .peek _ _ | .wait | .tick => false

end Sys2Proof.Machine
end

