-- ==== Sys2Proof/Certificates/Slice0/Obligations.lean ====
section
/-! DEFINITION. The statements for the provers. Each docstring names the rules of spec/ it formalises; the vocabulary is in
Sys2Proof/Safety.lean. -/

open Sys2Proof Sys2Proof.Machine

/-! ## Encoding -/

/-- The 21 words of the opcode map, as printed, and one value for each reason to reject (30_encoding R92, R93). -/
def Obligations.PrintedWordsDecodeAsMapped : Prop :=
  decode 0x00 = .ok .nop ∧ decode 0x11 = .ok .encPar ∧ decode 0x12 = .ok .encHam ∧ decode 0x13 = .ok .encSec
    ∧ decode 0x14 = .ok .encRs ∧ decode 0x20 = .ok .decAuto ∧ decode 0x21 = .ok .decPar ∧ decode 0x22 = .ok .decHam
    ∧ decode 0x23 = .ok .decSec ∧ decode 0x24 = .ok .decRs ∧ decode 0x31 = .ok .bencPar ∧ decode 0x32 = .ok .bencHam
    ∧ decode 0x33 = .ok .bencSec ∧ decode 0x41 = .ok .bdecPar ∧ decode 0x42 = .ok .bdecHam ∧ decode 0x43 = .ok .bdecSec
    ∧ decode 0x50 = .ok .pcm ∧ decode 0x60 = .ok .twr ∧ decode 0x70 = .ok .trd ∧ decode 0x80 = .ok .init
    ∧ decode 0x90 = .ok .close
    ∧ decode 0x100000011 = .error .upperHalf ∧ decode 0x100 = .error .zeroField ∧ decode 0x15 = .error .unassigned

/-- Every 64-bit value is a command exactly when no clause of the list of illegal values applies (30_encoding R93, R96). -/
def Obligations.DecodeAcceptsExactlyLegalValues : Prop :=
  ∀ v : Word64, (∃ i, decode v = .ok i) ↔ illegalValue v = false

/-- Decoder and encoder agree on all 2^64 values: the only value that decodes to a command is its zero-extended word
(30_encoding R90, R92, R93). -/
def Obligations.DecodeInvertsEncode : Prop :=
  ∀ (v : Word64) (i : Instr), decode v = .ok i ↔ v = (encode i).setWidth 64

/-! ## The step -/

/-- A step of the engine runs the decoded command: with no event left, with a `tick` (which is used up), and while a `WAIT`
polls (which stays). The list of events is the model's (log entry 1). -/
def Obligations.StepRunsTheCommandInFlight : Prop :=
  ∀ (s : State) (i : Instr), s.busy = true → decode s.flight.value = .ok i →
    (s.inputs = [] → step s = exec i s)
      ∧ (∀ rest, s.inputs = .tick :: rest → step s = exec i { s with inputs := rest })
      ∧ ∀ rest, s.inputs = .wait :: rest → s.done = false → step s = exec i s

/-- An accepted illegal value reports and does nothing else, whether or not INIT = 1 (43 R253): with no event left, with a
`tick` (which is used up), and while a `WAIT` polls (which stays). The list of events is the model's (log entry 1). -/
def Obligations.IllegalValueReportsAndDoesNothingElse : Prop :=
  ∀ s : State, Accepted s → illegalValue s.flight.value = true →
    let report := failedWith 0x0200 (s.flight.value &&& 0xFFFFFFFF)
    (s.inputs = [] → step s = .next (report s))
      ∧ (∀ rest, s.inputs = .tick :: rest → step s = .next (report { s with inputs := rest }))
      ∧ ∀ rest, s.inputs = .wait :: rest → step s = .next (report s)

/-- A host write to `c[CMD]` is accepted, or dropped and flagged while BUSY = 1 (43 R250, R251). The draw and the mark
of races are the model's part of the record of R41 (log entries 8, 9). -/
def Obligations.CommandWriteIsAcceptedOrDropped : Prop :=
  ∀ (s : State) (v : Word64) (rest : List HostEvent), s.inputs = .wr 16 v :: rest →
    (s.busy = true → step s = .next { s with inputs := rest, hstat := s.hstat ||| 1 })
      ∧ (s.busy = false → step s = .next { s with
          inputs := rest, cmd := v.setWidth 32, busy := true, done := false, ok := false, ecause := 0, olen := 0,
          corrcnt := 0, einfo := 0, cpos := 0, flight := ⟨v, s.x, s.draws, false⟩, draws := s.draws + 1 })

/-- Every command in flight, an illegal value included, completes in one engine step, whatever its operands and whatever the
state: BUSY falls, DONE rises, OK says that no error cause is set (43 R260, 60 R293). The engine moves when no event is left,
with a `tick`, and while a `WAIT` polls. That it is one step is the model's (log entries 1, 2). -/
def Obligations.EveryCommandCompletes : Prop :=
  ∀ s : State, s.busy = true →
    (s.inputs = [] ∨ (∃ rest, s.inputs = .tick :: rest) ∨ ∃ rest, s.inputs = .wait :: rest ∧ s.done = false) →
    ∃ t : State, step s = .next t ∧ t.busy = false ∧ t.done = true ∧ (t.ok = true ↔ t.ecause &&& 0x7FF7 = 0)

/-! ## Block-level commands -/

/-- PCM puts the matrix product of the block in BP, row `i` in bit `i`, and changes nothing else (40 R131, R145). -/
def Obligations.PcmMultipliesByTheMatrix : Prop :=
  BlockRaises .pcm oneOrEight
    ∧ ∀ (s : State) (w : Width), Accepted s → s.init = true → s.flight.ops.pa.toNat = w.bytes →
        ∃ v : Byte, exec .pcm s = .next (succeeded { s with x := { s.x with bp := v } })
          ∧ ∀ i, v.getLsbD i = (decide (i < w.rows) && productBit (blockRows s w) (blockValue w.bytes s.flight.ops.bd) i)

/-- BENC.PAR puts the parity of the block in BP (40 R146). -/
def Obligations.BencParStoresTheParity : Prop :=
  BlockRaises .bencPar oneToEight
    ∧ ∀ s : State, Accepted s → s.init = true → oneToEight s.flight.ops.pa.toNat →
        exec .bencPar s = .next (succeeded { s with
          x := { s.x with bp := bitByte (parity (blockValue s.flight.ops.pa.toNat s.flight.ops.bd)) } })

/-- BENC.HAM puts the Hamming check byte in BP: the product bits below bit `r`, zero above (40 R133, R147). -/
def Obligations.BencHamStoresTheCheckByte : Prop :=
  BlockRaises .bencHam oneOrEight
    ∧ ∀ (s : State) (w : Width), Accepted s → s.init = true → s.flight.ops.pa.toNat = w.bytes →
        ∃ v : Byte, exec .bencHam s = .next (succeeded { s with x := { s.x with bp := v } })
          ∧ ∀ i, v.getLsbD i = (decide (i < w.rows) && productBit (blockRows s w) (blockValue w.bytes s.flight.ops.bd) i)

/-- BENC.SEC puts the SECDED check byte in BP: the product bits, then the overall parity in bit `r`, zero above, and the whole
codeword has even parity (40 R134, R148). -/
def Obligations.BencSecStoresTheCheckByte : Prop :=
  BlockRaises .bencSec oneOrEight
    ∧ ∀ (s : State) (w : Width), Accepted s → s.init = true → s.flight.ops.pa.toNat = w.bytes →
        let d := blockValue w.bytes s.flight.ops.bd
        let rows := blockRows s w
        ∃ v : Byte, exec .bencSec s = .next (succeeded { s with x := { s.x with bp := v } })
          ∧ (∀ i < w.rows, v.getLsbD i = productBit rows d i)
          ∧ v.getLsbD w.rows = Bool.xor (xorBits ((List.range w.rows).map (productBit rows d))) (parity d)
          ∧ (∀ i, w.rows < i → v.getLsbD i = false)
          ∧ Bool.xor (parity d) (parity v) = false

/-- BDEC.PAR compares the whole parity byte with the parity of the block and writes no operand register (40 R140, R149). -/
def Obligations.BdecParComparesTheWholeByte : Prop :=
  BlockRaises .bdecPar oneToEight
    ∧ ∀ s : State, Accepted s → s.init = true → oneToEight s.flight.ops.pa.toNat →
        let p := bitByte (parity (blockValue s.flight.ops.pa.toNat s.flight.ops.bd))
        (s.flight.ops.bp = p → exec .bdecPar s = .next (succeeded s))
          ∧ (s.flight.ops.bp ≠ p → exec .bdecPar s = .next (failedWith 0x0040 0 s))

/-- BDEC.HAM writes back the outcome of the Hamming block decode (40 R150). -/
def Obligations.BdecHamWritesBackTheOutcome : Prop :=
  BlockRaises .bdecHam oneOrEight
    ∧ ∀ (s : State) (w : Width), Accepted s → s.init = true → s.flight.ops.pa.toNat = w.bytes →
        let r := decHam (codeReads s.tables w s.flight.key 0) s.flight.ops.bp (blockValue w.bytes s.flight.ops.bd)
        (r.verdict = .clean → exec .bdecHam s = .next (succeeded { s with x := { s.x with bd := r.d } }))
          ∧ (r.verdict = .corr → ∃ p, r.pos = some p ∧ exec .bdecHam s = .next (succeeded { s with
              x := { s.x with bd := r.d, bp := r.chk }, cpos := BitVec.ofNat 64 p, corrcnt := 1, ecause := 0x0008 }))
          ∧ (r.verdict = .failInt → exec .bdecHam s = .next (failedWith 0x0040 0 s))
          ∧ r.verdict ≠ .failDbl

/-- BDEC.SEC writes back the outcome of the SECDED block decode, a double-bit error included (40 R151). -/
def Obligations.BdecSecWritesBackTheOutcome : Prop :=
  BlockRaises .bdecSec oneOrEight
    ∧ ∀ (s : State) (w : Width), Accepted s → s.init = true → s.flight.ops.pa.toNat = w.bytes →
        let r := decSec (codeReads s.tables w s.flight.key 0) s.flight.ops.bp (blockValue w.bytes s.flight.ops.bd)
        (r.verdict = .clean → exec .bdecSec s = .next (succeeded { s with x := { s.x with bd := r.d } }))
          ∧ (r.verdict = .corr → ∃ p, r.pos = some p ∧ exec .bdecSec s = .next (succeeded { s with
              x := { s.x with bd := r.d, bp := r.chk }, cpos := BitVec.ofNat 64 p, corrcnt := 1, ecause := 0x0008 }))
          ∧ (r.verdict = .failDbl → exec .bdecSec s = .next (failedWith 0x0010 0 s))
          ∧ (r.verdict = .failInt → exec .bdecSec s = .next (failedWith 0x0040 0 s))

/-! ## The kernel -/

/-- The parity fold of a byte sequence is the XOR of all its bits, which is the parity of the XOR of its bytes, in any order; of
the empty sequence it is 0 (40 R130). -/
def Obligations.FoldIsTheParityOfTheXor : Prop :=
  fold [] = false
    ∧ ∀ b c : List Byte, fold b = xorBits (b.flatMap fun x => (List.range 8).map x.getLsbD) ∧ fold b = parity (xorBytes b)
        ∧ (b.Perm c → fold b = fold c)

/-- The matrix product is linear for any rows, and is the XOR of the columns of the one bits of the block (40 R132). -/
def Obligations.MatrixProductIsLinear : Prop :=
  ∀ (rows : List Word64) (a b : Word64),
    pcm rows (a ^^^ b) = pcm rows a ^^^ pcm rows b ∧ pcm rows 0 = 0
      ∧ pcm rows a = xorBytes (((List.range 64).filter a.getLsbD).map fun j => pcm rows (1#64 <<< j))

/-- The Hamming decoder on any table contents (40 R133, R136 to R138): bit `i` of the check byte is the product with row `i`; a
zero syndrome is clean; a miss of the search fails; a hit takes the smallest position, flips it, and fails unless the result
verifies; a failure leaves the pair as received. The verification reads the rows again (log entry 5). With well-formed tables it
passes every clean codeword and corrects every single flipped bit (R141 (a), (b), (d)). -/
def Obligations.HammingDecodesAnyTablesAndCorrectsSingleFlips : Prop :=
  (∀ (rows : List Word64) (d : Word64), ∀ i < 8, (chkHam rows d).getLsbD i = productBit rows d i)
    ∧ (∀ (t : CodeReads) (chk : Byte) (d : Word64),
        let s := chkHam t.rows d ^^^ chk
        (s = 0 → decHam t chk d = ⟨.clean, chk, d, none⟩)
          ∧ (s ≠ 0 → NoHit t.syn s → decHam t chk d = ⟨.failInt, chk, d, none⟩)
          ∧ (s ≠ 0 → ∀ p, SmallestHit t.syn s p → FlipsAndVerifies (chkHam t.rowsAgain) chk d p (decHam t chk d)))
    ∧ ∀ (w : Width) (t : CodeReads) (d : Word64), GoodReads w t → d.toNat < 2 ^ (8 * w.bytes) →
    let chk := chkHam t.rows d
    decHam t chk d = ⟨.clean, chk, d, none⟩
      ∧ ∀ p < 8 * (1 + w.bytes), decHam t (flipBit chk d p).1 (flipBit chk d p).2 = ⟨.corr, chk, d, some p⟩

/-- The SECDED decoder on any table contents (40 R134, R136, R137, R139): the bits of the check byte; a zero syndrome is clean; a
nonzero one of even parity is a double-bit error; of odd parity, the overall bit alone flips that bit, else the search without
the overall bit misses and fails, or takes the smallest position; a flip fails unless the result verifies; a failure leaves the
pair as received. The verification reads the rows again (log entry 5). With well-formed tables it passes every clean codeword and
corrects every single flipped bit, the overall bit included (R141 (a), (b), (d)). -/
def Obligations.SecdedDecodesAnyTablesAndCorrectsSingleFlips : Prop :=
  (∀ (rows : List Word64) (d : Word64), rows.length < 8 →
      (∀ i < rows.length, (chkSec rows.length rows d).getLsbD i = productBit rows d i)
        ∧ (chkSec rows.length rows d).getLsbD rows.length
            = Bool.xor (xorBits ((List.range rows.length).map (productBit rows d))) (parity d)
        ∧ ∀ i, rows.length < i → (chkSec rows.length rows d).getLsbD i = false)
    ∧ (∀ (t : CodeReads) (chk : Byte) (d : Word64),
        let s := chkSec t.r t.rows d ^^^ chk
        let sh := s &&& ~~~(1#8 <<< t.r)
        let enc := chkSec t.r t.rowsAgain
        (s = 0 → decSec t chk d = ⟨.clean, chk, d, none⟩)
          ∧ (s ≠ 0 → parity s = false → decSec t chk d = ⟨.failDbl, chk, d, none⟩)
          ∧ (parity s = true → sh = 0 → FlipsAndVerifies enc chk d t.r (decSec t chk d))
          ∧ (parity s = true → sh ≠ 0 → NoHit t.syn sh → decSec t chk d = ⟨.failInt, chk, d, none⟩)
          ∧ (parity s = true → sh ≠ 0 → ∀ p, SmallestHit t.syn sh p → FlipsAndVerifies enc chk d p (decSec t chk d)))
    ∧ ∀ (w : Width) (t : CodeReads) (d : Word64), GoodReads w t → d.toNat < 2 ^ (8 * w.bytes) →
    let chk := chkSec t.r t.rows d
    decSec t chk d = ⟨.clean, chk, d, none⟩
      ∧ ∀ p < 8 * (1 + w.bytes), decSec t (flipBit chk d p).1 (flipBit chk d p).2 = ⟨.corr, chk, d, some p⟩

/-- With well-formed tables the SECDED decoder reports every double flip as a double-bit error and leaves the codeword as
received (40 R141 (c)). -/
def Obligations.SecdedDetectsEveryDoubleFlip : Prop :=
  ∀ (w : Width) (t : CodeReads) (d : Word64), GoodReads w t → d.toNat < 2 ^ (8 * w.bytes) →
    ∀ p < 8 * (1 + w.bytes), ∀ q < 8 * (1 + w.bytes), p ≠ q →
      let once := flipBit (chkSec t.r t.rows d) d p
      let twice := flipBit once.1 once.2 q
      decSec t twice.1 twice.2 = ⟨.failDbl, twice.1, twice.2, none⟩

/-- The default tables are well formed (10_state R37, R38). -/
def Obligations.DefaultTablesAreWellFormed : Prop := TablesOK defaultTables

/-! ## Linear streams -/

/-- ENC.PAR writes the header and one codeword a block, the parity byte first, and nothing else in memory (41 R173 to R175,
R177). -/
def Obligations.EncParWritesTheStream : Prop :=
  ∀ s : State, Accepted s → Undisturbed s → s.init = true →
    let n := srcLen s
    let bs := s.flight.ops.pa.toNat
    let T := s.flight.ops.nt.toNat
    let B := (n + bs - 1) / bs
    let rem := n % bs
    let need := 17 + n + B
    1 ≤ bs → bs < 2 ^ 32 → 1 ≤ T → T < 2 ^ 32 → B < 2 ^ 32 → WindowsGood s need →
    ∃ m : Memory,
      exec .encPar s = .next (succeeded { s with mem := m, olen := BitVec.ofNat 64 need })
        ∧ SameOutside s.mem m (dstAddr s) need
        ∧ HoldsAt m (dstAddr s) ([0x01] ++ be32 B ++ be32 bs ++ be32 rem ++ be32 T)
        ∧ ∀ i < B,
            let blk := memRead s (srcAddr s + i * bs) (if 0 < rem ∧ i + 1 = B then rem else bs)
            HoldsAt m (dstAddr s + 17 + i * (1 + bs)) (bitByte (fold blk) :: blk)

/-- ENC.HAM writes the Hamming stream (41 R178). -/
def Obligations.EncHamWritesTheStream : Prop := EncodesCodewords .encHam 0x02 (fun _ => chkHam)

/-- ENC.SEC writes the SECDED stream (41 R179). -/
def Obligations.EncSecWritesTheStream : Prop := EncodesCodewords .encSec 0x03 (fun w => chkSec w.rows)

/-- A linear encode that cannot run raises the first failing check and changes nothing but the result registers (41 R180,
60 R280, R290). The sizes of its destination window (`RaisesEarly`, `RaisesLate`) are the model's, deduced from 20_memory R60 to
R62 (log entry 8); that the window is empty before a BusFault on the source is its choice (log entry 17). -/
def Obligations.LinearEncodeRaisesTheFirstFailure : Prop :=
  ∀ (c : Codec) (s : State), Accepted s → Undisturbed s →
    let n := srcLen s
    let bs := s.flight.ops.pa.toNat
    let T := s.flight.ops.nt.toNat
    let B := (n + bs - 1) / bs
    let legal := match c with
      | .par => 1 ≤ bs ∧ bs < 2 ^ 32
      | .ham | .sec => oneOrEight bs
    let need := match c with
      | .par => 17 + n + B
      | .ham | .sec => 17 + n / bs * (1 + bs) + 2 * (n % bs)
    let i := encodeOf c
    (s.init = false → RaisesEarly i s 0x0001 0)
      ∧ (s.init = true → ¬ legal → RaisesEarly i s 0x0004 s.flight.ops.pa)
      ∧ (s.init = true → legal → ¬ (1 ≤ T ∧ T < 2 ^ 32) → RaisesEarly i s 0x0004 s.flight.ops.nt)
      ∧ (s.init = true → legal → 1 ≤ T → T < 2 ^ 32 →
          (2 ^ 32 ≤ B → RaisesEarly i s 0x0004 (BitVec.ofNat 64 B))
            ∧ (B < 2 ^ 32 →
                (¬ SourceGood s → RaisesEarly i s 0x1000 0)
                  ∧ (SourceGood s → s.flight.ops.cap.toNat < need →
                      RaisesLate i s need 0x0800 (BitVec.ofNat 64 need))
                  ∧ (SourceGood s → need ≤ s.flight.ops.cap.toNat →
                      ¬ (dstAddr s + need ≤ 2 ^ 64 ∧ memWritable s.platform (dstAddr s) need = true) →
                      RaisesLate i s need 0x1000 1)
                  ∧ (SourceGood s → need ≤ s.flight.ops.cap.toNat → dstAddr s + need ≤ 2 ^ 64 →
                      memWritable s.platform (dstAddr s) need = true → ¬ DestinationGood s need →
                      RaisesLate i s need 0x2000 0)))

/-- DEC.PAR, and DEC.AUTO on its streams: the data when every parity byte matches, else the first failing block in EINFO and an
unspecified destination window (41 R184 to R186, 60 R291). -/
def Obligations.DecParChecksEveryBlock : Prop :=
  ∀ (s : State) (i : Instr), i = .decPar ∨ i = .decAuto → Accepted s → Undisturbed s → s.init = true →
    let B := headerField s 1
    let bs := headerField s 5
    let rem := headerField s 9
    let F := B - (if 0 < rem then 1 else 0)
    let n := F * bs + rem
    17 ≤ srcLen s → tagByte s = 0x01 → 1 ≤ bs → headerField s 13 ≠ 0 → rem < bs → (0 < rem → B ≠ 0) →
    17 + n + B = srcLen s → WindowsGood s n →
    let cw := fun q => srcAddr s + 17 + q * (1 + bs)
    let blk := fun q => memRead s (cw q + 1) (if 0 < rem ∧ q + 1 = B then rem else bs)
    let bad := fun q => srcByte s (cw q) ≠ bitByte (fold (blk q))
    ((∀ q < B, ¬ bad q) →
        ∃ m : Memory,
          exec i s = .next (succeeded { s with mem := m, olen := BitVec.ofNat 64 n })
            ∧ SameOutside s.mem m (dstAddr s) n ∧ ∀ q < B, HoldsAt m (dstAddr s + q * bs) (blk q))
      ∧ ∀ q < B, bad q → (∀ p < q, ¬ bad p) →
          ∃ m : Memory,
            exec i s = .next (failedWith 0x0040 (BitVec.ofNat 64 q) { s with mem := m })
              ∧ SameOutside s.mem m (dstAddr s) n ∧ UnspecifiedAt m (dstAddr s) n

/-- DEC.HAM, and DEC.AUTO on its streams (41 R187). -/
def Obligations.DecHamDecodesEveryCodeword : Prop := DecodesCodewords .ham decHam

/-- DEC.SEC, and DEC.AUTO on its streams (41 R188). -/
def Obligations.DecSecDecodesEveryCodeword : Prop := DecodesCodewords .sec decSec

/-- A linear decode that cannot run raises the first failing check of 41 R181 and changes nothing but the result registers. The
sizes of its destination window (`RaisesEarly`, `RaisesLate`) are the model's, deduced from 20_memory R60 to R62 (log entry 8). -/
def Obligations.LinearDecodeRaisesTheFirstFailure : Prop :=
  ∀ (c : Codec) (s : State), Accepted s → Undisturbed s →
    let len := srcLen s
    let B := headerField s 1
    let bs := headerField s 5
    let rem := headerField s 9
    let n := (B - (if 0 < rem then 1 else 0)) * bs + rem
    let size := match c with
      | .par => 17 + n + B
      | .ham | .sec => 17 + (B - (if 0 < rem then 1 else 0)) * (1 + bs) + 2 * rem
    let legal := match c with
      | .par => 1 ≤ bs
      | .ham | .sec => oneOrEight bs
    let i := decodeOf c
    (s.init = false → RaisesEarly i s 0x0001 0)
      ∧ (s.init = true → ¬ SourceGood s → RaisesEarly i s 0x1000 0)
      ∧ (s.init = true → SourceGood s →
          (len < 1 → RaisesEarly i s 0x0400 1)
            ∧ (1 ≤ len → tagByte s ≠ c.tag → RaisesEarly i s 0x0400 2)
            ∧ (1 ≤ len → tagByte s = c.tag → len < 17 → RaisesEarly i s 0x0400 3)
            ∧ (tagByte s = c.tag → 17 ≤ len →
                (¬ legal → RaisesEarly i s 0x0004 (BitVec.ofNat 64 bs))
                  ∧ (legal → headerField s 13 = 0 → RaisesEarly i s 0x0004 0)
                  ∧ (legal → headerField s 13 ≠ 0 → (bs ≤ rem ∨ (0 < rem ∧ B = 0)) →
                      RaisesEarly i s 0x0400 4)
                  ∧ (legal → headerField s 13 ≠ 0 → rem < bs → (0 < rem → B ≠ 0) →
                      (size ≠ len → RaisesEarly i s 0x0400 5)
                        ∧ (size = len → s.flight.ops.cap.toNat < n →
                            RaisesLate i s n 0x0800 (BitVec.ofNat 64 n))
                        ∧ (size = len → n ≤ s.flight.ops.cap.toNat →
                            ¬ (dstAddr s + n ≤ 2 ^ 64 ∧ memWritable s.platform (dstAddr s) n = true) →
                            RaisesLate i s n 0x1000 1)
                        ∧ (size = len → n ≤ s.flight.ops.cap.toNat → dstAddr s + n ≤ 2 ^ 64 →
                            memWritable s.platform (dstAddr s) n = true → ¬ DestinationGood s n →
                            RaisesLate i s n 0x2000 0))))

/-- Round trip (41 R189): decoding, by the codec's command or by DEC.AUTO, the stream an encode left in memory delivers the data
with OK = 1, ECAUSE = 0, CORRCNT = 0. For Parity with any table store; for Hamming and SECDED with any contents, loaded and
the same at both commands. -/
def Obligations.LinearStreamsRoundTrip : Prop :=
  ∀ (c : Codec) (s t s' : State) (i : Instr), Accepted s → Undisturbed s → exec (encodeOf c) s = .next t → t.ok = true →
    ReadsTheStreamOf s t s' → (c = .par ∨ (allLoaded s.tables = true ∧ s'.tables = s.tables)) →
    i = decodeOf c ∨ i = .decAuto → DeliversBack i s s'

/-! ## Memory and order -/

/-- No command changes a byte of memory outside its destination window, raced or not; the window of a command that runs fits
the capacity; a command that raises without a race, and one that is no stream command, changes no byte (20_memory R61, R62). -/
def Obligations.CommandsWriteOnlyTheirWindow : Prop :=
  ∀ (i : Instr) (s t : State), exec i s = .next t →
    SameOutside s.mem t.mem (dstAddr s) (outputNeed i s) ∧ dstAddr s + outputNeed i s ≤ 2 ^ 64
      ∧ (isStream i = false → t.mem = s.mem)
      ∧ (∀ r, streamPlan i s = some (.early r) → t.mem = s.mem)
      ∧ (∀ r n, Undisturbed s → streamPlan i s = some (.late r n) → t.mem = s.mem)
      ∧ ∀ job, streamPlan i s = some (.run job) → outputNeed i s = job.need ∧ job.need ≤ s.flight.ops.cap.toNat

/-- Order independence (60 R301): a stream command that passes its checks leaves the same registers and the same memory for
every order of its work items. -/
def Obligations.WorkItemOrderDoesNotMatter : Prop :=
  ∀ (i : Instr) (s : State) (job : Job) (order : List Nat), s.mem.wf → streamPlan i s = some (.run job) →
    order.Perm (List.range job.count) →
    runItems job.item order (memWrite (dstAddr s) job.header s)
      = runItems job.item (List.range job.count) (memWrite (dstAddr s) job.header s)

/-- The `T` logical work ranges of 60 R300 partition the work items: contiguous, in order, each item in exactly one, all but the
last of size `floor(W/T)`. -/
def Obligations.WorkRangesPartitionTheItems : Prop :=
  ∀ W T : Nat, 1 ≤ T →
    (workRanges W T).length = T ∧ (workRanges W T).flatten = List.range W
      ∧ ∀ t, t + 1 < T → (workRange W T t).length = W / T

/-- A store to a byte of either window of the command in flight, and a load of a byte of its destination window, is a race: that
byte becomes unspecified, no other byte changes, the load answers a free value, and the race is recorded. Any other store or
load of plain memory is a plain one and records nothing. The windows are those of a stream command while `BUSY = 1`, and there are
none otherwise, so an access after the completion event is plain before the host has observed it too (20_memory R77; the
model's choice beside 70 R324, log entry 19). A store of several bytes is the stores of its bytes, lowest address first. A
recorded race makes the results of the stream command unspecified when it completes: its whole destination window and its result
registers but CPOS are free, every byte outside the window is as it was (20_memory R77, 70 R324). The mark `raced`, and that OK
and OLEN follow the free causes, are log entry 8; the free values are the opaque constants of Config (log entry 9). -/
def Obligations.RacedBytesAreUnspecified : Prop :=
  (∀ (s : State) (a : Nat) (b : Byte) (rest : List HostEvent), s.inputs = .poke a [b] :: rest → PlainAccess s a 1 →
      let t := { s with inputs := rest }
      (inFlightSource t a = true ∨ inFlightDestination t a = true →
          ∃ m, step s = .next { t with mem := m, flight := { s.flight with raced := true } } ∧ m.look a = none
            ∧ ∀ x, x ≠ a → m.look x = s.mem.look x)
        ∧ (inFlightSource t a = false → inFlightDestination t a = false →
            ∃ m, step s = .next { t with mem := m } ∧ m.look a = some b ∧ ∀ x, x ≠ a → m.look x = s.mem.look x))
    ∧ (∀ (s : State) (a : Nat) (rest : List HostEvent), PlainAccess s a 0 →
        step { s with inputs := .poke a [] :: rest } = .next { s with inputs := rest })
    ∧ (∀ (s : State) (a : Nat) (b : Byte) (bs : List Byte) (rest : List HostEvent), PlainAccess s a (bs.length + 1) →
        ∃ t, step { s with inputs := .poke a [b] :: .poke (a + 1) bs :: rest } = .next t
          ∧ step { s with inputs := .poke a (b :: bs) :: rest } = step t)
    ∧ (∀ (s : State) (a n : Nat) (rest : List HostEvent), s.inputs = .peek a n :: rest → PlainAccess s a n →
        let t := { s with inputs := rest }
        let hit := inFlightDestination t
        ∃ m, step s = .next { t with
              mem := m, draws := s.draws + 1
              flight := { s.flight with raced := s.flight.raced || (List.range n).any fun j => hit (a + j) }
              reads := s.reads ++ (List.range n).map fun j =>
                .mem (a + j) (if hit (a + j) then Config.freeByte s.draws (a + j) else s.mem.read s.draws (a + j)) }
          ∧ (∀ x, a ≤ x → x < a + n → hit x = true → m.look x = none)
          ∧ (∀ x, x < a ∨ a + n ≤ x ∨ hit x = false → m.look x = s.mem.look x)
          ∧ ((∀ j < n, hit (a + j) = false) → m = s.mem))
    ∧ (∀ (s : State) (i : Instr) (a : Nat), s.busy = true → decode s.flight.value = .ok i → isStream i = true →
        (inFlightSource s a = true ↔ srcAddr s ≤ a ∧ a < srcAddr s + srcLen s)
          ∧ (inFlightDestination s a = true ↔ dstAddr s ≤ a ∧ a < dstAddr s + outputNeed i s))
    ∧ (∀ (s : State) (a : Nat), (s.busy = true → ∀ i, decode s.flight.value = .ok i → isStream i = false) →
        inFlightSource s a = false ∧ inFlightDestination s a = false)
    ∧ ∀ (i : Instr) (s : State), isStream i = true → s.flight.raced = true →
        let free := Config.freeResult s.flight.key
        let causes : BitVec 15 := (free 18).setWidth 15 &&& 0x7EFD
        ∃ m, exec i s = .next { s with
            mem := m, busy := false, done := true, ok := decide (causes &&& 0x7FF7 = 0), ecause := causes,
            olen := if causes &&& 0x7FF7 = 0 then free 19 else 0, corrcnt := free 20, einfo := free 21 }
          ∧ UnspecifiedAt m (dstAddr s) (outputNeed i s) ∧ SameOutside s.mem m (dstAddr s) (outputNeed i s)

/-! ## Reed-Solomon -/

/-- The field laws of `gmul` (42 R213). -/
def Obligations.GaloisProductLaws : Prop :=
  (∀ a b : Byte, gmul a b = gmul b a) ∧ (∀ a b c : Byte, gmul a (gmul b c) = gmul (gmul a b) c)
    ∧ (∀ a b c : Byte, gmul a (b ^^^ c) = gmul a b ^^^ gmul a c) ∧ (∀ a : Byte, gmul a 1 = a) ∧ ∀ a : Byte, gmul a 0 = 0

/-- Multiplication by 2 shifts and reduces by 0x11D (42 R211), and the inverse is the unique solution of `gmul(a, b) = 1` (R212).
The Lagrange coefficient on distinct nodes is the quotient of its two products, 1 at its own node and 0 at the others (R214); the
coding matrix is that of the nodes 0, 1, ... (R215), and each of its rows XORs to 1 (R216 (a)). -/
def Obligations.FieldInverseAndCodingMatrix : Prop :=
  (∀ a : Byte, gmul a 2 = (a <<< 1) ^^^ (if a.getLsbD 7 then 0x1D else 0))
    ∧ (∀ a b : Byte, a ≠ 0 → (gmul a b = 1 ↔ b = ginv a))
    ∧ (∀ (X : List Byte) (t : Nat), X.Nodup → t < X.length →
        nodeProduct X t (X.getD t 0) ≠ 0
          ∧ (∀ y, gmul (lag X t y) (nodeProduct X t (X.getD t 0)) = nodeProduct X t y)
          ∧ lag X t (X.getD t 0) = 1 ∧ ∀ u < X.length, u ≠ t → lag X t (X.getD u 0) = 0)
    ∧ ∀ k i : Nat, 1 ≤ k → k + i < 256 →
        (∀ j < k, codingCoeff k i j = lag ((List.range k).map (BitVec.ofNat 8)) j (BitVec.ofNat 8 (k + i)))
          ∧ xorBytes ((List.range k).map (codingCoeff k i)) = 1

/-- ENC.RS writes the header and, for each group, its code-device records then its data-device records, with the coding matrix of
the group's own size, lane by lane (42 R210, R218, R219, R222, R223, R225). -/
def Obligations.EncRsWritesTheStream : Prop :=
  ∀ s : State, Accepted s → Undisturbed s → s.init = true →
    let n := srcLen s
    let k := s.flight.ops.pa.toNat
    let m := s.flight.ops.pb.toNat
    let T := s.flight.ops.nt.toNat
    let W := (n + 7) / 8
    let B := (W + k - 1) / k
    let rdd := W % k
    let rl := n % 8
    let need := 25 + 9 * (B * m + W)
    1 ≤ k → 1 ≤ m → k + m ≤ 256 → 1 ≤ T → T < 2 ^ 32 → B < 2 ^ 32 → WindowsGood s need →
    let kb := fun b => if 0 < rdd ∧ b + 1 = B then rdd else k
    let word := fun i => if 0 < rl ∧ i + 1 = W then memRead s (srcAddr s + 8 * i) rl ++ List.replicate (8 - rl) 0
      else memRead s (srcAddr s + 8 * i) 8
    let code := fun b i => (List.range 8).map fun t =>
      xorBytes ((List.range (kb b)).map fun j => gmul (codingCoeff (kb b) i j) ((word (b * k + j)).getD t 0))
    let at_ := fun b => dstAddr s + 25 + 9 * b * (m + k)
    ∃ mem' : Memory,
      exec .encRs s = .next (succeeded { s with mem := mem', olen := BitVec.ofNat 64 need })
        ∧ SameOutside s.mem mem' (dstAddr s) need
        ∧ HoldsAt mem' (dstAddr s)
            ([0x04] ++ be32 k ++ be32 m ++ be32 B ++ be32 rdd ++ be32 rl ++ be32 T)
        ∧ ∀ b < B,
            (∀ i < m, HoldsAt mem' (at_ b + 9 * i) (bitByte (fold (code b i)) :: code b i))
              ∧ ∀ j < kb b, HoldsAt mem' (at_ b + 9 * (m + j)) (bitByte (fold (word (b * k + j))) :: word (b * k + j))

/-- DEC.RS, and DEC.AUTO on its streams: the data devices of every group, of a partial last word only its valid bytes; or the
first group with too many erasures in EINFO and an unspecified destination window (42 R231, R232, R234). -/
def Obligations.DecRsDecodesEveryGroup : Prop :=
  ∀ (s : State) (i : Instr), i = .decRs ∨ i = .decAuto → Accepted s → Undisturbed s → s.init = true →
    let k := headerField s 1
    let m := headerField s 5
    let B := headerField s 9
    let rdd := headerField s 13
    let rl := headerField s 17
    let W := (B - (if 0 < rdd then 1 else 0)) * k + rdd
    let n := 8 * W - (if 0 < rl then 8 - rl else 0)
    25 ≤ srcLen s → tagByte s = 0x04 → 1 ≤ k → 1 ≤ m → k + m ≤ 256 → headerField s 21 ≠ 0 → rdd < k → rl < 8 →
    (0 < rdd ∨ 0 < rl → B ≠ 0) → 25 + 9 * (B * m + W) = srcLen s → WindowsGood s n →
    let kb := fun b => if 0 < rdd ∧ b + 1 = B then rdd else k
    let group := fun b => groupDecode m (kb b)
      ((List.range (m + kb b)).map fun r => memRead s (srcAddr s + 25 + 9 * b * (m + k) + 9 * r) 9)
    ((∀ b < B, group b ≠ none) →
        ∃ mem' : Memory,
          exec i s = .next (succeeded { s with mem := mem', olen := BitVec.ofNat 64 n })
            ∧ SameOutside s.mem mem' (dstAddr s) n
            ∧ ∀ b < B, ∀ v, group b = some v → ∀ j < kb b,
                HoldsAt mem' (dstAddr s + 8 * (b * k + j))
                  (if 0 < rl ∧ b * k + j + 1 = W then (v.getD j []).take rl else v.getD j []))
      ∧ ∀ b < B, group b = none → (∀ a < b, group a ≠ none) →
          ∃ mem' : Memory,
            exec i s = .next (failedWith 0x0020 (BitVec.ofNat 64 b) { s with mem := mem' })
              ∧ SameOutside s.mem mem' (dstAddr s) n ∧ UnspecifiedAt mem' (dstAddr s) n

/-- A record is an erasure exactly when its first byte, the whole of it, differs from the parity byte of its device (42 R219).
Group decode fails exactly when more records than `m` are erasures; else it returns `kb` devices: those that are no erasure as
received, and each erased one the combination of the `kb` smallest surviving devices in coding order, byte position by byte
position, whether or not a survivor carries an undetected corruption (R220). -/
def Obligations.GroupDecodeFailsOnlyAboveM : Prop :=
  (∀ r : List Byte, isErasure r = true ↔ r.headD 0 ≠ bitByte (fold r.tail))
    ∧ ∀ (m kb : Nat) (records : List (List Byte)), records.length = m + kb →
    (groupDecode m kb records = none ↔ m < (records.filter isErasure).length)
      ∧ (∀ v, groupDecode m kb records = some v →
          v.length = kb ∧ ∀ j < kb, isErasure (records.getD (m + j) []) = false →
            v.getD j [] = (records.getD (m + j) []).tail)
        ∧ ((∀ r ∈ records, r.length = 9) → ∀ v, groupDecode m kb records = some v →
            let surv := survivors m kb records
            surv.length = kb
              ∧ ∀ e < kb, isErasure (records.getD (m + e) []) = true →
                  v.getD e [] = (List.range 8).map fun p => xorBytes ((List.range kb).map fun t =>
                    gmul (lag (surv.map (BitVec.ofNat 8)) t (BitVec.ofNat 8 e))
                      ((codingRecord m kb records (surv.getD t 0)).tail.getD p 0)))

/-- Erasure tolerance (42 R235): when every record of a group is as encoded or an erasure, and at most `m` are erasures, group
decode returns the data devices exactly. -/
def Obligations.UpToMErasuresAreRebuilt : Prop :=
  ∀ (m : Nat) (v : List Device) (records : List (List Byte)), 1 ≤ m → 1 ≤ v.length → v.length + m ≤ 256 →
    (∀ d ∈ v, d.length = 8) → records.length = m + v.length →
    (∀ r < m + v.length, records.getD r [] = (groupRecords m v).getD r [] ∨ isErasure (records.getD r []) = true) →
    (records.filter isErasure).length ≤ m → groupDecode m v.length records = some v

/-- Round trip of Reed-Solomon streams (42 R225, R234; the source's property quoted in 41 R189). -/
def Obligations.ReedSolomonStreamsRoundTrip : Prop :=
  ∀ (s t s' : State) (i : Instr), Accepted s → Undisturbed s → exec .encRs s = .next t → t.ok = true →
    ReadsTheStreamOf s t s' → i = .decRs ∨ i = .decAuto → DeliversBack i s s'

/-- ENC.RS that cannot run raises the first failing check (42 R221, R222, R225). The sizes of its destination window
(`RaisesEarly`, `RaisesLate`) are the model's, deduced from 20_memory R60 to R62 (log entry 8); that the window is empty before a
BusFault on the source is its choice (log entry 17). -/
def Obligations.EncRsRaisesTheFirstFailure : Prop :=
  ∀ s : State, Accepted s → Undisturbed s →
    let n := srcLen s
    let k := s.flight.ops.pa.toNat
    let m := s.flight.ops.pb.toNat
    let T := s.flight.ops.nt.toNat
    let W := (n + 7) / 8
    let B := (W + k - 1) / k
    let need := 25 + 9 * (B * m + W)
    let legal := 1 ≤ k ∧ 1 ≤ m ∧ k + m ≤ 256
    (s.init = false → RaisesEarly .encRs s 0x0001 0)
      ∧ (s.init = true → ¬ legal →
          RaisesEarly .encRs s 0x0004 (BitVec.ofNat 64 (k % 2 ^ 32 * 2 ^ 32 + m % 2 ^ 32)))
      ∧ (s.init = true → legal → ¬ (1 ≤ T ∧ T < 2 ^ 32) → RaisesEarly .encRs s 0x0004 s.flight.ops.nt)
      ∧ (s.init = true → legal → 1 ≤ T → T < 2 ^ 32 →
          (2 ^ 32 ≤ B → RaisesEarly .encRs s 0x0004 (BitVec.ofNat 64 B))
            ∧ (B < 2 ^ 32 →
                (¬ SourceGood s → RaisesEarly .encRs s 0x1000 0)
                  ∧ (SourceGood s → s.flight.ops.cap.toNat < need →
                      RaisesLate .encRs s need 0x0800 (BitVec.ofNat 64 need))
                  ∧ (SourceGood s → need ≤ s.flight.ops.cap.toNat →
                      ¬ (dstAddr s + need ≤ 2 ^ 64 ∧ memWritable s.platform (dstAddr s) need = true) →
                      RaisesLate .encRs s need 0x1000 1)
                  ∧ (SourceGood s → need ≤ s.flight.ops.cap.toNat → dstAddr s + need ≤ 2 ^ 64 →
                      memWritable s.platform (dstAddr s) need = true → ¬ DestinationGood s need →
                      RaisesLate .encRs s need 0x2000 0)))

/-- DEC.RS that cannot run raises the first failing check of 42 R230. The sizes of its destination window (`RaisesEarly`,
`RaisesLate`) are the model's, deduced from 20_memory R60 to R62 (log entry 8). -/
def Obligations.DecRsRaisesTheFirstFailure : Prop :=
  ∀ s : State, Accepted s → Undisturbed s →
    let len := srcLen s
    let k := headerField s 1
    let m := headerField s 5
    let B := headerField s 9
    let rdd := headerField s 13
    let rl := headerField s 17
    let W := (B - (if 0 < rdd then 1 else 0)) * k + rdd
    let n := 8 * W - (if 0 < rl then 8 - rl else 0)
    let legal := 1 ≤ k ∧ 1 ≤ m ∧ k + m ≤ 256
    let consistent := rdd < k ∧ rl < 8 ∧ (0 < rdd ∨ 0 < rl → B ≠ 0)
    let i := Instr.decRs
    (s.init = false → RaisesEarly i s 0x0001 0)
      ∧ (s.init = true → ¬ SourceGood s → RaisesEarly i s 0x1000 0)
      ∧ (s.init = true → SourceGood s →
          (len < 1 → RaisesEarly i s 0x0400 1)
            ∧ (1 ≤ len → tagByte s ≠ 0x04 → RaisesEarly i s 0x0400 2)
            ∧ (1 ≤ len → tagByte s = 0x04 → len < 25 → RaisesEarly i s 0x0400 3)
            ∧ (tagByte s = 0x04 → 25 ≤ len →
                (¬ legal → RaisesEarly i s 0x0004 (BitVec.ofNat 64 (k * 2 ^ 32 + m)))
                  ∧ (legal → headerField s 21 = 0 → RaisesEarly i s 0x0004 0)
                  ∧ (legal → headerField s 21 ≠ 0 → ¬ consistent → RaisesEarly i s 0x0400 4)
                  ∧ (legal → headerField s 21 ≠ 0 → consistent →
                      (25 + 9 * (B * m + W) ≠ len → RaisesEarly i s 0x0400 5)
                        ∧ (25 + 9 * (B * m + W) = len → s.flight.ops.cap.toNat < n →
                            RaisesLate i s n 0x0800 (BitVec.ofNat 64 n))
                        ∧ (25 + 9 * (B * m + W) = len → n ≤ s.flight.ops.cap.toNat →
                            ¬ (dstAddr s + n ≤ 2 ^ 64 ∧ memWritable s.platform (dstAddr s) n = true) →
                            RaisesLate i s n 0x1000 1)
                        ∧ (25 + 9 * (B * m + W) = len → n ≤ s.flight.ops.cap.toNat → dstAddr s + n ≤ 2 ^ 64 →
                            memWritable s.platform (dstAddr s) n = true → ¬ DestinationGood s n →
                            RaisesLate i s n 0x2000 0))))

/-! ## Dispatch and system commands -/

/-- DEC.AUTO is the decode command of the stream's tag, in every state; an unknown tag is fatal to the call (43 R254). That the
destination window is then empty (`RaisesEarly`) is deduced from 20_memory R62 (log entry 8). -/
def Obligations.DecAutoDispatchesOnTheTag : Prop :=
  ∀ s : State,
    (tagByte s = 0x01 → exec .decAuto s = exec .decPar s) ∧ (tagByte s = 0x02 → exec .decAuto s = exec .decHam s)
      ∧ (tagByte s = 0x03 → exec .decAuto s = exec .decSec s) ∧ (tagByte s = 0x04 → exec .decAuto s = exec .decRs s)
      ∧ (Accepted s → Undisturbed s →
          (s.init = false → RaisesEarly .decAuto s 0x0001 0)
            ∧ (s.init = true → ¬ SourceGood s → RaisesEarly .decAuto s 0x1000 0)
            ∧ (s.init = true → SourceGood s → srcLen s = 0 → RaisesEarly .decAuto s 0x0400 1)
            ∧ (s.init = true → SourceGood s → 1 ≤ srcLen s → (tagByte s = 0 ∨ 5 ≤ (tagByte s).toNat) →
                RaisesEarly .decAuto s 0x0080 ((tagByte s).setWidth 64)))

/-- NOP does nothing, INIT sets and CLOSE clears `STATUS.INIT`; each completes with OK = 1 in every state and leaves the table
store (43 R255 to R257). -/
def Obligations.SystemCommandsSetInit : Prop :=
  ∀ s : State, Accepted s →
    exec .nop s = .next (succeeded s) ∧ exec .init s = .next (succeeded { s with init := true })
      ∧ exec .close s = .next (succeeded { s with init := false })

/-- TWR stores the word in the entry addressed, truncated to its width, and leaves every other entry; it is refused while INIT = 1
and for an invalid index (43 R258). -/
def Obligations.TwrStoresOneEntry : Prop :=
  ∀ s : State, Accepted s →
    (s.init = true → exec .twr s = .next (failedWith 0x4000 0 s))
      ∧ (s.init = false → (∀ r, tIndex r ≠ s.flight.ops.pa.toNat) →
          exec .twr s = .next (failedWith 0x0004 s.flight.ops.pa s))
      ∧ (s.init = false → ∀ r, tIndex r = s.flight.ops.pa.toNat →
          ∃ t : Tables, exec .twr s = .next (succeeded { s with tables := t })
            ∧ (∀ f, tableRead t r f = match r with
                | .h8 _ => s.flight.ops.bd
                | .h1 _ | .s1 _ | .s8 _ => s.flight.ops.bd &&& 0xFF)
            ∧ ∀ r', r' ≠ r → ∀ f, tableRead t r' f = tableRead s.tables r' f)

/-- TRD puts the entry addressed, zero-extended, in BD, whether INIT is 0 or 1; of an entry never written since reset it puts
the free value of that read (43 R259; log entry 5). -/
def Obligations.TrdLoadsOneEntry : Prop :=
  ∀ s : State, Accepted s →
    ((∀ r, tIndex r ≠ s.flight.ops.pa.toNat) → exec .trd s = .next (failedWith 0x0004 s.flight.ops.pa s))
      ∧ ∀ r, tIndex r = s.flight.ops.pa.toNat →
          exec .trd s = .next (succeeded { s with
            x := { s.x with bd := tableRead s.tables r (Config.freeTable s.flight.key 0 0 (tIndex r)) } })

/-- The T-space index map (30_encoding R108). -/
def Obligations.TableIndicesAreTheMap : Prop :=
  (∀ (n : Nat) (r : TRef), tRef? n = some r ↔ tIndex r = n)
    ∧ (∀ n : Nat, tRef? n = none ↔ (4 ≤ n ∧ n ≤ 7) ∨ n = 15 ∨ 104 ≤ n)
    ∧ (∀ i : Fin 4, tIndex (.h1 i) = i.val) ∧ (∀ i : Fin 7, tIndex (.h8 i) = 8 + i.val)
    ∧ (∀ i : Fin 16, tIndex (.s1 i) = 16 + i.val) ∧ ∀ i : Fin 72, tIndex (.s8 i) = 32 + i.val

/-- Every command but NOP, INIT, CLOSE, TWR and TRD raises NotInitialized when INIT = 0, before any other check
(43 R252). What a race does to a stream command is a statement of its own. -/
def Obligations.CodecsNeedInit : Prop :=
  ∀ (i : Instr) (s : State), Accepted s → (isStream i = true → Undisturbed s) → i ∉ [Instr.nop, .init, .close, .twr, .trd] →
    s.init = false →
    exec i s = .next (failedWith 0x0001 0 s)

/-- The frame of every command: of the operand registers only BD and BP may change, and only by PCM, BENC.*, BDEC.* and TRD
(10_state R23); only INIT and CLOSE change INIT; only TWR with INIT = 0 changes the table store; only BDEC.HAM and BDEC.SEC write
CPOS; CMD, IE, HSTAT and everything outside the engine but memory stay. -/
def Obligations.CommandsLeaveTheRestAlone : Prop :=
  ∀ (i : Instr) (s t : State), exec i s = .next t →
    (∃ bd bp, t.x = { s.x with bd := bd, bp := bp })
      ∧ (t.x ≠ s.x → i ∈ [Instr.pcm, .bencPar, .bencHam, .bencSec, .bdecHam, .bdecSec, .trd])
      ∧ (t.init ≠ s.init → i ∈ [Instr.init, .close]) ∧ (t.tables ≠ s.tables → i = .twr ∧ s.init = false)
      ∧ (t.cpos ≠ s.cpos → i ∈ [Instr.bdecHam, .bdecSec])
      ∧ t.cmd = s.cmd ∧ t.ie = s.ie ∧ t.hstat = s.hstat ∧ t.flight = s.flight ∧ t.platform = s.platform
      ∧ t.inputs = s.inputs ∧ t.reads = s.reads ∧ t.draws = s.draws

/-- The reserved causes 1 and 8 are never set, by any step (60 R271). -/
def Obligations.ReservedCausesStayClear : Prop :=
  ∀ s t : State, s.ecause.getLsbD 1 = false → s.ecause.getLsbD 8 = false → step s = .next t →
    t.ecause.getLsbD 1 = false ∧ t.ecause.getLsbD 8 = false

/-! ## The host's side -/

/-- What a host write does, for every slot. While BUSY = 1 (70 R321): operand and command writes are dropped and flagged, STATUS
is left, IE and HSTAT take effect at once, the other slots ignore it. While BUSY = 0: operands are stored (10_state R22, R25),
STATUS changes nothing but DONE, and that only by a written bit 2 (R28), IE keeps bits 1:0 (R34), HSTAT is cleared by ones (R39),
read-only and reserved slots ignore it (R24). The acceptance of a command is a statement of its own. -/
def Obligations.HostWritesByBusyAndSlot : Prop :=
  ∀ (s : State) (slot : Fin 32) (v : Word64) (rest : List HostEvent), s.inputs = .wr slot v :: rest →
    let t := { s with inputs := rest }
    (s.busy = true →
        (slot.val ≤ 8 → step s = .next { t with hstat := s.hstat ||| 2 })
          ∧ (slot = 16 → step s = .next { t with hstat := s.hstat ||| 1 })
          ∧ (slot = 17 → step s = .next t))
      ∧ (s.busy = false →
          (slot = 0 → step s = .next { t with x := { s.x with src := v } })
            ∧ (slot = 1 → step s = .next { t with x := { s.x with dst := v } })
            ∧ (slot = 2 → step s = .next { t with x := { s.x with len := v } })
            ∧ (slot = 3 → step s = .next { t with x := { s.x with cap := v } })
            ∧ (slot = 4 → step s = .next { t with x := { s.x with pa := v } })
            ∧ (slot = 5 → step s = .next { t with x := { s.x with pb := v } })
            ∧ (slot = 6 → step s = .next { t with x := { s.x with nt := v } })
            ∧ (slot = 7 → step s = .next { t with x := { s.x with bd := v } })
            ∧ (slot = 8 → step s = .next { t with x := { s.x with bp := v.setWidth 8 } })
            ∧ (slot = 17 → step s = .next { t with done := s.done && !v.getLsbD 2 }))
      ∧ (slot = 23 → step s = .next { t with ie := v.setWidth 2 })
      ∧ (slot = 24 → step s = .next { t with hstat := s.hstat &&& ~~~(v.setWidth 2) })
      ∧ (8 < slot.val → slot ∉ [16, 17, 23, 24] → step s = .next t)

/-- What a host read of every slot gives (10_state R22, R24, R25, R27 to R34, R39, R42), and that a read changes nothing but the
readings and, in flight, the counter of free values (log entries 1, 9). While BUSY = 1 the result registers and the bits ERR and
CORR of STATUS are free, every other slot reads its defined value (70 R323; log entry 7). Reserved slots ignore writes too. -/
def Obligations.HostReadsGiveTheSlotValues : Prop :=
  (∀ (s : State) (slot : Fin 32) (rest : List HostEvent), s.inputs = .rd slot :: rest →
      step s = .next { s with
        inputs := rest, draws := if s.busy then s.draws + 1 else s.draws,
        reads := s.reads ++ [.reg slot (hostReadValue s (Config.freeReg s.draws) slot)] })
    ∧ (∀ (s : State) (v : Word64) (slot : Nat), (9 ≤ slot ∧ slot ≤ 15) ∨ (26 ≤ slot ∧ slot ≤ 31) → hostWrite slot v s = s)
    ∧ ∀ (s : State) (free : Word64),
        let rd := hostReadValue s free
        (rd 0 = s.x.src ∧ rd 1 = s.x.dst ∧ rd 2 = s.x.len ∧ rd 3 = s.x.cap ∧ rd 4 = s.x.pa ∧ rd 5 = s.x.pb ∧ rd 6 = s.x.nt
            ∧ rd 7 = s.x.bd ∧ (rd 8).toNat = s.x.bp.toNat)
          ∧ (∀ slot, (9 ≤ slot ∧ slot ≤ 15) ∨ (26 ≤ slot ∧ slot ≤ 31) → rd slot = 0)
          ∧ (rd 16).toNat = s.cmd.toNat ∧ (rd 23).toNat = s.ie.toNat ∧ (rd 24).toNat = s.hstat.toNat
          ∧ (rd 25).toNat = 0x41524301 + s.platform.nlanes % 2 ^ 16 * 2 ^ 32
          ∧ ((rd 17).getLsbD 0 = s.init ∧ (rd 17).getLsbD 1 = s.busy ∧ (rd 17).getLsbD 2 = s.done ∧ (rd 17).getLsbD 3 = s.ok
              ∧ ∀ n, 6 ≤ n → (rd 17).getLsbD n = false)
          ∧ (s.busy = false →
              ((rd 17).getLsbD 4 = true ↔ s.ecause &&& 0x7FF7 ≠ 0) ∧ (rd 17).getLsbD 5 = s.ecause.getLsbD 3
                ∧ (rd 18).toNat = s.ecause.toNat ∧ rd 19 = s.olen ∧ rd 20 = s.corrcnt ∧ rd 21 = s.einfo ∧ rd 22 = s.cpos)
          ∧ (s.busy = true →
              (rd 17).getLsbD 4 = free.getLsbD 4 ∧ (rd 17).getLsbD 5 = free.getLsbD 5
                ∧ ∀ slot, 18 ≤ slot ∧ slot ≤ 22 → rd slot = free)

/-- A write to an operand register while BUSY = 0 is read back, of BP bits 7:0 only, and no other slot reads differently
(10_state R22, R23, R25). -/
def Obligations.OperandWritesReadBack : Prop :=
  ∀ (s : State) (slot : Nat) (v free : Word64), s.busy = false → slot ≤ 8 →
    hostReadValue (hostWrite slot v s) free slot = (if slot = 8 then v &&& 0xFF else v)
      ∧ ∀ other, other ≠ slot → hostReadValue (hostWrite slot v s) free other = hostReadValue s free other

/-- An idle engine keeps all state (60 R306): with no event left, with a `tick` (which is used up), and with a `WAIT` that polls in
vain (which stays). A `WAIT` that sees DONE = 1 is used up and changes nothing else (30 R109). The list of events is the model's
(log entry 1). With no command in flight, the result registers and OK hold until the next acceptance or reset, whatever else the
host does (60 R294). -/
def Obligations.IdleEngineKeepsStateAndResultsHold : Prop :=
  (∀ s : State, s.busy = false →
      (s.inputs = [] → step s = .next s)
        ∧ (∀ rest, s.inputs = .tick :: rest → step s = .next { s with inputs := rest })
        ∧ ∀ rest, s.inputs = .wait :: rest → s.done = false → step s = .next s)
    ∧ (∀ (s : State) (rest : List HostEvent), s.inputs = .wait :: rest → s.done = true →
        step s = .next { s with inputs := rest })
    ∧ ∀ (s t : State) (e : HostEvent) (rest : List HostEvent), s.busy = false → s.inputs = e :: rest →
        startsOrResets s.platform e = false → step s = .next t →
        t.busy = false ∧ t.ok = s.ok ∧ t.ecause = s.ecause ∧ t.olen = s.olen ∧ t.corrcnt = s.corrcnt ∧ t.einfo = s.einfo
          ∧ t.cpos = s.cpos

/-- Reset puts every register at its reset value and makes the table store unspecified; of memory only the destination window of
a command in flight changes, to unspecified (10_state R47, 70 R310, R311, R313). That reset is one event, and that it leaves
platform, events, readings and draws, is the model's (log entry 12). -/
def Obligations.ResetRestoresEveryRegister : Prop :=
  ∀ (s : State) (rest : List HostEvent), s.inputs = .reset :: rest →
    ∃ t : State, step s = .next t
      ∧ t.x = ⟨0, 0, 0, 0, 0, 0, 0, 0, 0⟩ ∧ t.cmd = 0 ∧ t.status = 0 ∧ t.init = false ∧ t.busy = false ∧ t.done = false
      ∧ t.ok = false ∧ t.ecause = 0 ∧ t.olen = 0 ∧ t.corrcnt = 0 ∧ t.einfo = 0 ∧ t.cpos = 0 ∧ t.ie = 0 ∧ t.hstat = 0
      ∧ t.irq = false ∧ (∀ r f, tableRead t.tables r f = match r with
          | .h8 _ => f
          | .h1 _ | .s1 _ | .s8 _ => f &&& 0xFF)
      ∧ t.platform = s.platform ∧ t.inputs = rest ∧ t.reads = s.reads ∧ t.draws = s.draws
      ∧ (s.busy = false → t.mem = s.mem)
      ∧ SameOutside s.mem t.mem (dstAddr s) (flightNeed { s with inputs := rest })
      ∧ UnspecifiedAt t.mem (dstAddr s) (flightNeed { s with inputs := rest })

/-- The slot at BASE + 8 n is reached by an aligned 64-bit bus access as by its number; other accesses to the window are
refused by a name of the model's (10_state R21; log entries 13, 18). The window is no plain memory: no stream command may use a
byte of it, and outside it only the platform's denied regions take bytes away (20_memory R63, R68). An access past the address
space faults (log entry 14). -/
def Obligations.RegisterWindowHasSlotAccessesOnly : Prop :=
  (∀ (s : State) (rest : List HostEvent), s.platform.wellFormed = true →
      (∀ (n : Fin 32) (v : Word64),
          step { s with inputs := .busWr (s.platform.base + 8 * n.val) 8 v :: rest } = step { s with inputs := .wr n v :: rest }
            ∧ step { s with inputs := .busRd (s.platform.base + 8 * n.val) 8 :: rest }
                = step { s with inputs := .rd n :: rest })
        ∧ ∀ (addr width : Nat) (v : Word64), s.platform.base ≤ addr → addr < s.platform.base + 256 →
            (width ≠ 8 ∨ addr % 8 ≠ 0) →
            step { s with inputs := .busWr addr width v :: rest } = .refused (.registerAccessShape addr width)
              ∧ step { s with inputs := .busRd addr width :: rest } = .refused (.registerAccessShape addr width))
    ∧ (∀ (s : State) (a : Nat) (bs : List Byte) (rest : List HostEvent),
        (2 ^ 64 < a + bs.length →
            step { s with inputs := .poke a bs :: rest } = .fault (.addressOutsideSpace a)
              ∧ step { s with inputs := .peek a bs.length :: rest } = .fault (.addressOutsideSpace a))
          ∧ (a + bs.length ≤ 2 ^ 64 → ¬ PlainAccess s a bs.length →
              step { s with inputs := .poke a bs :: rest } = .refused (.registerAccessShape a bs.length)
                ∧ step { s with inputs := .peek a bs.length :: rest } = .refused (.registerAccessShape a bs.length)))
    ∧ ∀ (p : Platform) (a n : Nat),
        (memReadable p a n = true ↔ ∀ x, a ≤ x → x < a + n → ¬ (p.base ≤ x ∧ x < p.base + 256)
            ∧ ∀ r ∈ p.denied, r.noRead = true → ¬ (r.base ≤ x ∧ x < r.base + r.size))
          ∧ (memWritable p a n = true ↔ ∀ x, a ≤ x → x < a + n → ¬ (p.base ≤ x ∧ x < p.base + 256)
              ∧ ∀ r ∈ p.denied, r.noWrite = true → ¬ (r.base ≤ x ∧ x < r.base + r.size))

/-- A host that does not write `c[CMD]` or an operand register while BUSY = 1 never sets a flag of HSTAT (70 R320, R321). -/
def Obligations.PoliteHostNeverSetsHstat : Prop :=
  ∀ s t : State, s.hstat = 0 → (∀ e rest, s.inputs = e :: rest → politeEvent s e = true) → step s = .next t → t.hstat = 0

/-- The interrupt line: high exactly when DONE and an enabled condition hold; low with IE = 0, after the acknowledge, and from
the acceptance of the next command (60 R285). -/
def Obligations.InterruptLineFollowsStatus : Prop :=
  ∀ (s : State) (v : Word64),
    (s.irq = true ↔ s.done = true ∧ (s.ie.getLsbD 0 = true ∨ (s.ie.getLsbD 1 = true ∧ s.ecause &&& 0x7FF7 ≠ 0)))
      ∧ (s.ie = 0 → s.irq = false) ∧ (s.busy = false → (hostWrite 17 4 s).irq = false)
      ∧ (s.busy = false → (hostWrite 16 v s).irq = false)

/-! ## The invariant -/

/-- Every step keeps the invariant of the machine, from every state that has it (see `Inv`). -/
def Obligations.StepKeepsTheMachineInvariant : Prop := ∀ s t : State, Inv s → step s = .next t → Inv t

/-- The state after reset has it. -/
def Obligations.ResetStateMeetsTheMachineInvariant : Prop := Inv State.reset
end

