-- ==== Sys2Proof/Laws/Bytes.lean ====
section
/-! SUPPORT. The laws of byte sequences and bits (00_scope R8, R10; 40_block_kernels R130, R131): big- and little-endian
conversions and their inverses, parity of an XOR, the bits of a byte made from a list. -/

namespace Sys2Proof.Machine

@[simp] theorem be32_length (v : Nat) : (be32 v).length = 4 := rfl

/-- A 4-byte header field reads back what was written (20_memory R66). -/
theorem ube32_be32 {v : Nat} (h : v < 4294967296) : ube32 (be32 v) = v := by
  simp only [ube32, be32, List.foldl_cons, List.foldl_nil, BitVec.toNat_ofNat]
  omega

theorem ube32_lt {b : List Byte} (h : b.length = 4) : ube32 b < 4294967296 := by
  match b, h with
  | [p, q, r, t], _ =>
    simp only [ube32, List.foldl_cons, List.foldl_nil]
    have := p.isLt
    have := q.isLt
    have := r.isLt
    have := t.isLt
    omega

@[simp] theorem bytesLE_length (n v : Nat) : (bytesLE n v).length = n := by
  induction n generalizing v with
  | zero => rfl
  | succ n ih => simp [bytesLE, ih]

theorem le_lt (bs : List Byte) : le bs < 2 ^ (8 * bs.length) := by
  induction bs with
  | nil => simp [le]
  | cons b bs ih =>
    have := b.isLt
    simp only [le, List.length_cons, show 8 * (bs.length + 1) = 8 * bs.length + 8 by ring, Nat.pow_add]
    omega

/-- The bytes of the little-endian value of a sequence are the sequence. -/
@[simp] theorem bytesLE_le (bs : List Byte) : bytesLE bs.length (le bs) = bs := by
  induction bs with
  | nil => rfl
  | cons b bs ih =>
    have hb := b.isLt
    have h1 : BitVec.ofNat 8 (b.toNat + 256 * le bs) = b := by
      apply BitVec.eq_of_toNat_eq
      simp only [BitVec.toNat_ofNat]
      omega
    have h2 : (b.toNat + 256 * le bs) / 256 = le bs := by omega
    simp [bytesLE, le, h1, h2, ih]

theorem le_bytesLE {n v : Nat} (h : v < 2 ^ (8 * n)) : le (bytesLE n v) = v := by
  induction n generalizing v with
  | zero => simp only [Nat.mul_zero, Nat.pow_zero] at h; simp [bytesLE, le]; omega
  | succ n ih =>
    rw [show 8 * (n + 1) = 8 * n + 8 by ring, Nat.pow_add] at h
    simp only [bytesLE, le, ih (v := v / 256) (by omega), BitVec.toNat_ofNat]
    omega

@[simp] theorem xorBits_cons (b : Bool) (bs : List Bool) : xorBits (b :: bs) = Bool.xor b (xorBits bs) := rfl

/-- The XOR of pointwise XORs is the XOR of the XORs. -/
theorem xorBits_map_xor {α : Type} (l : List α) (f g : α → Bool) :
    xorBits (l.map fun a => Bool.xor (f a) (g a)) = Bool.xor (xorBits (l.map f)) (xorBits (l.map g)) := by
  induction l with
  | nil => rfl
  | cons a l ih => simp only [List.map_cons, xorBits_cons, ih]; cases f a <;> cases g a <;> simp

/-- Parity is linear (40 R130). -/
theorem parity_xor {n : Nat} (a b : BitVec n) : parity (a ^^^ b) = Bool.xor (parity a) (parity b) := by
  simp only [parity, ← xorBits_map_xor]
  congr 1
  exact List.map_congr_left fun i _ => BitVec.getLsbD_xor

@[simp] theorem bitByte_getLsbD (b : Bool) (i : Nat) : (bitByte b).getLsbD i = (decide (i = 0) && b) := by
  cases b
  · simp [bitByte]
  · by_cases h : i = 0
    · simp [h, bitByte]
    · simp [h, bitByte, BitVec.getLsbD_one]

/-- Bit `i` of a byte made from a list is entry `i` of the list. -/
theorem bitsToByte_getLsbD (bs : List Bool) (i : Nat) :
    (bitsToByte bs).getLsbD i = (decide (i < 8) && bs.getD i false) := by
  induction bs generalizing i with
  | nil => simp [bitsToByte]
  | cons b bs ih =>
    simp only [bitsToByte, BitVec.getLsbD_or, bitByte_getLsbD, BitVec.getLsbD_shiftLeft, ih]
    cases i with
    | zero => simp
    | succ i =>
      by_cases h : i + 1 < 8
      · simp [h, show i < 8 by omega]
      · simp [h]

/-- Row `i` of the product is bit `i` (40 R131). -/
theorem pcm_getLsbD (rows : List Word64) (d : Word64) (i : Nat) :
    (pcm rows d).getLsbD i = (decide (i < 8) && (rows.map fun h => parity (d &&& h)).getD i false) :=
  bitsToByte_getLsbD _ i

end Sys2Proof.Machine
end

