-- ==== Sys2Proof/Laws/Kernel.lean ====
section
/-! SUPPORT. What the syndrome search and the correction of one position can do, for any table contents (40 R135 to R139). -/

namespace Sys2Proof.Machine

/-- The search finds the smallest position that holds the syndrome. -/
theorem synLookup_of_hit {syn : List Byte} {s : Byte} {p : Nat} (h : SmallestHit syn s p) : synLookup syn s = some p := by
  obtain ⟨hp, e⟩ := List.getElem?_eq_some_iff.1 h.1
  refine List.findIdx?_eq_some_iff_getElem.2 ⟨hp, by simp [e], fun j hj => ?_⟩
  simpa [List.getElem?_eq_getElem (Nat.lt_trans hj hp)] using h.2 j hj

/-- The search finds nothing where no position holds the syndrome. -/
theorem synLookup_of_miss {syn : List Byte} {s : Byte} (h : NoHit syn s) : synLookup syn s = none := by
  refine List.findIdx?_eq_none_iff.2 fun x hx => ?_
  obtain ⟨i, hi, rfl⟩ := List.mem_iff_getElem.1 hx
  simpa [List.getElem?_eq_getElem hi] using h i

/-- The correction of a position flips that bit and verifies the result, or fails and leaves the pair. -/
theorem correctAt_flipsAndVerifies (enc : Word64 → Byte) (chk : Byte) (d : Word64) (p : Nat) :
    FlipsAndVerifies enc chk d p (correctAt enc chk d p) := by
  unfold FlipsAndVerifies correctAt flipBit
  rcases Nat.lt_or_ge p 8 with h | h
  · simp only [h, Nat.le_of_lt_succ h, if_true]
    constructor <;> intro e <;> simp_all [BitVec.xor_eq_zero_iff]
  · simp only [Nat.not_lt.2 h, show ¬p ≤ 7 by omega, if_false]
    constructor <;> intro e <;> simp_all [BitVec.xor_eq_zero_iff]

end Sys2Proof.Machine
end

