-- ==== Sys2Proof/Laws/Memory.lean ====
section
/-! SUPPORT. The laws of memory: what a read gives after each operation (read after write, every other place left alone), and
that every operation keeps the canonical form `Memory.wf` and the address space `Memory.inSpace`. -/

namespace Sys2Proof.Machine

/-! ## The listed cells -/

@[simp] theorem mem_dropCell {a : Nat} {c : Host.Cell} {cs : List Host.Cell} : c ∈ dropCell a cs ↔ c ∈ cs ∧ c.1 ≠ a := by
  simp [dropCell]

@[simp] theorem mem_insertCell {a : Nat} {b : Byte} {c : Host.Cell} {cs : List Host.Cell} :
    c ∈ insertCell a b cs ↔ c = (a, b) ∨ c ∈ cs := by
  induction cs with
  | nil => simp [insertCell]
  | cons d ds ih =>
    simp only [insertCell]
    split
    · simp only [List.mem_cons, ih]; tauto
    · simp

theorem lookCell_dropCell (a x : Nat) (cs : List Host.Cell) :
    lookCell x (dropCell a cs) = if x = a then Memory.unlisted else lookCell x cs := by
  induction cs with
  | nil => simp [dropCell, lookCell]
  | cons c cs ih =>
    simp only [dropCell] at ih
    by_cases h : c.1 = a
    · simp only [dropCell, List.filter_cons, h, bne_self_eq_false, Bool.false_eq_true, if_false, ih, lookCell]
      by_cases hx : x = a
      · simp [hx]
      · simp [hx, Ne.symm hx]
    · simp only [dropCell, List.filter_cons, bne_iff_ne, ne_eq, h, not_false_eq_true, if_true, lookCell, ih]
      by_cases hx : c.1 = x
      · simp [hx, show x ≠ a from hx ▸ h]
      · simp [hx]

theorem lookCell_insertCell {a : Nat} (b : Byte) (x : Nat) {cs : List Host.Cell} (h : ∀ c ∈ cs, c.1 ≠ a) :
    lookCell x (insertCell a b cs) = if x = a then b else lookCell x cs := by
  induction cs with
  | nil =>
    by_cases hx : x = a
    · simp [insertCell, lookCell, hx]
    · simp [insertCell, lookCell, hx, Ne.symm hx]
  | cons c cs ih =>
    have hc : c.1 ≠ a := h c (by simp)
    simp only [insertCell]
    split
    · rw [lookCell, ih fun d hd => h d (by simp [hd]), lookCell]
      by_cases hx : c.1 = x
      · simp [hx, show x ≠ a from hx ▸ hc]
      · simp [hx]
    · by_cases hx : x = a
      · simp [lookCell, hx]
      · simp [lookCell, hx, Ne.symm hx]

theorem dropCell_sorted {a : Nat} {cs : List Host.Cell} (h : (cs.map Prod.fst).Pairwise (· < ·)) :
    ((dropCell a cs).map Prod.fst).Pairwise (· < ·) :=
  h.sublist (List.filter_sublist.map _)

theorem insertCell_sorted {a : Nat} {b : Byte} {cs : List Host.Cell} (h : (cs.map Prod.fst).Pairwise (· < ·))
    (ha : ∀ c ∈ cs, c.1 ≠ a) : ((insertCell a b cs).map Prod.fst).Pairwise (· < ·) := by
  induction cs with
  | nil => simp [insertCell]
  | cons c cs ih =>
    simp only [List.map_cons, List.pairwise_cons] at h
    have hca := ha c (by simp)
    simp only [insertCell]
    split
    · rename_i hlt
      simp only [List.map_cons, List.pairwise_cons]
      refine ⟨?_, ih h.2 fun d hd => ha d (by simp [hd])⟩
      intro y hy
      obtain ⟨d, hd, rfl⟩ := List.mem_map.1 hy
      rcases mem_insertCell.1 hd with rfl | hd
      · exact hlt
      · exact h.1 _ (List.mem_map_of_mem hd)
    · rename_i hge
      simp only [List.map_cons, List.pairwise_cons]
      refine ⟨?_, h⟩
      intro y hy
      rcases List.mem_cons.1 hy with rfl | hy
      · omega
      · have := h.1 y hy; omega

/-! ## The unspecified addresses -/

@[simp] theorem mem_dropAddr {a x : Nat} {xs : List Nat} : x ∈ dropAddr a xs ↔ x ∈ xs ∧ x ≠ a := by simp [dropAddr]

@[simp] theorem mem_insertAddr {a x : Nat} {xs : List Nat} : x ∈ insertAddr a xs ↔ x = a ∨ x ∈ xs := by
  induction xs with
  | nil => simp [insertAddr]
  | cons y ys ih =>
    simp only [insertAddr]
    split
    · simp only [List.mem_cons, ih]; tauto
    · simp

theorem dropAddr_sorted {a : Nat} {xs : List Nat} (h : xs.Pairwise (· < ·)) : (dropAddr a xs).Pairwise (· < ·) :=
  h.sublist List.filter_sublist

theorem insertAddr_sorted {a : Nat} {xs : List Nat} (h : xs.Pairwise (· < ·)) (ha : a ∉ xs) :
    (insertAddr a xs).Pairwise (· < ·) := by
  induction xs with
  | nil => simp [insertAddr]
  | cons y ys ih =>
    simp only [List.pairwise_cons] at h
    simp only [List.mem_cons, not_or] at ha
    simp only [insertAddr]
    split
    · rename_i hlt
      simp only [List.pairwise_cons, mem_insertAddr]
      exact ⟨fun z hz => hz.elim (fun e => e ▸ hlt) (h.1 z), ih h.2 ha.2⟩
    · rename_i hge
      have hya := ha.1
      simp only [List.pairwise_cons, List.mem_cons]
      exact ⟨fun z hz => hz.elim (fun e => by omega) (fun hz => by have := h.1 z hz; omega), h⟩

/-! ## Reads after each operation -/

@[simp] theorem look_write (m : Memory) (a : Nat) (b : Byte) (x : Nat) :
    (m.write a b).look x = if x = a then some b else m.look x := by
  simp only [Memory.look, Memory.write, mem_dropAddr]
  by_cases hx : x = a
  · subst hx
    by_cases hb : b = Memory.unlisted
    · simp [hb, lookCell_dropCell]
    · simp [hb, lookCell_insertCell]
  · by_cases hb : b = Memory.unlisted
    · simp [hb, hx, lookCell_dropCell]
    · simp [hb, hx, lookCell_insertCell, lookCell_dropCell]

@[simp] theorem look_blur (m : Memory) (a x : Nat) : (m.blur a).look x = if x = a then none else m.look x := by
  simp only [Memory.look, Memory.blur, mem_insertAddr, mem_dropAddr, lookCell_dropCell]
  by_cases hx : x = a <;> simp [hx]

theorem look_writeBytes (m : Memory) (a : Nat) (bs : List Byte) (x : Nat) :
    (m.writeBytes a bs).look x = if a ≤ x ∧ x < a + bs.length then bs[x - a]? else m.look x := by
  induction bs generalizing m a with
  | nil => rw [if_neg (by simp only [List.length_nil]; omega)]; rfl
  | cons b bs ih =>
    rw [Memory.writeBytes, ih, look_write, List.length_cons]
    by_cases h : a + 1 ≤ x ∧ x < a + 1 + bs.length
    · rw [if_pos h, if_pos (by omega), show x - a = (x - (a + 1)) + 1 by omega, List.getElem?_cons_succ]
    · rw [if_neg h]
      by_cases hx : x = a
      · rw [if_pos hx, if_pos (by omega)]; simp [hx]
      · rw [if_neg hx, if_neg (by omega)]

theorem look_blurRange (m : Memory) (a n x : Nat) :
    (m.blurRange a n).look x = if a ≤ x ∧ x < a + n then none else m.look x := by
  induction n generalizing m a with
  | zero => rw [if_neg (by omega)]; rfl
  | succ n ih =>
    rw [Memory.blurRange, ih, look_blur]
    by_cases h : a + 1 ≤ x ∧ x < a + 1 + n
    · rw [if_pos h, if_pos (by omega)]
    · rw [if_neg h]
      by_cases hx : x = a
      · rw [if_pos hx, if_pos (by omega)]
      · rw [if_neg hx, if_neg (by omega)]

theorem look_blurAll (m : Memory) (as : List Nat) (x : Nat) :
    (m.blurAll as).look x = if x ∈ as then none else m.look x := by
  induction as generalizing m with
  | nil => simp [Memory.blurAll]
  | cons a as ih =>
    have := ih (m.blur a)
    simp only [Memory.blurAll] at this
    simp only [Memory.blurAll, List.foldl_cons, this, look_blur, List.mem_cons]
    by_cases hx : x = a <;> by_cases h : x ∈ as <;> simp [hx, h]

/-! ## The canonical form is kept -/

theorem write_wf {m : Memory} (h : m.wf) (a : Nat) (b : Byte) : (m.write a b).wf := by
  obtain ⟨hs, hne, hw, hd⟩ := h
  have hdrop : ∀ c ∈ dropCell a m.cells, c.1 ≠ a := fun c hc => (mem_dropCell.1 hc).2
  by_cases hb : b = Memory.unlisted
  · refine ⟨?_, ?_, dropAddr_sorted hw, ?_⟩ <;> simp only [Memory.write, hb, if_true]
    · exact dropCell_sorted hs
    · exact fun c hc => hne c (mem_dropCell.1 hc).1
    · exact fun c hc hc' => hd c (mem_dropCell.1 hc).1 (mem_dropAddr.1 hc').1
  · refine ⟨?_, ?_, dropAddr_sorted hw, ?_⟩ <;> simp only [Memory.write, hb, if_false]
    · exact insertCell_sorted (dropCell_sorted hs) hdrop
    · intro c hc
      rcases mem_insertCell.1 hc with rfl | hc
      · exact hb
      · exact hne c (mem_dropCell.1 hc).1
    · intro c hc hc'
      rcases mem_insertCell.1 hc with rfl | hc
      · exact (mem_dropAddr.1 hc').2 rfl
      · exact hd c (mem_dropCell.1 hc).1 (mem_dropAddr.1 hc').1

theorem blur_wf {m : Memory} (h : m.wf) (a : Nat) : (m.blur a).wf := by
  obtain ⟨hs, hne, hw, hd⟩ := h
  refine ⟨dropCell_sorted hs, fun c hc => hne c (mem_dropCell.1 hc).1,
    insertAddr_sorted (dropAddr_sorted hw) (by simp), ?_⟩
  intro c hc hc'
  obtain ⟨hc, hca⟩ := mem_dropCell.1 hc
  rcases mem_insertAddr.1 hc' with h' | h'
  · exact hca h'
  · exact hd c hc (mem_dropAddr.1 h').1

theorem writeBytes_wf {m : Memory} (h : m.wf) (a : Nat) (bs : List Byte) : (m.writeBytes a bs).wf := by
  induction bs generalizing m a with
  | nil => exact h
  | cons b bs ih => exact ih (write_wf h a b) (a + 1)

theorem blurRange_wf {m : Memory} (h : m.wf) (a n : Nat) : (m.blurRange a n).wf := by
  induction n generalizing m a with
  | zero => exact h
  | succ n ih => exact ih (blur_wf h a) (a + 1)

theorem blurAll_wf {m : Memory} (h : m.wf) (as : List Nat) : (m.blurAll as).wf := by
  induction as generalizing m with
  | nil => exact h
  | cons a as ih => exact ih (blur_wf h a)

/-! ## The address space is kept -/

theorem write_inSpace {m : Memory} (h : m.inSpace) {a : Nat} (ha : a < addressSpace) (b : Byte) :
    (m.write a b).inSpace := by
  refine ⟨?_, fun x hx => h.2 x (mem_dropAddr.1 hx).1⟩
  by_cases hb : b = Memory.unlisted <;> simp only [Memory.write, hb, if_true, if_false]
  · exact fun c hc => h.1 c (mem_dropCell.1 hc).1
  · intro c hc
    rcases mem_insertCell.1 hc with rfl | hc
    · exact ha
    · exact h.1 c (mem_dropCell.1 hc).1

theorem blur_inSpace {m : Memory} (h : m.inSpace) {a : Nat} (ha : a < addressSpace) : (m.blur a).inSpace := by
  refine ⟨fun c hc => h.1 c (mem_dropCell.1 hc).1, fun x hx => ?_⟩
  rcases mem_insertAddr.1 hx with rfl | hx
  · exact ha
  · exact h.2 x (mem_dropAddr.1 hx).1

theorem writeBytes_inSpace {m : Memory} (h : m.inSpace) {a : Nat} {bs : List Byte} (ha : a + bs.length ≤ addressSpace) :
    (m.writeBytes a bs).inSpace := by
  induction bs generalizing m a with
  | nil => exact h
  | cons b bs ih =>
    simp only [List.length_cons] at ha
    exact ih (write_inSpace h (by omega) b) (by omega)

theorem blurRange_inSpace {m : Memory} (h : m.inSpace) {a n : Nat} (ha : a + n ≤ addressSpace) :
    (m.blurRange a n).inSpace := by
  induction n generalizing m a with
  | zero => exact h
  | succ n ih => exact ih (blur_inSpace h (by omega)) (by omega)

theorem blurAll_inSpace {m : Memory} (h : m.inSpace) {as : List Nat} (ha : ∀ a ∈ as, a < addressSpace) :
    (m.blurAll as).inSpace := by
  induction as generalizing m with
  | nil => exact h
  | cons a as ih => exact ih (blur_inSpace h (ha a (by simp))) fun x hx => ha x (by simp [hx])

/-! ## Equal memories are equal data -/

theorem lookCell_eq_of_mem {cs : List Host.Cell} (h : (cs.map Prod.fst).Pairwise (· < ·)) {c : Host.Cell} (hc : c ∈ cs) :
    lookCell c.1 cs = c.2 := by
  induction cs with
  | nil => cases hc
  | cons d ds ih =>
    simp only [List.map_cons, List.pairwise_cons] at h
    rcases List.mem_cons.1 hc with rfl | hc
    · simp [lookCell]
    · have := h.1 c.1 (List.mem_map_of_mem hc)
      rw [lookCell, if_neg (by omega), ih h.2 hc]

theorem mem_of_lookCell {cs : List Host.Cell} {a : Nat} (h : lookCell a cs ≠ Memory.unlisted) : (a, lookCell a cs) ∈ cs := by
  induction cs with
  | nil => exact absurd rfl h
  | cons d ds ih =>
    simp only [lookCell] at h ⊢
    split
    · rename_i hd; rw [← hd]; exact List.mem_cons_self
    · rename_i hd; rw [if_neg hd] at h; exact List.mem_cons_of_mem _ (ih h)

/-- In canonical form a memory lists exactly the bytes that differ from an unlisted one. -/
theorem mem_cells_iff {m : Memory} (h : m.wf) (c : Host.Cell) :
    c ∈ m.cells ↔ m.look c.1 = some c.2 ∧ c.2 ≠ Memory.unlisted := by
  obtain ⟨hs, hne, -, hd⟩ := h
  constructor
  · intro hc
    exact ⟨by simp [Memory.look, hd c hc, lookCell_eq_of_mem hs hc], hne c hc⟩
  · rintro ⟨hl, hn⟩
    simp only [Memory.look] at hl
    split at hl
    · cases hl
    · simp only [Option.some.injEq] at hl
      have := mem_of_lookCell (cs := m.cells) (a := c.1) (by rw [hl]; exact hn)
      rwa [hl] at this

/-- Two memories in canonical form in which every byte reads the same are equal. -/
theorem memory_ext {m m' : Memory} (h : m.wf) (h' : m'.wf) (hl : ∀ a, m.look a = m'.look a) : m = m' := by
  have hc : m.cells = m'.cells := by
    have hp : m.cells.Perm m'.cells := by
      refine (List.perm_ext_iff_of_nodup ?_ ?_).2 fun c => by rw [mem_cells_iff h, mem_cells_iff h', hl]
      · exact (List.pairwise_map.1 h.1).imp fun hlt he => by rw [he] at hlt; omega
      · exact (List.pairwise_map.1 h'.1).imp fun hlt he => by rw [he] at hlt; omega
    refine hp.eq_of_pairwise (le := fun c d => c.1 < d.1) ?_ (List.pairwise_map.1 h.1) (List.pairwise_map.1 h'.1)
    intro a b _ _ h1 h2
    omega
  have hw : m.wild = m'.wild := by
    have hmem : ∀ a, a ∈ m.wild ↔ a ∈ m'.wild := by
      intro a
      have := hl a
      simp only [Memory.look] at this
      by_cases h1 : a ∈ m.wild <;> by_cases h2 : a ∈ m'.wild <;> simp_all
    have hp : m.wild.Perm m'.wild :=
      (List.perm_ext_iff_of_nodup (h.2.2.1.imp Nat.ne_of_lt) (h'.2.2.1.imp Nat.ne_of_lt)).2 hmem
    refine hp.eq_of_pairwise (le := (· < ·)) ?_ h.2.2.1 h'.2.2.1
    intro a b _ _ h1 h2
    omega
  cases m
  cases m'
  simp_all

theorem empty_wf : Memory.empty.wf := by decide

theorem reset_memory_wf : State.reset.mem.wf := empty_wf

@[simp] theorem look_empty (a : Nat) : Memory.empty.look a = some Memory.unlisted := by
  simp [Memory.empty, Memory.look, lookCell]

@[simp] theorem readBytes_length (m : Memory) (draw a n : Nat) : (m.readBytes draw a n).length = n := by
  simp [Memory.readBytes]

theorem readBytes_getElem? (m : Memory) (draw a n j : Nat) :
    (m.readBytes draw a n)[j]? = if j < n then some (m.read draw (a + j)) else none := by
  by_cases h : j < n <;> simp [Memory.readBytes, h]

theorem read_of_look {m : Memory} {a : Nat} {b : Byte} (h : m.look a = some b) (draw : Nat) : m.read draw a = b := by
  simp [Memory.read, h]

/-- A range meets the register window where they have a byte in common. -/
theorem meetsRegisters_iff (p : Platform) (a n : Nat) :
    meetsRegisters p a n = true ↔ ∃ x, a ≤ x ∧ x < a + n ∧ p.base ≤ x ∧ x < p.base + 256 := by
  simp only [meetsRegisters, rangesMeet, Bool.and_eq_true, decide_eq_true_eq]
  refine ⟨fun h => ⟨max a p.base, by omega⟩, ?_⟩
  rintro ⟨x, h⟩
  omega

end Sys2Proof.Machine
end

