-- ==== Sys2Proof/Laws/State.lean ====
section
/-! SUPPORT. One lemma per field per shared update of the state, each true by unfolding the update once. -/

namespace Sys2Proof.Machine

/-! Clearing the result registers (43 R250). -/

@[simp] theorem clearResults_x (s : State) : (clearResults s).x = s.x := rfl
@[simp] theorem clearResults_cmd (s : State) : (clearResults s).cmd = s.cmd := rfl
@[simp] theorem clearResults_init (s : State) : (clearResults s).init = s.init := rfl
@[simp] theorem clearResults_busy (s : State) : (clearResults s).busy = s.busy := rfl
@[simp] theorem clearResults_done (s : State) : (clearResults s).done = s.done := rfl
@[simp] theorem clearResults_ok (s : State) : (clearResults s).ok = s.ok := rfl
@[simp] theorem clearResults_ecause (s : State) : (clearResults s).ecause = 0 := rfl
@[simp] theorem clearResults_olen (s : State) : (clearResults s).olen = 0 := rfl
@[simp] theorem clearResults_corrcnt (s : State) : (clearResults s).corrcnt = 0 := rfl
@[simp] theorem clearResults_einfo (s : State) : (clearResults s).einfo = 0 := rfl
@[simp] theorem clearResults_cpos (s : State) : (clearResults s).cpos = 0 := rfl
@[simp] theorem clearResults_ie (s : State) : (clearResults s).ie = s.ie := rfl
@[simp] theorem clearResults_hstat (s : State) : (clearResults s).hstat = s.hstat := rfl
@[simp] theorem clearResults_tables (s : State) : (clearResults s).tables = s.tables := rfl
@[simp] theorem clearResults_flight (s : State) : (clearResults s).flight = s.flight := rfl
@[simp] theorem clearResults_mem (s : State) : (clearResults s).mem = s.mem := rfl
@[simp] theorem clearResults_platform (s : State) : (clearResults s).platform = s.platform := rfl
@[simp] theorem clearResults_inputs (s : State) : (clearResults s).inputs = s.inputs := rfl
@[simp] theorem clearResults_reads (s : State) : (clearResults s).reads = s.reads := rfl
@[simp] theorem clearResults_draws (s : State) : (clearResults s).draws = s.draws := rfl

/-! Acceptance (43 R250, R251). -/

@[simp] theorem accept_x (v : Word64) (s : State) : (accept v s).x = s.x := rfl
@[simp] theorem accept_cmd (v : Word64) (s : State) : (accept v s).cmd = v.setWidth 32 := rfl
@[simp] theorem accept_init (v : Word64) (s : State) : (accept v s).init = s.init := rfl
@[simp] theorem accept_busy (v : Word64) (s : State) : (accept v s).busy = true := rfl
@[simp] theorem accept_done (v : Word64) (s : State) : (accept v s).done = false := rfl
@[simp] theorem accept_ok (v : Word64) (s : State) : (accept v s).ok = false := rfl
@[simp] theorem accept_ecause (v : Word64) (s : State) : (accept v s).ecause = 0 := rfl
@[simp] theorem accept_olen (v : Word64) (s : State) : (accept v s).olen = 0 := rfl
@[simp] theorem accept_corrcnt (v : Word64) (s : State) : (accept v s).corrcnt = 0 := rfl
@[simp] theorem accept_einfo (v : Word64) (s : State) : (accept v s).einfo = 0 := rfl
@[simp] theorem accept_cpos (v : Word64) (s : State) : (accept v s).cpos = 0 := rfl
@[simp] theorem accept_ie (v : Word64) (s : State) : (accept v s).ie = s.ie := rfl
@[simp] theorem accept_hstat (v : Word64) (s : State) : (accept v s).hstat = s.hstat := rfl
@[simp] theorem accept_tables (v : Word64) (s : State) : (accept v s).tables = s.tables := rfl
@[simp] theorem accept_flight (v : Word64) (s : State) : (accept v s).flight = ⟨v, s.x, s.draws, false⟩ := rfl
@[simp] theorem accept_mem (v : Word64) (s : State) : (accept v s).mem = s.mem := rfl
@[simp] theorem accept_platform (v : Word64) (s : State) : (accept v s).platform = s.platform := rfl
@[simp] theorem accept_inputs (v : Word64) (s : State) : (accept v s).inputs = s.inputs := rfl
@[simp] theorem accept_reads (v : Word64) (s : State) : (accept v s).reads = s.reads := rfl
@[simp] theorem accept_draws (v : Word64) (s : State) : (accept v s).draws = s.draws + 1 := rfl

/-! Completion (43 R260). -/

@[simp] theorem complete_x (s : State) : (complete s).x = s.x := rfl
@[simp] theorem complete_cmd (s : State) : (complete s).cmd = s.cmd := rfl
@[simp] theorem complete_init (s : State) : (complete s).init = s.init := rfl
@[simp] theorem complete_busy (s : State) : (complete s).busy = false := rfl
@[simp] theorem complete_done (s : State) : (complete s).done = true := rfl
@[simp] theorem complete_ok (s : State) : (complete s).ok = !hasError s.ecause := rfl
@[simp] theorem complete_ecause (s : State) : (complete s).ecause = s.ecause := rfl
@[simp] theorem complete_olen (s : State) : (complete s).olen = s.olen := rfl
@[simp] theorem complete_corrcnt (s : State) : (complete s).corrcnt = s.corrcnt := rfl
@[simp] theorem complete_einfo (s : State) : (complete s).einfo = s.einfo := rfl
@[simp] theorem complete_cpos (s : State) : (complete s).cpos = s.cpos := rfl
@[simp] theorem complete_ie (s : State) : (complete s).ie = s.ie := rfl
@[simp] theorem complete_hstat (s : State) : (complete s).hstat = s.hstat := rfl
@[simp] theorem complete_tables (s : State) : (complete s).tables = s.tables := rfl
@[simp] theorem complete_flight (s : State) : (complete s).flight = s.flight := rfl
@[simp] theorem complete_mem (s : State) : (complete s).mem = s.mem := rfl
@[simp] theorem complete_platform (s : State) : (complete s).platform = s.platform := rfl
@[simp] theorem complete_inputs (s : State) : (complete s).inputs = s.inputs := rfl
@[simp] theorem complete_reads (s : State) : (complete s).reads = s.reads := rfl
@[simp] theorem complete_draws (s : State) : (complete s).draws = s.draws := rfl

/-! A raise (60 R290). -/

@[simp] theorem raise_x (r : Raise) (s : State) : (raise r s).x = s.x := rfl
@[simp] theorem raise_cmd (r : Raise) (s : State) : (raise r s).cmd = s.cmd := rfl
@[simp] theorem raise_init (r : Raise) (s : State) : (raise r s).init = s.init := rfl
@[simp] theorem raise_busy (r : Raise) (s : State) : (raise r s).busy = false := rfl
@[simp] theorem raise_done (r : Raise) (s : State) : (raise r s).done = true := rfl
@[simp] theorem raise_ok (r : Raise) (s : State) : (raise r s).ok = false := rfl
@[simp] theorem raise_ecause (r : Raise) (s : State) : (raise r s).ecause = s.ecause ||| r.cause.bit := rfl
@[simp] theorem raise_olen (r : Raise) (s : State) : (raise r s).olen = 0 := rfl
@[simp] theorem raise_corrcnt (r : Raise) (s : State) : (raise r s).corrcnt = s.corrcnt := rfl
@[simp] theorem raise_einfo (r : Raise) (s : State) : (raise r s).einfo = r.info := rfl
@[simp] theorem raise_cpos (r : Raise) (s : State) : (raise r s).cpos = s.cpos := rfl
@[simp] theorem raise_ie (r : Raise) (s : State) : (raise r s).ie = s.ie := rfl
@[simp] theorem raise_hstat (r : Raise) (s : State) : (raise r s).hstat = s.hstat := rfl
@[simp] theorem raise_tables (r : Raise) (s : State) : (raise r s).tables = s.tables := rfl
@[simp] theorem raise_flight (r : Raise) (s : State) : (raise r s).flight = s.flight := rfl
@[simp] theorem raise_mem (r : Raise) (s : State) : (raise r s).mem = s.mem := rfl
@[simp] theorem raise_platform (r : Raise) (s : State) : (raise r s).platform = s.platform := rfl
@[simp] theorem raise_inputs (r : Raise) (s : State) : (raise r s).inputs = s.inputs := rfl
@[simp] theorem raise_reads (r : Raise) (s : State) : (raise r s).reads = s.reads := rfl
@[simp] theorem raise_draws (r : Raise) (s : State) : (raise r s).draws = s.draws := rfl

/-! A note (60 R292). -/

@[simp] theorem note_x (c : Cause) (i : Nat) (s : State) : (note c i s).x = s.x := rfl
@[simp] theorem note_cmd (c : Cause) (i : Nat) (s : State) : (note c i s).cmd = s.cmd := rfl
@[simp] theorem note_init (c : Cause) (i : Nat) (s : State) : (note c i s).init = s.init := rfl
@[simp] theorem note_busy (c : Cause) (i : Nat) (s : State) : (note c i s).busy = s.busy := rfl
@[simp] theorem note_done (c : Cause) (i : Nat) (s : State) : (note c i s).done = s.done := rfl
@[simp] theorem note_ok (c : Cause) (i : Nat) (s : State) : (note c i s).ok = s.ok := rfl
@[simp] theorem note_ecause (c : Cause) (i : Nat) (s : State) : (note c i s).ecause = s.ecause ||| c.bit := rfl
@[simp] theorem note_olen (c : Cause) (i : Nat) (s : State) : (note c i s).olen = s.olen := rfl
@[simp] theorem note_corrcnt (c : Cause) (i : Nat) (s : State) : (note c i s).corrcnt = s.corrcnt := rfl
@[simp] theorem note_einfo (c : Cause) (i : Nat) (s : State) : (note c i s).einfo = (if c = .singleBitCorrected then s.einfo
      else if failureNoted s.ecause && decide (s.einfo < BitVec.ofNat 64 i) then s.einfo else BitVec.ofNat 64 i) := rfl
@[simp] theorem note_cpos (c : Cause) (i : Nat) (s : State) : (note c i s).cpos = s.cpos := rfl
@[simp] theorem note_ie (c : Cause) (i : Nat) (s : State) : (note c i s).ie = s.ie := rfl
@[simp] theorem note_hstat (c : Cause) (i : Nat) (s : State) : (note c i s).hstat = s.hstat := rfl
@[simp] theorem note_tables (c : Cause) (i : Nat) (s : State) : (note c i s).tables = s.tables := rfl
@[simp] theorem note_flight (c : Cause) (i : Nat) (s : State) : (note c i s).flight = s.flight := rfl
@[simp] theorem note_mem (c : Cause) (i : Nat) (s : State) : (note c i s).mem = s.mem := rfl
@[simp] theorem note_platform (c : Cause) (i : Nat) (s : State) : (note c i s).platform = s.platform := rfl
@[simp] theorem note_inputs (c : Cause) (i : Nat) (s : State) : (note c i s).inputs = s.inputs := rfl
@[simp] theorem note_reads (c : Cause) (i : Nat) (s : State) : (note c i s).reads = s.reads := rfl
@[simp] theorem note_draws (c : Cause) (i : Nat) (s : State) : (note c i s).draws = s.draws := rfl

/-! A write to memory by the engine (20_memory R65). -/

@[simp] theorem memWrite_x (a : Nat) (bs : List Byte) (s : State) : (memWrite a bs s).x = s.x := rfl
@[simp] theorem memWrite_cmd (a : Nat) (bs : List Byte) (s : State) : (memWrite a bs s).cmd = s.cmd := rfl
@[simp] theorem memWrite_init (a : Nat) (bs : List Byte) (s : State) : (memWrite a bs s).init = s.init := rfl
@[simp] theorem memWrite_busy (a : Nat) (bs : List Byte) (s : State) : (memWrite a bs s).busy = s.busy := rfl
@[simp] theorem memWrite_done (a : Nat) (bs : List Byte) (s : State) : (memWrite a bs s).done = s.done := rfl
@[simp] theorem memWrite_ok (a : Nat) (bs : List Byte) (s : State) : (memWrite a bs s).ok = s.ok := rfl
@[simp] theorem memWrite_ecause (a : Nat) (bs : List Byte) (s : State) : (memWrite a bs s).ecause = s.ecause := rfl
@[simp] theorem memWrite_olen (a : Nat) (bs : List Byte) (s : State) : (memWrite a bs s).olen = s.olen := rfl
@[simp] theorem memWrite_corrcnt (a : Nat) (bs : List Byte) (s : State) : (memWrite a bs s).corrcnt = s.corrcnt := rfl
@[simp] theorem memWrite_einfo (a : Nat) (bs : List Byte) (s : State) : (memWrite a bs s).einfo = s.einfo := rfl
@[simp] theorem memWrite_cpos (a : Nat) (bs : List Byte) (s : State) : (memWrite a bs s).cpos = s.cpos := rfl
@[simp] theorem memWrite_ie (a : Nat) (bs : List Byte) (s : State) : (memWrite a bs s).ie = s.ie := rfl
@[simp] theorem memWrite_hstat (a : Nat) (bs : List Byte) (s : State) : (memWrite a bs s).hstat = s.hstat := rfl
@[simp] theorem memWrite_tables (a : Nat) (bs : List Byte) (s : State) : (memWrite a bs s).tables = s.tables := rfl
@[simp] theorem memWrite_flight (a : Nat) (bs : List Byte) (s : State) : (memWrite a bs s).flight = s.flight := rfl
@[simp] theorem memWrite_mem (a : Nat) (bs : List Byte) (s : State) : (memWrite a bs s).mem = s.mem.writeBytes a bs := rfl
@[simp] theorem memWrite_platform (a : Nat) (bs : List Byte) (s : State) : (memWrite a bs s).platform = s.platform := rfl
@[simp] theorem memWrite_inputs (a : Nat) (bs : List Byte) (s : State) : (memWrite a bs s).inputs = s.inputs := rfl
@[simp] theorem memWrite_reads (a : Nat) (bs : List Byte) (s : State) : (memWrite a bs s).reads = s.reads := rfl
@[simp] theorem memWrite_draws (a : Nat) (bs : List Byte) (s : State) : (memWrite a bs s).draws = s.draws := rfl

/-! Writes to `x[BP]` and `x[BD]` (10_state R23). -/

@[simp] theorem setBP_x (v : Byte) (s : State) : (setBP v s).x = { s.x with bp := v } := rfl
@[simp] theorem setBP_cmd (v : Byte) (s : State) : (setBP v s).cmd = s.cmd := rfl
@[simp] theorem setBP_init (v : Byte) (s : State) : (setBP v s).init = s.init := rfl
@[simp] theorem setBP_busy (v : Byte) (s : State) : (setBP v s).busy = s.busy := rfl
@[simp] theorem setBP_done (v : Byte) (s : State) : (setBP v s).done = s.done := rfl
@[simp] theorem setBP_ok (v : Byte) (s : State) : (setBP v s).ok = s.ok := rfl
@[simp] theorem setBP_ecause (v : Byte) (s : State) : (setBP v s).ecause = s.ecause := rfl
@[simp] theorem setBP_olen (v : Byte) (s : State) : (setBP v s).olen = s.olen := rfl
@[simp] theorem setBP_corrcnt (v : Byte) (s : State) : (setBP v s).corrcnt = s.corrcnt := rfl
@[simp] theorem setBP_einfo (v : Byte) (s : State) : (setBP v s).einfo = s.einfo := rfl
@[simp] theorem setBP_cpos (v : Byte) (s : State) : (setBP v s).cpos = s.cpos := rfl
@[simp] theorem setBP_ie (v : Byte) (s : State) : (setBP v s).ie = s.ie := rfl
@[simp] theorem setBP_hstat (v : Byte) (s : State) : (setBP v s).hstat = s.hstat := rfl
@[simp] theorem setBP_tables (v : Byte) (s : State) : (setBP v s).tables = s.tables := rfl
@[simp] theorem setBP_flight (v : Byte) (s : State) : (setBP v s).flight = s.flight := rfl
@[simp] theorem setBP_mem (v : Byte) (s : State) : (setBP v s).mem = s.mem := rfl
@[simp] theorem setBP_platform (v : Byte) (s : State) : (setBP v s).platform = s.platform := rfl
@[simp] theorem setBP_inputs (v : Byte) (s : State) : (setBP v s).inputs = s.inputs := rfl
@[simp] theorem setBP_reads (v : Byte) (s : State) : (setBP v s).reads = s.reads := rfl
@[simp] theorem setBP_draws (v : Byte) (s : State) : (setBP v s).draws = s.draws := rfl

@[simp] theorem setBD_x (v : Word64) (s : State) : (setBD v s).x = { s.x with bd := v } := rfl
@[simp] theorem setBD_cmd (v : Word64) (s : State) : (setBD v s).cmd = s.cmd := rfl
@[simp] theorem setBD_init (v : Word64) (s : State) : (setBD v s).init = s.init := rfl
@[simp] theorem setBD_busy (v : Word64) (s : State) : (setBD v s).busy = s.busy := rfl
@[simp] theorem setBD_done (v : Word64) (s : State) : (setBD v s).done = s.done := rfl
@[simp] theorem setBD_ok (v : Word64) (s : State) : (setBD v s).ok = s.ok := rfl
@[simp] theorem setBD_ecause (v : Word64) (s : State) : (setBD v s).ecause = s.ecause := rfl
@[simp] theorem setBD_olen (v : Word64) (s : State) : (setBD v s).olen = s.olen := rfl
@[simp] theorem setBD_corrcnt (v : Word64) (s : State) : (setBD v s).corrcnt = s.corrcnt := rfl
@[simp] theorem setBD_einfo (v : Word64) (s : State) : (setBD v s).einfo = s.einfo := rfl
@[simp] theorem setBD_cpos (v : Word64) (s : State) : (setBD v s).cpos = s.cpos := rfl
@[simp] theorem setBD_ie (v : Word64) (s : State) : (setBD v s).ie = s.ie := rfl
@[simp] theorem setBD_hstat (v : Word64) (s : State) : (setBD v s).hstat = s.hstat := rfl
@[simp] theorem setBD_tables (v : Word64) (s : State) : (setBD v s).tables = s.tables := rfl
@[simp] theorem setBD_flight (v : Word64) (s : State) : (setBD v s).flight = s.flight := rfl
@[simp] theorem setBD_mem (v : Word64) (s : State) : (setBD v s).mem = s.mem := rfl
@[simp] theorem setBD_platform (v : Word64) (s : State) : (setBD v s).platform = s.platform := rfl
@[simp] theorem setBD_inputs (v : Word64) (s : State) : (setBD v s).inputs = s.inputs := rfl
@[simp] theorem setBD_reads (v : Word64) (s : State) : (setBD v s).reads = s.reads := rfl
@[simp] theorem setBD_draws (v : Word64) (s : State) : (setBD v s).draws = s.draws := rfl

/-! Reset (70 R310, R311). -/

@[simp] theorem hostReset_x (s : State) : (hostReset s).x = Operands.zero := rfl
@[simp] theorem hostReset_cmd (s : State) : (hostReset s).cmd = 0 := rfl
@[simp] theorem hostReset_init (s : State) : (hostReset s).init = false := rfl
@[simp] theorem hostReset_busy (s : State) : (hostReset s).busy = false := rfl
@[simp] theorem hostReset_done (s : State) : (hostReset s).done = false := rfl
@[simp] theorem hostReset_ok (s : State) : (hostReset s).ok = false := rfl
@[simp] theorem hostReset_ecause (s : State) : (hostReset s).ecause = 0 := rfl
@[simp] theorem hostReset_olen (s : State) : (hostReset s).olen = 0 := rfl
@[simp] theorem hostReset_corrcnt (s : State) : (hostReset s).corrcnt = 0 := rfl
@[simp] theorem hostReset_einfo (s : State) : (hostReset s).einfo = 0 := rfl
@[simp] theorem hostReset_cpos (s : State) : (hostReset s).cpos = 0 := rfl
@[simp] theorem hostReset_ie (s : State) : (hostReset s).ie = 0 := rfl
@[simp] theorem hostReset_hstat (s : State) : (hostReset s).hstat = 0 := rfl
@[simp] theorem hostReset_tables (s : State) : (hostReset s).tables = Tables.unloaded := rfl
@[simp] theorem hostReset_flight (s : State) : (hostReset s).flight = Flight.none := rfl
@[simp] theorem hostReset_mem (s : State) : (hostReset s).mem = s.mem.blurRange (dstAddr s) (flightNeed s) := rfl
@[simp] theorem hostReset_platform (s : State) : (hostReset s).platform = s.platform := rfl
@[simp] theorem hostReset_inputs (s : State) : (hostReset s).inputs = s.inputs := rfl
@[simp] theorem hostReset_reads (s : State) : (hostReset s).reads = s.reads := rfl
@[simp] theorem hostReset_draws (s : State) : (hostReset s).draws = s.draws := rfl

/-! The end of a raced stream command (70 R324). -/

@[simp] theorem finishRaced_x (size : Nat) (s : State) : (finishRaced size s).x = s.x := rfl
@[simp] theorem finishRaced_cmd (size : Nat) (s : State) : (finishRaced size s).cmd = s.cmd := rfl
@[simp] theorem finishRaced_init (size : Nat) (s : State) : (finishRaced size s).init = s.init := rfl
@[simp] theorem finishRaced_busy (size : Nat) (s : State) : (finishRaced size s).busy = false := rfl
@[simp] theorem finishRaced_done (size : Nat) (s : State) : (finishRaced size s).done = true := rfl
@[simp] theorem finishRaced_ok (size : Nat) (s : State) : (finishRaced size s).ok = (!hasError (racedCauses s)) := rfl
@[simp] theorem finishRaced_ecause (size : Nat) (s : State) : (finishRaced size s).ecause = racedCauses s := rfl
@[simp] theorem finishRaced_olen (size : Nat) (s : State) :
    (finishRaced size s).olen = if hasError (racedCauses s) then 0 else Config.freeResult s.flight.key 19 := rfl
@[simp] theorem finishRaced_corrcnt (size : Nat) (s : State) :
    (finishRaced size s).corrcnt = Config.freeResult s.flight.key 20 := rfl
@[simp] theorem finishRaced_einfo (size : Nat) (s : State) :
    (finishRaced size s).einfo = Config.freeResult s.flight.key 21 := rfl
@[simp] theorem finishRaced_cpos (size : Nat) (s : State) : (finishRaced size s).cpos = s.cpos := rfl
@[simp] theorem finishRaced_ie (size : Nat) (s : State) : (finishRaced size s).ie = s.ie := rfl
@[simp] theorem finishRaced_hstat (size : Nat) (s : State) : (finishRaced size s).hstat = s.hstat := rfl
@[simp] theorem finishRaced_tables (size : Nat) (s : State) : (finishRaced size s).tables = s.tables := rfl
@[simp] theorem finishRaced_flight (size : Nat) (s : State) : (finishRaced size s).flight = s.flight := rfl
@[simp] theorem finishRaced_mem (size : Nat) (s : State) :
    (finishRaced size s).mem = s.mem.blurRange s.flight.ops.dst.toNat size := rfl
@[simp] theorem finishRaced_platform (size : Nat) (s : State) : (finishRaced size s).platform = s.platform := rfl
@[simp] theorem finishRaced_inputs (size : Nat) (s : State) : (finishRaced size s).inputs = s.inputs := rfl
@[simp] theorem finishRaced_reads (size : Nat) (s : State) : (finishRaced size s).reads = s.reads := rfl
@[simp] theorem finishRaced_draws (size : Nat) (s : State) : (finishRaced size s).draws = s.draws := rfl

/-! A race (20_memory R77). -/

@[simp] theorem markRaced_x (as : List Nat) (s : State) : (markRaced as s).x = s.x := by unfold markRaced; split <;> rfl
@[simp] theorem markRaced_cmd (as : List Nat) (s : State) : (markRaced as s).cmd = s.cmd := by unfold markRaced; split <;> rfl
@[simp] theorem markRaced_init (as : List Nat) (s : State) : (markRaced as s).init = s.init := by unfold markRaced; split <;> rfl
@[simp] theorem markRaced_busy (as : List Nat) (s : State) : (markRaced as s).busy = s.busy := by unfold markRaced; split <;> rfl
@[simp] theorem markRaced_done (as : List Nat) (s : State) : (markRaced as s).done = s.done := by unfold markRaced; split <;> rfl
@[simp] theorem markRaced_ok (as : List Nat) (s : State) : (markRaced as s).ok = s.ok := by unfold markRaced; split <;> rfl
@[simp] theorem markRaced_ecause (as : List Nat) (s : State) : (markRaced as s).ecause = s.ecause := by unfold markRaced; split <;> rfl
@[simp] theorem markRaced_olen (as : List Nat) (s : State) : (markRaced as s).olen = s.olen := by unfold markRaced; split <;> rfl
@[simp] theorem markRaced_corrcnt (as : List Nat) (s : State) : (markRaced as s).corrcnt = s.corrcnt := by unfold markRaced; split <;> rfl
@[simp] theorem markRaced_einfo (as : List Nat) (s : State) : (markRaced as s).einfo = s.einfo := by unfold markRaced; split <;> rfl
@[simp] theorem markRaced_cpos (as : List Nat) (s : State) : (markRaced as s).cpos = s.cpos := by unfold markRaced; split <;> rfl
@[simp] theorem markRaced_ie (as : List Nat) (s : State) : (markRaced as s).ie = s.ie := by unfold markRaced; split <;> rfl
@[simp] theorem markRaced_hstat (as : List Nat) (s : State) : (markRaced as s).hstat = s.hstat := by unfold markRaced; split <;> rfl
@[simp] theorem markRaced_tables (as : List Nat) (s : State) : (markRaced as s).tables = s.tables := by unfold markRaced; split <;> rfl
@[simp] theorem markRaced_platform (as : List Nat) (s : State) : (markRaced as s).platform = s.platform := by unfold markRaced; split <;> rfl
@[simp] theorem markRaced_inputs (as : List Nat) (s : State) : (markRaced as s).inputs = s.inputs := by unfold markRaced; split <;> rfl
@[simp] theorem markRaced_reads (as : List Nat) (s : State) : (markRaced as s).reads = s.reads := by unfold markRaced; split <;> rfl
@[simp] theorem markRaced_draws (as : List Nat) (s : State) : (markRaced as s).draws = s.draws := by unfold markRaced; split <;> rfl
@[simp] theorem markRaced_nil (s : State) : markRaced [] s = s := rfl
@[simp] theorem markRaced_cons (a : Nat) (as : List Nat) (s : State) :
    markRaced (a :: as) s = { s with mem := s.mem.blurAll (a :: as), flight := { s.flight with raced := true } } := rfl

/-! ## The events to come change no window -/

@[simp] theorem flightNeed_inputs (s : State) (es : List HostEvent) : flightNeed { s with inputs := es } = flightNeed s := rfl

@[simp] theorem inFlightSource_inputs (s : State) (es : List HostEvent) (a : Nat) :
    inFlightSource { s with inputs := es } a = inFlightSource s a := rfl

@[simp] theorem inFlightDestination_inputs (s : State) (es : List HostEvent) (a : Nat) :
    inFlightDestination { s with inputs := es } a = inFlightDestination s a := rfl

@[simp] theorem pokeByte_inputs (s : State) (es : List HostEvent) (a : Nat) (b : Byte) :
    pokeByte { s with inputs := es } a b = { pokeByte s a b with inputs := es } := by
  simp only [pokeByte, markRaced, inFlightSource_inputs, inFlightDestination_inputs]
  split <;> rfl

end Sys2Proof.Machine
end

