-- ==== Sys2Proof/Laws/Ops.lean ====
section
/-! SUPPORT. What each shared operation can do, said once: the checks and their first failure, the end of a checked command, the
run of work items and of a stream command. -/

namespace Sys2Proof.Machine

/-! ## The order of checks (60 R280) -/

@[simp] theorem firstRaise_nil : firstRaise [] = none := rfl

@[simp] theorem firstRaise_cons (b : Bool) (r : Raise) (cs : List (Bool × Raise)) :
    firstRaise ((b, r) :: cs) = if b then some r else firstRaise cs := by
  cases b <;> simp [firstRaise]

theorem firstRaise_append (cs ds : List (Bool × Raise)) :
    firstRaise (cs ++ ds) = match firstRaise cs with
      | some r => some r
      | none => firstRaise ds := by
  induction cs with
  | nil => simp
  | cons c cs ih =>
    obtain ⟨b, r⟩ := c
    cases b <;> simp [ih]

/-- No check fails exactly when every condition is false. -/
theorem firstRaise_eq_none {cs : List (Bool × Raise)} : firstRaise cs = none ↔ ∀ c ∈ cs, c.1 = false := by
  simp [firstRaise]

/-- The raise is that of one of the checks, and its condition holds. -/
theorem firstRaise_mem {cs : List (Bool × Raise)} {r : Raise} (h : firstRaise cs = some r) : (true, r) ∈ cs := by
  simp only [firstRaise, Option.map_eq_some_iff] at h
  obtain ⟨⟨b, r'⟩, hf, rfl⟩ := h
  have hb : b = true := List.find?_some (p := Prod.fst) hf
  exact hb ▸ List.mem_of_find?_eq_some hf

/-- A plan is the raise of the first failing check before its output size, the raise of the first failing check on its
windows, or its job when none fails. -/
theorem plan_cases (cs ws : List (Bool × Raise)) (job : Job) :
    (∃ r, firstRaise cs = some r ∧ plan cs ws job = .early r)
      ∨ (∃ r, firstRaise cs = none ∧ firstRaise ws = some r ∧ plan cs ws job = .late r job.need)
      ∨ (firstRaise cs = none ∧ firstRaise ws = none ∧ plan cs ws job = .run job) := by
  unfold plan
  split
  · exact .inl ⟨_, ‹_›, rfl⟩
  · split
    · exact .inr (.inl ⟨_, ‹_›, ‹_›, rfl⟩)
    · exact .inr (.inr ⟨‹_›, ‹_›, rfl⟩)

@[simp] theorem need_early (r : Raise) : (Plan.early r).need = 0 := rfl

@[simp] theorem need_late (r : Raise) (n : Nat) : (Plan.late r n).need = n := rfl

@[simp] theorem need_run (job : Job) : (Plan.run job).need = job.need := rfl

/-- A plan that gets past its early checks computes the output size of its job. -/
theorem plan_need {cs : List (Bool × Raise)} (h : firstRaise cs = none) (ws : List (Bool × Raise)) (job : Job) :
    (plan cs ws job).need = job.need := by
  rcases plan_cases cs ws job with ⟨r, hr, -⟩ | ⟨r, -, -, hp⟩ | ⟨-, -, hp⟩
  · rw [h] at hr; cases hr
  · rw [hp]; rfl
  · rw [hp]; rfl

/-- The destination window of a plan lies in the address space. -/
theorem destinationSize_inSpace (p : Plan) (s : State) :
    s.flight.ops.dst.toNat + destinationSize p s ≤ addressSpace := by
  have : s.flight.ops.dst.toNat < addressSpace := s.flight.ops.dst.isLt
  unfold destinationSize
  omega

/-- A checked command raises or does its work and completes. -/
theorem checked_cases (cs : List (Bool × Raise)) (k : State → State) (s : State) :
    (∃ r, firstRaise cs = some r ∧ checked cs k s = raise r s)
      ∨ (firstRaise cs = none ∧ checked cs k s = complete (k s)) := by
  unfold checked
  split
  · exact .inl ⟨_, ‹_›, rfl⟩
  · exact .inr ⟨‹_›, rfl⟩

/-- A block-level command on blocks of 1 or 8 bytes: the checks, then its work at the width of `x[PA]` (40 R143). -/
theorem withWidth_cases (k : Width → State → State) (s : State) :
    (∃ r, withWidth k s = raise r s ∧ (r = ⟨.notInitialized, 0⟩ ∨ r = ⟨.invalidParameter, s.flight.ops.pa⟩))
      ∨ (∃ w, s.init = true ∧ blockWidth? s = some w ∧ withWidth k s = complete (k w s)) := by
  unfold withWidth
  cases hw : blockWidth? s with
  | none =>
    cases hi : s.init
    · exact .inl ⟨_, by simp [checked, blockChecks, checkInit, hi], .inl rfl⟩
    · exact .inl ⟨_, by simp [checked, blockChecks, checkInit, hi], .inr rfl⟩
  | some w =>
    cases hi : s.init
    · exact .inl ⟨_, by simp [checked, blockChecks, checkInit, hi], .inl rfl⟩
    · exact .inr ⟨w, rfl, rfl, by simp [checked, blockChecks, checkInit, hi]⟩

/-- A stream command ends as a raced one, raises, or runs its job. -/
theorem runPlan_cases (p : Plan) (s : State) :
    (s.flight.raced = true ∧ runPlan p s = finishRaced (destinationSize p s) s)
      ∨ (s.flight.raced = false ∧ ((∃ r, p = .early r ∧ runPlan p s = raise r s)
          ∨ (∃ r n, p = .late r n ∧ runPlan p s = raise r s) ∨ ∃ job, p = .run job ∧ runPlan p s = runJob job s)) := by
  cases h : s.flight.raced
  · refine .inr ⟨rfl, ?_⟩
    cases p with
    | early r => exact .inl ⟨r, rfl, by simp [runPlan, h]⟩
    | late r n => exact .inr (.inl ⟨r, n, rfl, by simp [runPlan, h]⟩)
    | run job => exact .inr (.inr ⟨job, rfl, by simp [runPlan, h]⟩)
  · exact .inl ⟨rfl, by simp [runPlan, h]⟩

/-! ## Notes and work items (60 R292) -/

/-- A note touches `ECAUSE`, `EINFO` and `CORRCNT` only. -/
theorem noteItem_frame (c : Option Cause) (i : Nat) (s : State) :
    ∃ e f n, noteItem c i s = { s with ecause := e, einfo := f, corrcnt := n } := by
  unfold noteItem
  split
  · exact ⟨s.ecause, s.einfo, s.corrcnt, rfl⟩
  · exact ⟨_, _, _, rfl⟩
  · exact ⟨_, _, s.corrcnt, rfl⟩

/-- The memory after the work items: their outputs, written in the order given. -/
def itemsMemory (item : Nat → WorkItem) (order : List Nat) (m : Memory) : Memory :=
  order.foldl (fun m q => m.writeBytes (item q).addr (item q).out) m

/-- Running work items touches memory, as the outputs say, and `ECAUSE`, `EINFO`, `CORRCNT`; nothing else. -/
theorem runItems_frame (item : Nat → WorkItem) (order : List Nat) (s : State) :
    ∃ e f n, runItems item order s =
      { s with mem := itemsMemory item order s.mem, ecause := e, einfo := f, corrcnt := n } := by
  induction order generalizing s with
  | nil => exact ⟨s.ecause, s.einfo, s.corrcnt, rfl⟩
  | cons q qs ih =>
    obtain ⟨e, f, n, h⟩ := noteItem_frame (item q).noted q (memWrite (item q).addr (item q).out s)
    obtain ⟨e', f', n', h'⟩ := ih (runItem item s q)
    refine ⟨e', f', n', ?_⟩
    simp only [runItems, List.foldl_cons] at h' ⊢
    rw [h', runItem, h]
    rfl

/-- The end of a stream command touches `OLEN`, memory and the status bits only; `OK` says whether an error was noted. -/
theorem finishStream_frame (need : Nat) (s : State) :
    ∃ m o, finishStream need s = { s with mem := m, olen := o, busy := false, done := true, ok := !hasError s.ecause } := by
  unfold finishStream
  cases h : hasError s.ecause
  · exact ⟨s.mem, BitVec.ofNat 64 need, by simp [complete, h]⟩
  · exact ⟨s.mem.blurRange s.flight.ops.dst.toNat need, 0, by simp [complete, h]⟩

/-- The end of a raced command touches its window, the result registers but `CPOS`, and the status bits only. -/
theorem finishRaced_frame (size : Nat) (s : State) :
    ∃ e f n o, finishRaced size s =
      { s with mem := s.mem.blurRange s.flight.ops.dst.toNat size, ecause := e, einfo := f, corrcnt := n, olen := o,
               busy := false, done := true, ok := !hasError e } := ⟨_, _, _, _, rfl⟩

/-- The free causes of a raced command never hold a reserved code (60 R271). -/
theorem racedCauses_reserved (s : State) : (racedCauses s).getLsbD 1 = false ∧ (racedCauses s).getLsbD 8 = false := by
  constructor <;> simp only [racedCauses, BitVec.getLsbD_and] <;> exact Bool.and_false _

/-- A job touches memory, the result registers but `CPOS`, and the status bits only. -/
theorem runJob_frame (job : Job) (s : State) :
    ∃ m e f n o, runJob job s =
      { s with mem := m, ecause := e, einfo := f, corrcnt := n, olen := o, busy := false, done := true,
               ok := !hasError e } := by
  obtain ⟨e, f, n, h⟩ := runItems_frame job.item (List.range job.count) (memWrite s.flight.ops.dst.toNat job.header s)
  obtain ⟨m, o, h'⟩ := finishStream_frame job.need
    (runItems job.item (List.range job.count) (memWrite s.flight.ops.dst.toNat job.header s))
  refine ⟨m, e, f, n, o, ?_⟩
  rw [runJob, h', h]
  rfl

/-- The outputs of work items keep the canonical form of memory. -/
theorem itemsMemory_wf {m : Memory} (h : m.wf) (item : Nat → WorkItem) (order : List Nat) :
    (itemsMemory item order m).wf := by
  induction order generalizing m with
  | nil => exact h
  | cons q qs ih => exact ih (writeBytes_wf h _ _)

/-- The outputs of work items leave every byte outside `[a, a+n)` when each lies inside. -/
theorem itemsMemory_outside {item : Nat → WorkItem} {order : List Nat} {a n : Nat}
    (h : ∀ q ∈ order, a ≤ (item q).addr ∧ (item q).addr + (item q).out.length ≤ a + n) (m : Memory) :
    SameOutside m (itemsMemory item order m) a n := by
  induction order generalizing m with
  | nil => exact fun _ _ => rfl
  | cons q qs ih =>
    intro x hx
    have hq := h q (by simp)
    have := ih (fun p hp => h p (by simp [hp])) (m.writeBytes (item q).addr (item q).out) x hx
    simp only [itemsMemory, List.foldl_cons] at this ⊢
    rw [this, look_writeBytes, if_neg (by omega)]

end Sys2Proof.Machine
end

