-- ==== Sys2Proof/Laws/PerInstr.lean ====
section
/-! SUPPORT. A statement about every command, one lemma a constructor: its word decodes to it, is none of the illegal values of
30_encoding R96, and has its upper bits zero (R90, R92). -/

namespace Sys2Proof.Laws.Encoding

/-- The word of a command is legal and decodes to it. -/
def Statement (i : Instr) : Prop :=
  decode ((encode i).setWidth 64) = .ok i ∧ illegalValue ((encode i).setWidth 64) = false

theorem nop : Statement .nop := ⟨rfl, rfl⟩

theorem encPar : Statement .encPar := ⟨rfl, rfl⟩

theorem encHam : Statement .encHam := ⟨rfl, rfl⟩

theorem encSec : Statement .encSec := ⟨rfl, rfl⟩

theorem encRs : Statement .encRs := ⟨rfl, rfl⟩

theorem decAuto : Statement .decAuto := ⟨rfl, rfl⟩

theorem decPar : Statement .decPar := ⟨rfl, rfl⟩

theorem decHam : Statement .decHam := ⟨rfl, rfl⟩

theorem decSec : Statement .decSec := ⟨rfl, rfl⟩

theorem decRs : Statement .decRs := ⟨rfl, rfl⟩

theorem bencPar : Statement .bencPar := ⟨rfl, rfl⟩

theorem bencHam : Statement .bencHam := ⟨rfl, rfl⟩

theorem bencSec : Statement .bencSec := ⟨rfl, rfl⟩

theorem bdecPar : Statement .bdecPar := ⟨rfl, rfl⟩

theorem bdecHam : Statement .bdecHam := ⟨rfl, rfl⟩

theorem bdecSec : Statement .bdecSec := ⟨rfl, rfl⟩

theorem pcm : Statement .pcm := ⟨rfl, rfl⟩

theorem twr : Statement .twr := ⟨rfl, rfl⟩

theorem trd : Statement .trd := ⟨rfl, rfl⟩

theorem init : Statement .init := ⟨rfl, rfl⟩

theorem close : Statement .close := ⟨rfl, rfl⟩

end Sys2Proof.Laws.Encoding
end

