-- ==== Sys2Proof/Laws/Tables.lean ====
section
/-! SUPPORT. The laws of the table store: what a write leaves, and that the readings of loaded entries depend on no draw
(10_state R35, 93 U1). -/

namespace Sys2Proof.Machine

@[simp] theorem entryValue_loaded {n : Nat} (v : BitVec n) (free : Word64) : entryValue (.loaded v) free = v.setWidth 64 := rfl

theorem entryValue_of_loaded {n : Nat} {e : Entry n} (h : entryLoaded e = true) (f g : Word64) :
    entryValue e f = entryValue e g := by
  cases e with
  | loaded v => rfl
  | unloaded => cases h

@[simp] theorem readTable_length {n : Nat} (es : List (Entry n)) (draw item pass base : Nat) :
    (readTable es draw item pass base).length = es.length := by simp [readTable]

theorem readTable_of_loaded {n : Nat} {es : List (Entry n)} (h : es.all entryLoaded = true)
    (draw item pass base draw' item' pass' : Nat) :
    readTable es draw item pass base = readTable es draw' item' pass' base := by
  refine List.map_congr_left fun e he => ?_
  have hm : e.1 ∈ es := (List.mem_zipIdx he).2.2 ▸ List.getElem_mem _
  exact entryValue_of_loaded (List.all_eq_true.1 h e.1 hm) _ _

/-- With every entry loaded, any two readings of the rows agree. -/
theorem readRows_of_loaded {t : Tables} (h : allLoaded t = true) (w : Width) (draw item pass draw' item' pass' : Nat) :
    readRows t w draw item pass = readRows t w draw' item' pass' := by
  simp only [allLoaded, Bool.and_eq_true] at h
  cases w
  · exact readTable_of_loaded h.1.1.1 ..
  · exact readTable_of_loaded h.1.1.2 ..

/-- With every entry loaded, any two readings of the syndrome table agree. -/
theorem readSyndromes_of_loaded {t : Tables} (h : allLoaded t = true) (w : Width) (draw item draw' item' : Nat) :
    readSyndromes t w draw item = readSyndromes t w draw' item' := by
  simp only [allLoaded, Bool.and_eq_true] at h
  cases w
  · exact congrArg _ (readTable_of_loaded h.1.2 ..)
  · exact congrArg _ (readTable_of_loaded h.2 ..)

@[simp] theorem readRows_length (t : Tables) (w : Width) (draw item pass : Nat) :
    (readRows t w draw item pass).length = w.rows := by cases w <;> simp [readRows, Width.rows]

/-- The readings of a decode of well-formed tables are good (10_state R37). -/
theorem codeReads_good {t : Tables} (h : TablesOK t) (w : Width) (draw item : Nat) :
    GoodReads w (codeReads t w draw item) := by
  obtain ⟨hl, h1, h8⟩ := h
  refine ⟨rfl, readRows_of_loaded hl .., ?_⟩
  cases w
  · simpa only [codeReads, readRows_of_loaded hl .one draw item 0 0 0 0, readSyndromes_of_loaded hl .one draw item 0 0] using h1
  · simpa only [codeReads, readRows_of_loaded hl .eight draw item 0 0 0 0,
      readSyndromes_of_loaded hl .eight draw item 0 0] using h8

end Sys2Proof.Machine
end

