-- ==== Sys2Proof/Tests/Slice0.lean ====
section
/-! SUPPORT. The model's own tests. Expected results are those of spec/95_test_vectors.md, or of the rule a comment names. The
`test_witness_…` theorems show, for each statement of Certificates/Slice0/Obligations.lean with hypotheses, a state and operands
that meet them. -/

set_option Elab.async false

namespace Sys2Proof.Tests
open Sys2Proof Sys2Proof.Machine

/-! ## Well-formedness (30_encoding R96, 92 section 2) -/

theorem test_illegal_upper_bits :
    illegalValue 0x8000000000000000 = true ∧ illegalValue 0x100000011 = true ∧ illegalValue 0x100 = true := by decide
theorem test_illegal_op_10_to_15 : illegalValue 0xA0 = true ∧ illegalValue 0xF0 = true := by decide
theorem test_illegal_op_0 : illegalValue 0x01 = true ∧ illegalValue 0x0F = true := by decide
theorem test_illegal_op_1 : illegalValue 0x10 = true ∧ illegalValue 0x15 = true ∧ illegalValue 0x1F = true := by decide
theorem test_illegal_op_2 : illegalValue 0x25 = true ∧ illegalValue 0x2F = true := by decide
theorem test_illegal_op_3_and_4 :
    illegalValue 0x30 = true ∧ illegalValue 0x34 = true ∧ illegalValue 0x40 = true ∧ illegalValue 0x44 = true := by decide
theorem test_illegal_op_5_to_9 : illegalValue 0x51 = true ∧ illegalValue 0x6F = true ∧ illegalValue 0x91 = true := by decide
theorem test_legal_neighbours :
    illegalValue 0x14 = false ∧ illegalValue 0x20 = false ∧ illegalValue 0x33 = false ∧ illegalValue 0x90 = false := by decide
theorem test_illformed_platforms :
    Platform.wellFormed ⟨0, 0, []⟩ = false ∧ Platform.wellFormed ⟨1, 8, []⟩ = false
      ∧ Platform.wellFormed ⟨1, 0x10000000000000000, []⟩ = false
      ∧ Platform.wellFormed ⟨1, 0xFFFFFFFFFFFFFF00, []⟩ = true := by decide

/-! ## Encodings: `zero` 24 bits, `op` 4 bits, `tag` 4 bits (30_encoding R90, R92) -/

theorem test_decode_enc :
    decode 0b00010001 = .ok .encPar ∧ decode 0b00010010 = .ok .encHam ∧ decode 0b00010011 = .ok .encSec
      ∧ decode 0b00010100 = .ok .encRs := by decide
theorem test_decode_dec :
    decode 0b00100000 = .ok .decAuto ∧ decode 0b00100001 = .ok .decPar ∧ decode 0b00100010 = .ok .decHam
      ∧ decode 0b00100011 = .ok .decSec ∧ decode 0b00100100 = .ok .decRs := by decide
theorem test_decode_block :
    decode 0b00110001 = .ok .bencPar ∧ decode 0b00110010 = .ok .bencHam ∧ decode 0b00110011 = .ok .bencSec
      ∧ decode 0b01000001 = .ok .bdecPar ∧ decode 0b01000010 = .ok .bdecHam ∧ decode 0b01000011 = .ok .bdecSec
      ∧ decode 0b01010000 = .ok .pcm := by decide
theorem test_decode_system :
    decode 0b00000000 = .ok .nop ∧ decode 0b01100000 = .ok .twr ∧ decode 0b01110000 = .ok .trd
      ∧ decode 0b10000000 = .ok .init ∧ decode 0b10010000 = .ok .close := by decide
theorem test_encode_words : encode .encRs = 0x14 ∧ encode .decAuto = 0x20 ∧ encode .bdecSec = 0x43 ∧ encode .close = 0x90 := by
  decide
theorem test_decode_table_word :
    decodeTableWord 32 0x13 = some .encSec ∧ decodeTableWord 32 0x15 = none ∧ decodeTableWord 32 0x100 = none := by decide

/-! ## Small states -/

/-- Operand registers. -/
def ops (src dst len cap pa pb nt : Nat) (bd : Word64) (bp : Byte) : Operands :=
  ⟨BitVec.ofNat 64 src, BitVec.ofNat 64 dst, BitVec.ofNat 64 len, BitVec.ofNat 64 cap, BitVec.ofNat 64 pa, BitVec.ofNat 64 pb,
    BitVec.ofNat 64 nt, bd, bp⟩

/-- Idle, booted with the default tables. -/
def booted (x : Operands) (m : Memory) : State :=
  { State.reset with x := x, init := true, tables := defaultTables, mem := m }

/-- The state given, with these events next. -/
def facing (es : List HostEvent) (s : State) : State := { s with inputs := es }

/-- A command accepted by an engine in the state given. -/
def given (i : Instr) (s : State) : State := accept ((encode i).setWidth 64) s

/-- A block-level command on `PA`, `BD`, `BP`. -/
def block (i : Instr) (pa : Nat) (bd : Word64) (bp : Byte) : State := given i (booted (ops 0 0 0 0 pa 0 0 bd bp) Memory.empty)

/-- Bytes at 0x1000. -/
def source (bs : List Byte) : Memory := Memory.empty.writeBytes 0x1000 bs

/-- A stream command on the bytes at 0x1000, to 0x2000. -/
def stream (i : Instr) (bs : List Byte) (cap pa pb nt : Nat) : State :=
  given i (booted (ops 0x1000 0x2000 bs.length cap pa pb nt 0 0) (source bs))

/-- The registers of a next state: STATUS, ECAUSE, EINFO, OLEN, CORRCNT, CPOS, BD, BP. -/
def report : Host.Outcome State Fault Refusal → List Nat
  | .next t => [t.status.toNat, t.ecause.toNat, t.einfo.toNat, t.olen.toNat, t.corrcnt.toNat, t.cpos.toNat, t.x.bd.toNat,
      t.x.bp.toNat]
  | .fault _ => []
  | .refused _ => []

/-- The `n` bytes at `a` of a next state, where none is unspecified. -/
def bytesAt (a n : Nat) : Host.Outcome State Fault Refusal → Option (List Byte)
  | .next t => ((List.range n).map fun j => t.mem.look (a + j)).mapM id
  | .fault _ => none
  | .refused _ => none

/-- Some replaced bytes of a stream. -/
def patched (bs : List Byte) (changes : List (Nat × Byte)) : List Byte := changes.foldl (fun b c => b.set c.1 c.2) bs

/-- The Parity stream P of 95 section 3.2. -/
def streamP : List Byte := [1, 0, 0, 0, 3, 0, 0, 0, 2, 0, 0, 0, 1, 0, 0, 0, 1, 0, 1, 2, 1, 3, 4, 0, 5]

/-- The nine data bytes of the Hamming stream H. -/
def dataH : List Byte := [0xEF, 0xCD, 0xAB, 0x89, 0x67, 0x45, 0x23, 0x01, 0xA5]

/-- The Hamming stream H of 95 section 3.2. -/
def streamH : List Byte :=
  [2, 0, 0, 0, 2, 0, 0, 0, 8, 0, 0, 0, 1, 0, 0, 0, 2, 0x1C, 0xEF, 0xCD, 0xAB, 0x89, 0x67, 0x45, 0x23, 0x01, 0x03, 0xA5]

/-- The SECDED stream S of 95 section 3.2. -/
def streamS : List Byte :=
  [3, 0, 0, 0, 2, 0, 0, 0, 8, 0, 0, 0, 2, 0, 0, 0, 1, 0x9C, 0xEF, 0xCD, 0xAB, 0x89, 0x67, 0x45, 0x23, 0x01, 0x03, 0xA5, 0x13,
    0x01]

/-- The twenty data bytes of the Reed-Solomon stream A. -/
def dataA : List Byte := [1, 2, 3, 4, 5, 6, 7, 8, 9, 10, 11, 12, 13, 14, 15, 16, 17, 18, 19, 20]

/-- The Reed-Solomon stream A of 95 section 4.2. -/
def streamA : List Byte :=
  [4, 0, 0, 0, 2, 0, 0, 0, 2, 0, 0, 0, 2, 0, 0, 0, 1, 0, 0, 0, 4, 0, 0, 0, 1]
    ++ [0x00, 0x11, 0x12, 0x13, 0x14, 0x15, 0x16, 0x17, 0x38] ++ [0x01, 0x19, 0x1A, 0x1B, 0x1C, 0x1D, 0x1E, 0x1F, 0x20]
    ++ [0x01, 1, 2, 3, 4, 5, 6, 7, 8] ++ [0x00, 9, 10, 11, 12, 13, 14, 15, 16] ++ [0x01, 0x11, 0x12, 0x13, 0x14, 0, 0, 0, 0]
    ++ [0x01, 0x11, 0x12, 0x13, 0x14, 0, 0, 0, 0] ++ [0x01, 0x11, 0x12, 0x13, 0x14, 0, 0, 0, 0]

/-! ## One step of each command -/

/-- 95 section 2.2: `PCM`, the middle column; 2.8: `PA = 3`. -/
theorem test_pcm :
    report (exec .pcm (block .pcm 8 0xDEADBEEFCAFEF00D 0)) = [0x0D, 0, 0, 0, 0, 0, 0xDEADBEEFCAFEF00D, 0x38]
      ∧ report (exec .pcm (block .pcm 3 0xFF 7)) = [0x15, 4, 3, 0, 0, 0, 0xFF, 7] := by decide +kernel

/-- 95 section 2.1, rows with `PA = 1` and `PA = 2`; 2.8: `PA = 9`. -/
theorem test_bencPar :
    report (exec .bencPar (block .bencPar 1 0xFFFFFFFFFFFFFF01 0)) = [0x0D, 0, 0, 0, 0, 0, 0xFFFFFFFFFFFFFF01, 1]
      ∧ report (exec .bencPar (block .bencPar 2 0x700 0)) = [0x0D, 0, 0, 0, 0, 0, 0x700, 1]
      ∧ report (exec .bencPar (block .bencPar 9 0 0)) = [0x15, 4, 9, 0, 0, 0, 0, 0] := by decide +kernel

/-- 95 section 2.2 and 2.8 (the whole 64-bit `PA` is compared). -/
theorem test_bencHam :
    report (exec .bencHam (block .bencHam 1 0x80 0)) = [0x0D, 0, 0, 0, 0, 0, 0x80, 0x0C]
      ∧ report (exec .bencHam (block .bencHam 0x100000000 0 0)) = [0x15, 4, 0x100000000, 0, 0, 0, 0, 0] := by decide +kernel

/-- 95 section 2.2, right column, `w = 1` and `w = 8`. -/
theorem test_bencSec :
    report (exec .bencSec (block .bencSec 1 0x3C 0)) = [0x0D, 0, 0, 0, 0, 0, 0x3C, 0x12]
      ∧ report (exec .bencSec (block .bencSec 8 0x8000000000000000 0)) = [0x0D, 0, 0, 0, 0, 0, 0x8000000000000000, 0xC7] := by
  decide +kernel

/-- 95 section 2.7: the whole parity byte is compared. -/
theorem test_bdecPar :
    report (exec .bdecPar (block .bdecPar 1 0x80 1)) = [0x0D, 0, 0, 0, 0, 0, 0x80, 1]
      ∧ report (exec .bdecPar (block .bdecPar 1 0x80 0x81)) = [0x15, 0x40, 0, 0, 0, 0, 0x80, 0x81] := by decide +kernel

/-- 95 section 2.3: an unused bit, a data bit. -/
theorem test_bdecHam_corrects :
    report (exec .bdecHam (block .bdecHam 1 0xA5 0x13)) = [0x2D, 8, 0, 0, 1, 4, 0xA5, 0x03]
      ∧ report (exec .bdecHam (block .bdecHam 1 0x25 0x03)) = [0x2D, 8, 0, 0, 1, 15, 0xA5, 0x03] := by decide +kernel

/-- 95 section 2.3 (no entry 30) and 2.5 (positions 7 and 8). -/
theorem test_bdecHam_fails :
    report (exec .bdecHam (block .bdecHam 1 0xA5 0x33)) = [0x15, 0x40, 0, 0, 0, 0, 0xA5, 0x33]
      ∧ report (exec .bdecHam (block .bdecHam 8 0x0123456789ABCDEE 0x9C))
          = [0x15, 0x40, 0, 0, 0, 0, 0x0123456789ABCDEE, 0x9C] := by decide +kernel

/-- 95 section 2.4 and 2.5: the overall bit itself, bit 71. -/
theorem test_bdecSec_corrects :
    report (exec .bdecSec (block .bdecSec 1 0xA5 0x13)) = [0x2D, 8, 0, 0, 1, 4, 0xA5, 0x03]
      ∧ report (exec .bdecSec (block .bdecSec 8 0x8123456789ABCDEF 0x9C)) = [0x2D, 8, 0, 0, 1, 71, 0x0123456789ABCDEF, 0x9C] := by
  decide +kernel

/-- 95 section 2.4: a double error; odd parity without a table entry. -/
theorem test_bdecSec_fails :
    report (exec .bdecSec (block .bdecSec 1 0xA6 0x03)) = [0x15, 0x10, 0, 0, 0, 0, 0xA6, 0x03]
      ∧ report (exec .bdecSec (block .bdecSec 1 0xA5 0x20)) = [0x15, 0x40, 0, 0, 0, 0, 0xA5, 0x20] := by decide +kernel

/-- A one-byte Hamming decode with the ill-formed tables of Program 5 (95 section 6): `S1[12]` holds 03, as `S1[8]` does. -/
def illFormed (bd : Word64) : State :=
  given .bdecHam { booted (ops 0 0 0 0 1 0 0 bd 3) Memory.empty with tables := loadWords defaultTables [(28, 3)] }

/-- Program 5: a miss fails and leaves the pair, the smallest of two hits wins. -/
theorem test_program_5 :
    report (exec .bdecHam (illFormed 0xB5)) = [0x15, 0x40, 0, 0, 0, 0, 0xB5, 3]
      ∧ report (exec .bdecHam (illFormed 0xA4)) = [0x2D, 8, 0, 0, 1, 8, 0xA5, 3] := by decide +kernel

/-- 95 section 3.1: the 25-byte stream, and no data. -/
theorem test_encPar :
    bytesAt 0x2000 25 (exec .encPar (stream .encPar [1, 2, 3, 4, 5] 100 2 0 1)) = some streamP
      ∧ bytesAt 0x2000 17 (exec .encPar (stream .encPar [] 17 10 0 4)) = some [1, 0, 0, 0, 0, 0, 0, 0, 10, 0, 0, 0, 0, 0, 0, 0, 4] := by
  decide +kernel

/-- 95 section 3.1: `bs + 1` bytes; 3.3: `DST = FDE` overlaps. -/
theorem test_encHam :
    bytesAt 0x2000 28 (exec .encHam (stream .encHam dataH 100 8 0 2)) = some streamH
      ∧ report (exec .encHam (given .encHam (booted (ops 0x1000 0xFDE 16 100 8 0 1 0 0) Memory.empty)))
          = [0x15, 0x2000, 0, 0, 0, 0, 0, 0] := by decide +kernel

/-- 95 section 3.1: two remainder bytes; 3.3: thread count 2^32. -/
theorem test_encSec :
    bytesAt 0x2000 30 (exec .encSec (stream .encSec (dataH ++ [1]) 100 8 0 1)) = some streamS
      ∧ report (exec .encSec (stream .encSec dataH 100 8 0 0x100000000)) = [0x15, 4, 0x100000000, 0, 0, 0, 0, 0] := by
  decide +kernel

/-- 95 section 4.2, stream A. -/
theorem test_encRs : bytesAt 0x2000 88 (exec .encRs (stream .encRs dataA 88 2 2 1)) = some streamA := by decide +kernel

/-- 95 section 3.3: `k + m = 257`. -/
theorem test_encRs_counts : report (exec .encRs (stream .encRs dataA 88 200 57 1)) = [0x15, 4, 0xC800000039, 0, 0, 0, 0, 0] := by
  decide +kernel

/-- 95 section 3.2: stream P, and with items 1 and 2 failing. -/
theorem test_decPar :
    bytesAt 0x2000 5 (exec .decPar (stream .decPar streamP 5 0 0 0)) = some [1, 2, 3, 4, 5]
      ∧ report (exec .decPar (stream .decPar (patched streamP [(20, 0x81), (23, 1)]) 5 0 0 0)) = [0x15, 0x40, 1, 0, 0, 0, 0, 0] := by
  decide +kernel

/-- 95 section 3.2: stream H with byte 21 changed. -/
theorem test_decHam_corrects :
    bytesAt 0x2000 9 (exec .decHam (stream .decHam (patched streamH [(21, 0x88)]) 9 0 0 0)) = some dataH
      ∧ report (exec .decHam (stream .decHam (patched streamH [(21, 0x88)]) 9 0 0 0)) = [0x2D, 8, 0, 9, 1, 0, 0, 0] := by
  decide +kernel

/-- 95 section 3.2: stream H with byte 17 changed to 9D; the window is unspecified (60 R291). -/
theorem test_decHam_fails :
    report (exec .decHam (stream .decHam (patched streamH [(17, 0x9D)]) 9 0 0 0)) = [0x15, 0x40, 0, 0, 0, 0, 0, 0]
      ∧ bytesAt 0x2008 1 (exec .decHam (stream .decHam (patched streamH [(17, 0x9D)]) 9 0 0 0)) = none
      ∧ bytesAt 0x2009 1 (exec .decHam (stream .decHam (patched streamH [(17, 0x9D)]) 9 0 0 0)) = some [0] := by decide +kernel

/-- 95 section 3.2: three single errors in three codewords of stream S. -/
theorem test_decSec_corrects :
    report (exec .decSec (stream .decSec (patched streamS [(17, 0x1C), (27, 0xA4), (28, 0x03)]) 10 0 0 0))
      = [0x2D, 8, 0, 10, 3, 0, 0, 0] := by decide +kernel

/-- 95 section 3.2: item 0 corrected, item 1 a double error. -/
theorem test_decSec_fails :
    report (exec .decSec (stream .decSec (patched streamS [(20, 0xAA), (26, 0x00)]) 10 0 0 0))
      = [0x35, 0x18, 1, 0, 1, 0, 0, 0] := by decide +kernel

/-- 95 section 4.3: data device 0 and code device 1 of group 0 erased. -/
theorem test_decRs_rebuilds :
    bytesAt 0x2000 20 (exec .decRs (stream .decRs (patched streamA [(43, 0), (35, 0x18)]) 20 0 0 0)) = some dataA := by
  decide +kernel

/-- 95 section 4.3: three erasures in group 1. -/
theorem test_decRs_fails :
    report (exec .decRs (stream .decRs (patched streamA [(61, 0), (70, 0), (79, 0)]) 20 0 0 0))
      = [0x15, 0x20, 1, 0, 0, 0, 0, 0] := by decide +kernel

/-- 95 section 3.2 and 3.3: stream H by its tag, tag 07. -/
theorem test_decAuto :
    bytesAt 0x2000 9 (exec .decAuto (stream .decAuto streamH 9 0 0 0)) = some dataH
      ∧ report (exec .decAuto (stream .decAuto (patched streamP [(0, 7)]) 9 0 0 0)) = [0x15, 0x80, 7, 0, 0, 0, 0, 0] := by
  decide +kernel

/-- 95 section 5.1: from reset. -/
theorem test_nop_init_close :
    report (exec .nop (given .nop State.reset)) = [0x0C, 0, 0, 0, 0, 0, 0, 0]
      ∧ report (exec .init (given .init State.reset)) = [0x0D, 0, 0, 0, 0, 0, 0, 0]
      ∧ report (exec .close (given .close (booted Operands.zero Memory.empty))) = [0x0C, 0, 0, 0, 0, 0, 0, 0] := by decide +kernel

/-- 95 section 5.1: an 8-bit entry keeps the low byte; `PA = F`; locked after `INIT`. -/
theorem test_twr :
    (match exec .twr (given .twr { State.reset with x := ops 0 0 0 0 103 0 0 0x1234 0 }) with
      | .next t => decide (t.tables.s8[71] = .loaded 0x34)
      | .fault _ => false
      | .refused _ => false) = true
      ∧ report (exec .twr (given .twr { State.reset with x := ops 0 0 0 0 15 0 0 0 0 })) = [0x14, 4, 15, 0, 0, 0, 0, 0]
      ∧ report (exec .twr (block .twr 8 0 0)) = [0x15, 0x4000, 0, 0, 0, 0, 0, 0] := by decide +kernel

/-- 95 section 5.1: `TRD` of a 64-bit entry while `INIT = 1`; `PA = 68`. -/
theorem test_trd :
    report (exec .trd (block .trd 8 0 0)) = [0x0D, 0, 0, 0, 0, 0, 0xAB55555556AAAD5B, 0]
      ∧ report (exec .trd (block .trd 0x68 5 0)) = [0x15, 4, 0x68, 0, 0, 0, 5, 0] := by decide +kernel

/-! ## The step and the host -/

/-- `withFetchWord`: the very next step runs the command (43 R256). -/
theorem test_withFetchWord : report (step (State.reset.withFetchWord 32 0x80)) = [0x0D, 0, 0, 0, 0, 0, 0, 0] := by decide +kernel

/-- 95 section 5.1: `WR CMD, 100000011` reports its low 32 bits. -/
theorem test_illegal_command :
    report (step (State.reset.withFetchWord 64 0x100000011)) = [0x14, 0x200, 0x11, 0, 0, 0, 0, 0] := by decide +kernel

/-- 95 section 5.1: `STATUS` and `ID` at reset. -/
theorem test_reset_reads :
    hostReadValue State.reset 0 17 = 0 ∧ hostReadValue State.reset 0 25 = 0x0000000141524301 := by decide +kernel

/-- 95 section 5.3: writes that arrive while `BUSY = 1`. -/
theorem test_busy_writes :
    (hostWrite 16 0 (given .nop State.reset)).hstat = 1 ∧ (hostWrite 4 5 (given .nop State.reset)).hstat = 2
      ∧ (hostWrite 4 5 (given .nop State.reset)).x.pa = 0 ∧ (hostWrite 23 1 (given .nop State.reset)).ie = 1
      ∧ hostWrite 17 4 (given .nop State.reset) = given .nop State.reset := by decide +kernel

/-- 95 section 5.2: `IE = 2`, succeeded and failed; after `WR STATUS, 4`. -/
theorem test_irq :
    (succeeded { State.reset with ie := 2 }).irq = false ∧ (failedWith 0x40 0 { State.reset with ie := 2 }).irq = true
      ∧ (succeeded { State.reset with ie := 1 }).irq = true
      ∧ (hostWrite 17 4 (succeeded { State.reset with ie := 1 })).irq = false := by decide +kernel

/-- 95 section 5.4. -/
theorem test_work_ranges :
    workRanges 10 4 = [[0, 1], [2, 3], [4, 5], [6, 7, 8, 9]] ∧ workRanges 3 5 = [[], [], [], [], [0, 1, 2]]
      ∧ workRanges 0 3 = [[], [], []] := by decide

/-- 95 section 4.1. -/
theorem test_galois :
    gmul 0x53 0xCA = 0x8F ∧ gmul 0xFF 0xFF = 0xE2 ∧ ginv 0x53 = 0x8C ∧ ginv 0xFF = 0xFD ∧ lag [2, 3, 4] 1 0 = 0xB9
      ∧ (List.range 2).map (fun i => (List.range 3).map (codingCoeff 3 i)) = [[1, 1, 1], [0x0F, 0x08, 0x06]] := by decide +kernel

/-- 70 R332: a `WAIT` that never sees `DONE`, a run cut short, a run that ends in flight; and one that ends. -/
theorem test_end_of_run :
    (runScript 9 (facing [.wait] State.reset)).isNone = true ∧ (runScript 1 (facing [.wr 16 0x80, .wait] State.reset)).isNone = true
      ∧ (match runScript 9 (facing [.wr 16 0x80] State.reset) with
          | some (.refused r) => r == .runEndsInFlight
          | some (.next _) => false
          | some (.fault _) => false
          | none => false) = true
      ∧ (match runScript 3 (facing [.wr 16 0x80, .wait] State.reset) with
          | some (.next t) => t.status == 0x0D
          | some (.refused _) => false
          | some (.fault _) => false
          | none => false) = true := by decide +kernel

/-- 95 section 5.1, 5.2 and R39: acknowledge, `IE` and `HSTAT` while idle. -/
theorem test_idle_writes :
    (hostWrite 17 4 (succeeded State.reset)).status = 0x08 ∧ hostWrite 17 3 (succeeded State.reset) = succeeded State.reset
      ∧ hostReadValue (hostWrite 23 0xFF State.reset) 0 23 = 3 ∧ (hostWrite 24 1 { State.reset with hstat := 3 }).hstat = 2 := by
  decide +kernel

/-- 70 R311, R310: reset while `BUSY = 1` leaves the destination window unspecified and nothing else. -/
theorem test_reset_in_flight :
    (let t := hostReset (stream .encPar [1, 2, 3, 4, 5] 100 2 0 1)
     t.busy = false ∧ t.x = Operands.zero ∧ t.mem.look 0x2018 = none ∧ t.mem.look 0x2019 = some 0 ∧ t.mem.look 0x1004 = some 5) := by
  decide +kernel

/-! ## Witnesses: the hypotheses of each statement hold together somewhere -/

/-- The state a command completes in. -/
def after (o : Host.Outcome State Fault Refusal) : State :=
  match o with
  | .next t => t
  | .fault _ => State.reset
  | .refused _ => State.reset

/-- A job that a command's plan gives satisfies a test. -/
def planned (i : Instr) (s : State) (p : Job → Bool) : Bool :=
  match streamPlan i s with
  | some (.run job) => p job
  | some (.late _ _) => false
  | some (.early _) => false
  | none => false

theorem test_witness_StepRunsTheCommandInFlight :
    (given .nop State.reset).busy = true ∧ decode (given .nop State.reset).flight.value = .ok .nop
      ∧ (given .nop State.reset).inputs = [] ∧ (facing [.tick] (given .nop State.reset)).inputs = .tick :: []
      ∧ (facing [.wait] (given .nop State.reset)).inputs = .wait :: [] ∧ (given .nop State.reset).done = false := by decide +kernel

theorem test_witness_IllegalValueReportsAndDoesNothingElse :
    Accepted (accept 0x15 State.reset) ∧ (accept 0x15 State.reset).inputs = []
      ∧ Accepted (facing [.tick] (accept 0x15 State.reset)) ∧ Accepted (facing [.wait] (accept 0x15 State.reset))
      ∧ illegalValue (accept 0x15 State.reset).flight.value = true ∧ Accepted (accept (-1) State.reset)
      ∧ illegalValue (accept (-1) State.reset).flight.value = true := by decide +kernel

theorem test_witness_CommandWriteIsAcceptedOrDropped :
    (facing [.wr 16 0x80] State.reset).inputs = .wr 16 0x80 :: [] ∧ (facing [.wr 16 0x80] State.reset).busy = false
      ∧ (facing [.wr 16 0x80] (given .nop State.reset)).busy = true := by decide +kernel

theorem test_witness_EveryCommandCompletes :
    (given .decRs State.reset).busy = true ∧ (given .decRs State.reset).inputs = []
      ∧ (facing [.tick] (accept 0x15 State.reset)).inputs = .tick :: []
      ∧ (facing [.wait] (accept 0x15 State.reset)).inputs = .wait :: [] ∧ (accept 0x15 State.reset).done = false := by decide +kernel

/-- Every block statement: `INIT = 0`, an illegal size, each legal width. -/
theorem test_witness_block_commands :
    (Accepted (given .pcm State.reset) ∧ (given .pcm State.reset).init = false)
      ∧ (∀ n ∈ [0, 2, 7, 9, 0x100000001], Accepted (block .pcm n 0 0) ∧ (block .pcm n 0 0).init = true
          ∧ ¬ oneOrEight (block .pcm n 0 0).flight.ops.pa.toNat)
      ∧ (∀ n ∈ [0, 9, 0x100000001], ¬ oneToEight (block .bdecPar n 0 0).flight.ops.pa.toNat)
      ∧ (∀ n ∈ [1, 8], oneToEight (block .bencPar n 0 0).flight.ops.pa.toNat)
      ∧ ∀ w ∈ [Width.one, Width.eight], Accepted (block .pcm w.bytes 5 0) ∧ (block .pcm w.bytes 5 0).init = true
          ∧ (block .pcm w.bytes 5 0).flight.ops.pa.toNat = w.bytes := by decide +kernel

theorem test_witness_BdecParComparesTheWholeByte :
    (block .bdecPar 1 0x80 1).flight.ops.bp
        = bitByte (parity (blockValue (block .bdecPar 1 0x80 1).flight.ops.pa.toNat (block .bdecPar 1 0x80 1).flight.ops.bd))
      ∧ (block .bdecPar 8 0x80 0).flight.ops.bp
        ≠ bitByte (parity (blockValue (block .bdecPar 8 0x80 0).flight.ops.pa.toNat (block .bdecPar 8 0x80 0).flight.ops.bd)) := by
  decide +kernel

/-- The verdict of the block decode that a block-level command makes. -/
def verdictOf (dec : CodeReads → Byte → Word64 → BlockResult) (w : Width) (s : State) : Verdict :=
  (dec (codeReads s.tables w s.flight.key 0) s.flight.ops.bp (blockValue w.bytes s.flight.ops.bd)).verdict

theorem test_witness_BdecHamWritesBackTheOutcome :
    verdictOf decHam .one (block .bdecHam 1 0xA5 0x03) = .clean ∧ verdictOf decHam .one (block .bdecHam 1 0xA5 0x83) = .corr
      ∧ verdictOf decHam .one (block .bdecHam 1 0xA5 0x33) = .failInt
      ∧ verdictOf decHam .eight (block .bdecHam 8 0x8123456789ABCDEF 0x1C) = .corr := by decide +kernel

theorem test_witness_BdecSecWritesBackTheOutcome :
    verdictOf decSec .one (block .bdecSec 1 0xA5 0x03) = .clean ∧ verdictOf decSec .one (block .bdecSec 1 0xA5 0x13) = .corr
      ∧ verdictOf decSec .one (block .bdecSec 1 0xA5 0x33) = .failDbl
      ∧ verdictOf decSec .one (block .bdecSec 1 0xA5 0x20) = .failInt
      ∧ verdictOf decSec .eight (block .bdecSec 8 0x8123456789ABCDEE 0x9C) = .failDbl := by decide +kernel

/-- The guarantees of 40 R141, at the first and the last position, at the smallest and the largest block. -/
theorem test_witness_corrects_and_detects :
    GoodReads .one (codeReads defaultTables .one 0 0) ∧ GoodReads .eight (codeReads defaultTables .eight 0 0)
      ∧ (0#64).toNat < 2 ^ (8 * Width.one.bytes) ∧ (0xFF#64).toNat < 2 ^ (8 * Width.one.bytes)
      ∧ (0xFFFFFFFFFFFFFFFF#64).toNat < 2 ^ (8 * Width.eight.bytes) ∧ 15 < 8 * (1 + Width.one.bytes)
      ∧ 71 < 8 * (1 + Width.eight.bytes) ∧ (0 : Nat) ≠ 71 := by decide +kernel

/-- The syndrome table of Program 5. -/
def illSyn : List Byte := readSyndromes (loadWords defaultTables [(28, 3)]) .one 0 0

/-- A miss, and the smallest of two hits, which is the first data bit; a check bit of the default tables. -/
theorem test_witness_search :
    NoHit illSyn 0x09 ∧ SmallestHit illSyn 0x03 8 ∧ illSyn[12]? = some 0x03
      ∧ SmallestHit (readSyndromes defaultTables .eight 0 0) 0x80 7 := by
  refine ⟨fun p h => ?_, by unfold SmallestHit; decide +kernel, by decide +kernel, by unfold SmallestHit; decide +kernel⟩
  exact absurd (List.mem_of_getElem? h) (by decide +kernel)

/-- A miss, a double error, the overall bit alone, a miss of odd parity (95 section 2.4); a hit that does not verify, where
`S1[8]` holds the column of data bit 1 (40 R138 worked out by hand). -/
theorem test_witness_decode_outcomes :
    let t := codeReads defaultTables .one 0 0
    let ill := codeReads (loadWords defaultTables [(24, 5)]) .one 0 0
    chkHam t.rows 0xB5 ^^^ 0x03 = 0x09 ∧ t.rows.length < 8
      ∧ chkHam ill.rows 0xA7 ^^^ 0x03 = 0x05 ∧ SmallestHit ill.syn 0x05 8 ∧ (decHam ill 0x03 0xA7).verdict = .failInt
      ∧ parity (chkSec 4 t.rows 0xA6 ^^^ 0x03) = false ∧ chkSec 4 t.rows 0xA6 ^^^ 0x03 ≠ 0
      ∧ chkSec 4 t.rows 0xA5 ^^^ 0x13 = 0x10 ∧ chkSec 4 t.rows 0xA5 ^^^ 0x20 = 0x23 ∧ parity (0x23 : Byte) = true
      ∧ 0x23 ∉ t.syn := by
  unfold SmallestHit
  decide +kernel

/-- A permutation that is not the identity. -/
theorem test_witness_FoldIsTheParityOfTheXor : [(1 : Byte), 2].Perm [2, 1] := by decide

theorem test_witness_EncParWritesTheStream :
    ∀ s ∈ [stream .encPar [1, 2, 3, 4, 5] 25 2 0 1, stream .encPar [1, 2, 3, 4, 5] 25 2 0 0xFFFFFFFF],
      Accepted s ∧ Undisturbed s ∧ s.init = true ∧ 1 ≤ s.flight.ops.pa.toNat ∧ s.flight.ops.pa.toNat < 2 ^ 32
        ∧ 1 ≤ s.flight.ops.nt.toNat ∧ s.flight.ops.nt.toNat < 2 ^ 32 ∧ (srcLen s + 2 - 1) / 2 < 2 ^ 32 ∧ WindowsGood s 25 := by
  decide +kernel

/-- Both widths, with a remainder for the wider one. -/
theorem test_witness_EncHamWritesTheStream :
    ∀ c ∈ [(Width.one, 35), (Width.eight, 28)],
      let s := stream .encHam dataH 35 c.1.bytes 0 2
      Accepted s ∧ Undisturbed s ∧ s.init = true ∧ s.flight.ops.pa.toNat = c.1.bytes ∧ 1 ≤ s.flight.ops.nt.toNat
        ∧ s.flight.ops.nt.toNat < 2 ^ 32 ∧ (srcLen s + c.1.bytes - 1) / c.1.bytes < 2 ^ 32
        ∧ 17 + srcLen s / c.1.bytes * (1 + c.1.bytes) + 2 * (srcLen s % c.1.bytes) = c.2 ∧ WindowsGood s c.2 := by decide +kernel

theorem test_witness_EncSecWritesTheStream :
    let s := stream .encSec (dataH ++ [1]) 30 8 0 1
    Accepted s ∧ Undisturbed s ∧ s.init = true ∧ s.flight.ops.pa.toNat = Width.eight.bytes ∧ 1 ≤ s.flight.ops.nt.toNat
      ∧ s.flight.ops.nt.toNat < 2 ^ 32 ∧ (srcLen s + 7) / 8 < 2 ^ 32 ∧ WindowsGood s 30 := by decide +kernel

/-- An encode of 16 bytes, the setup of 95 section 3.3. -/
def enc16 (i : Instr) (src dst len cap pa pb nt : Nat) : State := given i (booted (ops src dst len cap pa pb nt 0 0) Memory.empty)

/-- The clauses of the raises of a linear encode, each with its raise (95 section 3.3). -/
theorem test_witness_LinearEncodeRaises_parameters :
    (Accepted (given .encPar State.reset) ∧ (given .encPar State.reset).init = false)
      ∧ report (exec .encPar (enc16 .encPar 0x1000 0x2000 16 100 0 0 1)) = [0x15, 4, 0, 0, 0, 0, 0, 0]
      ∧ report (exec .encPar (enc16 .encPar 0x1000 0x2000 16 100 0x100000000 0 1)) = [0x15, 4, 0x100000000, 0, 0, 0, 0, 0]
      ∧ report (exec .encHam (enc16 .encHam 0x1000 0x2000 16 100 4 0 1)) = [0x15, 4, 4, 0, 0, 0, 0, 0]
      ∧ report (exec .encSec (enc16 .encSec 0x1000 0x2000 16 100 8 0 0)) = [0x15, 4, 0, 0, 0, 0, 0, 0]
      ∧ report (exec .encPar (enc16 .encPar 0x1000 0x2000 0x100000000 100 1 0 1)) = [0x15, 4, 0x100000000, 0, 0, 0, 0, 0] := by
  decide +kernel

theorem test_witness_LinearEncodeRaises_windows :
    (let s := enc16 .encHam 0xFFFFFFFFFFFFFFF8 0x2000 16 100 8 0 1
     Accepted s ∧ s.init = true ∧ ¬ SourceGood s)
      ∧ (let s := enc16 .encHam 0x1000 0x2000 16 34 8 0 1
         SourceGood s ∧ s.flight.ops.cap.toNat < 35)
      ∧ (let s := enc16 .encHam 0x1000 0xFFFFFFFFFFFFFFEC 16 100 8 0 1
         SourceGood s ∧ 35 ≤ s.flight.ops.cap.toNat ∧ ¬ (dstAddr s + 35 ≤ 2 ^ 64 ∧ memWritable s.platform (dstAddr s) 35 = true))
      ∧ ∀ dst ∈ [0x100F, 0xFDE],
          let s := enc16 .encHam 0x1000 dst 16 100 8 0 1
          SourceGood s ∧ 35 ≤ s.flight.ops.cap.toNat ∧ dstAddr s + 35 ≤ 2 ^ 64 ∧ memWritable s.platform (dstAddr s) 35 = true
            ∧ ¬ DestinationGood s 35 := by decide +kernel

/-- The header of a linear stream passes the checks of 41 R181, with an output of `n` bytes. -/
def goodHeader (c : Codec) (s : State) (n : Nat) : Bool :=
  decide (17 ≤ srcLen s) && tagByte s == c.tag && headerField s 13 != 0 && decide (headerField s 9 < headerField s 5)
    && (headerField s 9 == 0 || headerField s 1 != 0) && (decLayout s).n == n && c.streamSize (decLayout s) == srcLen s

theorem test_witness_DecParChecksEveryBlock :
    (let s := stream .decPar streamP 5 0 0 0
     Accepted s ∧ Undisturbed s ∧ s.init = true ∧ goodHeader .par s 5 = true ∧ 1 ≤ headerField s 5 ∧ WindowsGood s 5
       ∧ srcByte s (srcAddr s + 17) = bitByte (fold (memRead s (srcAddr s + 18) 2)))
      ∧ (let s := stream .decAuto (patched streamP [(24, 0x45)]) 5 0 0 0
         Accepted s ∧ Undisturbed s ∧ s.init = true ∧ goodHeader .par s 5 = true ∧ WindowsGood s 5
           ∧ srcByte s (srcAddr s + 17 + 2 * 3) ≠ bitByte (fold (memRead s (srcAddr s + 17 + 2 * 3 + 1) 1))) := by decide +kernel

/-- A decode that delivers and one that fails, for each codec. -/
theorem test_witness_DecodesCodewords :
    (∀ c ∈ [(Codec.ham, streamH, 9), (.ham, patched streamH [(17, 0x9D)], 9), (.sec, streamS, 10),
        (.sec, patched streamS [(29, 0x02)], 10)],
      let s := stream (decodeOf c.1) c.2.1 c.2.2 0 0 0
      Accepted s ∧ Undisturbed s ∧ s.init = true ∧ headerField s 5 = Width.eight.bytes ∧ goodHeader c.1 s c.2.2 = true
        ∧ WindowsGood s c.2.2)
      ∧ (decHam (codeReads defaultTables .eight 0 0) 0x9D 0x0123456789ABCDEF).verdict = .failInt
      ∧ (decSec (codeReads defaultTables .one 0 2) 0x13 0x02).verdict = .failDbl := by decide +kernel

/-- The clauses of the raises of a linear decode, each with its raise (95 section 3.3). -/
theorem test_witness_LinearDecodeRaises_header :
    (Accepted (given .decPar State.reset) ∧ (given .decPar State.reset).init = false)
      ∧ report (exec .decPar (stream .decPar [] 100 0 0 0)) = [0x15, 0x400, 1, 0, 0, 0, 0, 0]
      ∧ report (exec .decHam (stream .decHam streamP 100 0 0 0)) = [0x15, 0x400, 2, 0, 0, 0, 0, 0]
      ∧ report (exec .decPar (stream .decPar (streamP.take 16) 100 0 0 0)) = [0x15, 0x400, 3, 0, 0, 0, 0, 0]
      ∧ report (exec .decPar (stream .decPar (patched streamP [(8, 0)]) 100 0 0 0)) = [0x15, 4, 0, 0, 0, 0, 0, 0]
      ∧ report (exec .decHam (stream .decHam (patched streamH [(8, 4)]) 100 0 0 0)) = [0x15, 4, 4, 0, 0, 0, 0, 0]
      ∧ report (exec .decPar (stream .decPar (patched streamP [(16, 0)]) 100 0 0 0)) = [0x15, 4, 0, 0, 0, 0, 0, 0]
      ∧ report (exec .decPar (stream .decPar (patched streamP [(12, 2)]) 100 0 0 0)) = [0x15, 0x400, 4, 0, 0, 0, 0, 0]
      ∧ report (exec .decPar (stream .decPar (patched streamP [(4, 0)]) 100 0 0 0)) = [0x15, 0x400, 4, 0, 0, 0, 0, 0]
      ∧ report (exec .decPar (stream .decPar (streamP.take 24) 100 0 0 0)) = [0x15, 0x400, 5, 0, 0, 0, 0, 0] := by decide +kernel

/-- A decode of stream P at 0x3000 on a platform. -/
def decP (dst cap : Nat) (p : Platform) : State :=
  given .decPar { booted (ops 0x3000 dst 25 cap 0 0 0 0 0) (Memory.empty.writeBytes 0x3000 streamP) with platform := p }

theorem test_witness_LinearDecodeRaises_windows :
    report (exec .decPar (decP 0x6000 4 plainPlatform)) = [0x15, 0x800, 5, 0, 0, 0, 0, 0]
      ∧ report (exec .decPar (decP 0x3018 5 plainPlatform)) = [0x15, 0x2000, 0, 0, 0, 0, 0, 0]
      ∧ report (exec .decPar (decP 0x3019 5 plainPlatform)) = [0x0D, 0, 0, 5, 0, 0, 0, 0]
      ∧ report (exec .decPar (decP 0x6000 5 ⟨1, 0, [⟨0x3018, 1, true, false⟩]⟩)) = [0x15, 0x1000, 0, 0, 0, 0, 0, 0]
      ∧ report (exec .decPar (decP 0x6000 5 ⟨1, 0, [⟨0x6004, 1, false, true⟩]⟩)) = [0x15, 0x1000, 1, 0, 0, 0, 0, 0] := by
  decide +kernel

/-- The decode of what a command left at its destination, to 0x9000. -/
def decodeBack (i : Instr) (t : State) (cap : Nat) : State :=
  given i { t with x := { t.x with src := t.x.dst, dst := 0x9000, len := t.olen, cap := BitVec.ofNat 64 cap } }

/-- The hypotheses of both round trips on an encode `e` and a decode `d`. -/
def roundTrip (e d : Instr) (s : State) : Bool :=
  let t := after (exec e s)
  let s' := decodeBack d t (srcLen s)
  decide (Accepted s ∧ Undisturbed s) && t.ok && decide (Accepted s' ∧ Undisturbed s' ∧ s'.init = true ∧ s'.mem = t.mem
    ∧ s'.flight.ops.src = s.flight.ops.dst ∧ s'.flight.ops.len = t.olen ∧ WindowsGood s' (srcLen s))
    && allLoaded s.tables && decide (s'.tables = s.tables)

theorem test_witness_LinearStreamsRoundTrip :
    roundTrip .encPar .decPar (stream .encPar [1, 2, 3, 4, 5] 25 2 0 1) = true
      ∧ roundTrip .encHam .decAuto (stream .encHam dataH 28 8 0 2) = true
      ∧ roundTrip .encSec .decSec (stream .encSec dataH 28 8 0 2) = true
      ∧ ∃ t, exec .encPar (stream .encPar [1, 2, 3, 4, 5] 25 2 0 1) = .next t :=
  ⟨by decide +kernel, by decide +kernel, by decide +kernel, _, rfl⟩

theorem test_witness_ReedSolomonStreamsRoundTrip :
    roundTrip .encRs .decRs (stream .encRs dataA 88 2 2 1) = true ∧ ∃ t, exec .encRs (stream .encRs dataA 88 2 2 1) = .next t :=
  ⟨by decide +kernel, _, rfl⟩

/-- A job, a raise, and no stream command. -/
theorem test_witness_CommandsWriteOnlyTheirWindow :
    planned .encPar (stream .encPar [1, 2, 3, 4, 5] 25 2 0 1) (fun job => job.need == 25) = true
      ∧ outputNeed .encPar (stream .encPar [1, 2, 3, 4, 5] 24 2 0 1) = 25
      ∧ outputNeed .encPar (stream .encPar [1, 2, 3, 4, 5] 24 0 0 1) = 0 ∧ isStream .trd = false
      ∧ ∃ t, exec .encPar (stream .encPar [1, 2, 3, 4, 5] 25 2 0 1) = .next t :=
  ⟨by decide +kernel, by decide +kernel, by decide +kernel, rfl, _, rfl⟩

theorem test_witness_WorkItemOrderDoesNotMatter :
    (stream .decSec streamS 10 0 0 0).mem.wf
      ∧ planned .decSec (stream .decSec streamS 10 0 0 0) (fun job => decide ([2, 0, 1].Perm (List.range job.count))) = true := by
  decide +kernel

theorem test_witness_WorkRangesPartitionTheItems : (1 : Nat) ≤ 1 ∧ (1 : Nat) ≤ 4 ∧ 2 + 1 < 4 := by decide

/-- An encode of five bytes at 0x1000 to the 25 bytes at 0x2000, with a capacity, facing one event. -/
def encFacing (cap : Nat) (e : HostEvent) : State := facing [e] (stream .encPar [1, 2, 3, 4, 5] cap 2 0 1)

/-- First and last byte of each window, and the bytes beside them; with too small a capacity the destination window is the
same, since its size has been computed (20_memory R62). -/
theorem test_witness_RacedBytesAreUnspecified_accesses :
    (∀ cap ∈ [25, 24], ∀ a ∈ [0x1000, 0x1004, 0x2000, 0x2018],
        let t := { encFacing cap (.poke a [9]) with inputs := [] }
        (encFacing cap (.poke a [9])).inputs = .poke a [9] :: [] ∧ a < 2 ^ 64
          ∧ (inFlightSource t a = true ∨ inFlightDestination t a = true))
      ∧ (∀ cap ∈ [25, 24], ∀ a ∈ [0xFFF, 0x1005, 0x1FFF, 0x2019],
          let t := { encFacing cap (.poke a [9]) with inputs := [] }
          inFlightSource t a = false ∧ inFlightDestination t a = false)
      ∧ (∀ cap ∈ [25, 24], inFlightDestination { encFacing cap (.peek 0x2018 1) with inputs := [] } 0x2018 = true)
      ∧ inFlightDestination { encFacing 25 (.peek 0x1000 1) with inputs := [] } 0x1000 = false
      ∧ (∀ s ∈ [State.reset, given .nop State.reset, accept 0x15 State.reset], ∀ a ∈ [0, 0x1000],
          inFlightSource s a = false ∧ inFlightDestination s a = false)
      ∧ (given .nop State.reset).busy = true ∧ isStream .nop = false := by decide +kernel

/-- A race recorded by the step; the command completes, its whole window unspecified, its source as it was. -/
theorem test_witness_RacedBytesAreUnspecified_completion :
    (∀ e ∈ [HostEvent.poke 0x2018 [9], .peek 0x2018 1, .poke 0x1004 [9]],
        let s := after (step (encFacing 25 e))
        s.busy = true ∧ decode s.flight.value = .ok .encPar ∧ isStream .encPar = true ∧ s.flight.raced = true)
      ∧ (let t := after (exec .encPar (after (step (encFacing 25 (.peek 0x2018 1)))))
         t.busy = false ∧ t.done = true ∧ t.mem.look 0x2000 = none ∧ t.mem.look 0x2018 = none ∧ t.mem.look 0x2019 = some 0
           ∧ t.mem.look 0x1004 = some 5)
      ∧ (after (step (encFacing 25 (.peek 0x1004 1)))).flight.raced = false := by decide +kernel

/-- Both ends of the field, of the nodes and of the coding matrix; the row `C(3,2)[1]` of 42 R215. -/
theorem test_witness_FieldInverseAndCodingMatrix :
    (0xFF : Byte) ≠ 0 ∧ gmul 0xFF 0xFD = 1 ∧ gmul 0x80 2 = 0x1D ∧ [(2 : Byte), 3, 4].Nodup
      ∧ nodeProduct [2, 3, 4] 1 3 ≠ 0 ∧ gmul (lag [2, 3, 4] 1 0) (nodeProduct [2, 3, 4] 1 3) = nodeProduct [2, 3, 4] 1 0
      ∧ lag [2, 3, 4] 1 3 = 1 ∧ lag [2, 3, 4] 1 4 = 0 ∧ nodeProduct [7] 0 7 = 1
      ∧ xorBytes ((List.range 3).map (codingCoeff 3 1)) = 1 ∧ codingCoeff 1 254 0 = 1 ∧ 1 + 254 < 256
      ∧ xorBytes ((List.range 9).map (codingCoeff 9 246)) = 1 := by decide +kernel

/-- A parity byte that differs in bit 7 only is an erasure (42 R219). -/
theorem test_erasure : isErasure [0x81, 1, 0, 0, 0, 0, 0, 0, 0] = true ∧ isErasure [1, 1, 0, 0, 0, 0, 0, 0, 0] = false := by
  decide

theorem test_witness_EncRsWritesTheStream :
    let s := stream .encRs dataA 88 2 2 1
    Accepted s ∧ Undisturbed s ∧ s.init = true ∧ 1 ≤ s.flight.ops.pa.toNat ∧ 1 ≤ s.flight.ops.pb.toNat
      ∧ s.flight.ops.pa.toNat + s.flight.ops.pb.toNat ≤ 256 ∧ 1 ≤ s.flight.ops.nt.toNat ∧ s.flight.ops.nt.toNat < 2 ^ 32
      ∧ ((srcLen s + 7) / 8 + 2 - 1) / 2 < 2 ^ 32 ∧ WindowsGood s 88 := by decide +kernel

/-- The header of stream A or of a changed copy passes the checks of 42 R230, with an output of 20 bytes. -/
def goodRs (s : State) : Prop :=
  Accepted s ∧ Undisturbed s ∧ s.init = true ∧ 25 ≤ srcLen s ∧ tagByte s = 0x04 ∧ headerField s 1 = 2 ∧ headerField s 5 = 2
    ∧ headerField s 9 = 2 ∧ headerField s 13 = 1 ∧ headerField s 17 = 4 ∧ headerField s 21 = 1 ∧ srcLen s = 88
    ∧ WindowsGood s 20

theorem test_witness_DecRsDecodesEveryGroup :
    goodRs (stream .decRs streamA 20 0 0 0) ∧ goodRs (stream .decAuto (patched streamA [(61, 0), (70, 0), (79, 0)]) 20 0 0 0)
      ∧ groupDecode 2 1 (groupRecordsAt (stream .decRs streamA 20 0 0 0) (rsDecLayout (stream .decRs streamA 20 0 0 0)) 1) ≠ none
      ∧ groupDecode 2 1 [[0, 0x11, 0x12, 0x13, 0x14, 0, 0, 0, 0], [0, 0x11, 0x12, 0x13, 0x14, 0, 0, 0, 0],
          [0, 0x11, 0x12, 0x13, 0x14, 0, 0, 0, 0]] = none := by unfold goodRs; decide +kernel

/-- The records of group 0 of stream A, with two erasures. -/
def records0 : List (List Byte) :=
  [[0x00, 0x11, 0x12, 0x13, 0x14, 0x15, 0x16, 0x17, 0x38], [0x01, 0x18, 0x1A, 0x1B, 0x1C, 0x1D, 0x1E, 0x1F, 0x20],
    [0x00, 1, 2, 3, 4, 5, 6, 7, 8], [0x00, 9, 10, 11, 12, 13, 14, 15, 16]]

theorem test_witness_GroupDecodeFailsOnlyAboveM :
    records0.length = 2 + 2 ∧ groupDecode 2 2 records0 = some [[1, 2, 3, 4, 5, 6, 7, 8], [9, 10, 11, 12, 13, 14, 15, 16]]
      ∧ groupDecode 1 3 records0 = none ∧ isErasure (records0.getD (2 + 1) []) = false
      ∧ isErasure (records0.getD (2 + 0) []) = true ∧ (∀ r ∈ records0, r.length = 9) ∧ survivors 2 2 records0 = [1, 2] := by
  decide +kernel

/-- More survivors than needed, the data device 1 with two flipped bits that its parity does not show: device 0 is rebuilt from
indices 1 and 2, not 2 and 3 (42 R220). By hand: `lag([1,2],0,0)` is 2/3, so the error 3 in the first byte adds 2 there. -/
theorem test_corrupt_survivor :
    let records := [[0x00, 0x11, 0x12, 0x13, 0x14, 0x15, 0x16, 0x17, 0x38], [0x01, 0x19, 0x1A, 0x1B, 0x1C, 0x1D, 0x1E, 0x1F, 0x20],
      [0x00, 1, 2, 3, 4, 5, 6, 7, 8], [0x00, 10, 10, 11, 12, 13, 14, 15, 16]]
    survivors 2 2 records = [1, 2]
      ∧ (groupDecode 2 2 records).map (fun v => (v.getD 0 []).take 2) = some [3, 2] := by decide +kernel

theorem test_witness_UpToMErasuresAreRebuilt :
    let v : List Device := [[1, 2, 3, 4, 5, 6, 7, 8], [9, 10, 11, 12, 13, 14, 15, 16]]
    1 ≤ v.length ∧ v.length + 2 ≤ 256 ∧ (∀ d ∈ v, d.length = 8) ∧ records0.length = 2 + v.length
      ∧ (∀ r < 2 + v.length, records0.getD r [] = (groupRecords 2 v).getD r [] ∨ isErasure (records0.getD r []) = true)
      ∧ (records0.filter isErasure).length = 2 := by decide +kernel

/-- The clauses of the raises of `ENC.RS`, each with its raise (95 section 3.3, 42 R225). -/
theorem test_witness_EncRsRaisesTheFirstFailure :
    (Accepted (given .encRs State.reset) ∧ (given .encRs State.reset).init = false)
      ∧ report (exec .encRs (enc16 .encRs 0x1000 0x2000 16 100 0 1 1)) = [0x15, 4, 1, 0, 0, 0, 0, 0]
      ∧ report (exec .encRs (enc16 .encRs 0x1000 0x2000 16 100 1 0 1)) = [0x15, 4, 0x100000000, 0, 0, 0, 0, 0]
      ∧ report (exec .encRs (enc16 .encRs 0x1000 0x2000 16 100 2 2 0)) = [0x15, 4, 0, 0, 0, 0, 0, 0]
      ∧ report (exec .encRs (enc16 .encRs 0x1000 0x2000 0x800000000 100 1 1 1)) = [0x15, 4, 0x100000000, 0, 0, 0, 0, 0]
      ∧ report (exec .encRs (enc16 .encRs 0xFFFFFFFFFFFFFFF8 0x2000 16 100 2 2 1)) = [0x15, 0x1000, 0, 0, 0, 0, 0, 0]
      ∧ report (exec .encRs (enc16 .encRs 0x1000 0x2000 16 60 2 2 1)) = [0x15, 0x800, 61, 0, 0, 0, 0, 0]
      ∧ report (exec .encRs (enc16 .encRs 0x1000 0xFFFFFFFFFFFFFFEC 16 61 2 2 1)) = [0x15, 0x1000, 1, 0, 0, 0, 0, 0]
      ∧ report (exec .encRs (enc16 .encRs 0x1000 0x100F 16 61 2 2 1)) = [0x15, 0x2000, 0, 0, 0, 0, 0, 0] := by decide +kernel

/-- The clauses of the raises of `DEC.RS`, each with its raise (95 section 4.4). -/
theorem test_witness_DecRsRaises_header :
    (Accepted (given .decRs State.reset) ∧ (given .decRs State.reset).init = false)
      ∧ report (exec .decRs (stream .decRs [] 20 0 0 0)) = [0x15, 0x400, 1, 0, 0, 0, 0, 0]
      ∧ report (exec .decRs (stream .decRs streamP 20 0 0 0)) = [0x15, 0x400, 2, 0, 0, 0, 0, 0]
      ∧ report (exec .decRs (stream .decRs (streamA.take 24) 20 0 0 0)) = [0x15, 0x400, 3, 0, 0, 0, 0, 0]
      ∧ report (exec .decRs (stream .decRs (patched streamA [(3, 1), (4, 0)]) 20 0 0 0)) = [0x15, 4, 0x10000000002, 0, 0, 0, 0, 0]
      ∧ report (exec .decRs (stream .decRs (patched streamA [(24, 0)]) 20 0 0 0)) = [0x15, 4, 0, 0, 0, 0, 0, 0]
      ∧ report (exec .decRs (stream .decRs (patched streamA [(16, 2)]) 20 0 0 0)) = [0x15, 0x400, 4, 0, 0, 0, 0, 0]
      ∧ report (exec .decRs (stream .decRs (patched streamA [(20, 8)]) 20 0 0 0)) = [0x15, 0x400, 4, 0, 0, 0, 0, 0]
      ∧ report (exec .decRs (stream .decRs (patched streamA [(12, 0)]) 20 0 0 0)) = [0x15, 0x400, 4, 0, 0, 0, 0, 0]
      ∧ report (exec .decRs (stream .decRs (streamA.take 87) 20 0 0 0)) = [0x15, 0x400, 5, 0, 0, 0, 0, 0] := by decide +kernel

/-- A decode of stream A at 0x3000. -/
def decA (src dst cap : Nat) : State :=
  given .decRs (booted (ops src dst 88 cap 0 0 0 0 0) (Memory.empty.writeBytes 0x3000 streamA))

theorem test_witness_DecRsRaises_windows :
    report (exec .decRs (decA 0x3000 0x6000 19)) = [0x15, 0x800, 20, 0, 0, 0, 0, 0]
      ∧ report (exec .decRs (decA 0x3000 0xFFFFFFFFFFFFFFED 20)) = [0x15, 0x1000, 1, 0, 0, 0, 0, 0]
      ∧ report (exec .decRs (decA 0x3000 0x3057 20)) = [0x15, 0x2000, 0, 0, 0, 0, 0, 0]
      ∧ report (exec .decRs (decA 0x3000 0x3058 20)) = [0x0D, 0, 0, 20, 0, 0, 0, 0]
      ∧ report (exec .decRs (decA 0xFFFFFFFFFFFFFFA9 0x6000 20)) = [0x15, 0x1000, 0, 0, 0, 0, 0, 0] := by decide +kernel

theorem test_witness_DecAutoDispatchesOnTheTag :
    tagByte (stream .decAuto streamP 20 0 0 0) = 1 ∧ tagByte (stream .decAuto streamH 20 0 0 0) = 2
      ∧ tagByte (stream .decAuto streamS 20 0 0 0) = 3 ∧ tagByte (stream .decAuto streamA 20 0 0 0) = 4
      ∧ (Accepted (given .decAuto State.reset) ∧ (given .decAuto State.reset).init = false)
      ∧ ¬ SourceGood (enc16 .decAuto 0xFFFFFFFFFFFFFFFF 0 2 0 0 0 0) ∧ SourceGood (enc16 .decAuto 0 0 0 0 0 0 0)
      ∧ ∀ b ∈ [(0x00 : Byte), 0x05, 0xFF],
          let s := stream .decAuto (patched streamP [(0, b)]) 5 0 0 0
          Accepted s ∧ s.init = true ∧ SourceGood s ∧ 1 ≤ srcLen s ∧ (tagByte s = 0 ∨ 5 ≤ (tagByte s).toNat) := by decide +kernel

/-- `TWR` and `TRD`: locked, invalid indices at each edge, the first and last index of each table. -/
theorem test_witness_TwrTrd :
    (Accepted (block .twr 8 0 0) ∧ (block .twr 8 0 0).init = true)
      ∧ (∀ n ∈ [4, 7, 15, 104, 0x10000000000000000 - 1], tRef? n = none)
      ∧ tRef? 0 = some (.h1 0) ∧ tRef? 3 = some (.h1 3) ∧ tRef? 8 = some (.h8 0) ∧ tRef? 14 = some (.h8 6)
      ∧ tRef? 16 = some (.s1 0) ∧ tRef? 31 = some (.s1 15) ∧ tRef? 32 = some (.s8 0) ∧ tRef? 103 = some (.s8 71)
      ∧ (let s := given .twr { State.reset with x := ops 0 0 0 0 103 0 0 0x1234 0 }
         Accepted s ∧ s.init = false ∧ tIndex (.s8 71) = s.flight.ops.pa.toNat) := by decide +kernel

theorem test_witness_CodecsNeedInit :
    ∀ i ∈ [Instr.encPar, .encHam, .encSec, .encRs, .decAuto, .decPar, .decHam, .decSec, .decRs, .bencPar, .bencHam, .bencSec,
        .bdecPar, .bdecHam, .bdecSec, .pcm],
      Accepted (given i State.reset) ∧ Undisturbed (given i State.reset) ∧ i ∉ [Instr.nop, .init, .close, .twr, .trd] ∧ (given i State.reset).init = false := by
  decide +kernel

theorem test_witness_CommandsLeaveTheRestAlone :
    ∃ t, exec .bencSec (block .bencSec 8 1 0) = .next t ∧ t.x ≠ (block .bencSec 8 1 0).x :=
  ⟨_, rfl, by decide +kernel⟩

theorem test_witness_ReservedCausesStayClear :
    (block .bdecSec 1 0xA5 0x20).ecause.getLsbD 1 = false ∧ (block .bdecSec 1 0xA5 0x20).ecause.getLsbD 8 = false
      ∧ report (step (block .bdecSec 1 0xA5 0x20)) = [0x15, 0x40, 0, 0, 0, 0, 0xA5, 0x20] := by decide +kernel

theorem test_witness_HostWritesByBusyAndSlot :
    ∀ n ∈ [(0 : Fin 32), 8, 9, 15, 16, 17, 18, 22, 23, 24, 25, 31],
      (facing [.wr n 5] (given .nop State.reset)).busy = true ∧ (facing [.wr n 5] State.reset).busy = false
        ∧ (facing [.wr n 5] State.reset).inputs = .wr n 5 :: [] := by decide +kernel

theorem test_witness_HostReadsGiveTheSlotValues :
    (∀ n ∈ [9, 15, 26, 31], (9 ≤ n ∧ n ≤ 15) ∨ (26 ≤ n ∧ n ≤ 31))
      ∧ ∀ n ∈ [(0 : Fin 32), 16, 25, 31], (facing [.rd n] State.reset).inputs = .rd n :: [] ∧ State.reset.busy = false
          ∧ (given .nop State.reset).busy = true := by decide +kernel

theorem test_witness_OperandWritesReadBack : State.reset.busy = false ∧ (0 : Nat) ≤ 8 ∧ (8 : Nat) ≤ 8 ∧ (25 : Nat) ≠ 8 := by decide

theorem test_witness_IdleEngineKeepsStateAndResultsHold :
    State.reset.busy = false ∧ State.reset.inputs = [] ∧ State.reset.done = false ∧ (succeeded State.reset).done = true
      ∧ ∀ e ∈ [HostEvent.wr 15 1, .wr 17 4, .rd 16, .busWr (plainPlatform.base + 136) 8 4, .busWr (plainPlatform.base + 132) 8 4, .poke 0 [1], .peek 0 1, .wait, .tick],
      (facing [e] State.reset).busy = false ∧ (facing [e] State.reset).inputs = e :: []
        ∧ startsOrResets (facing [e] State.reset).platform e = false := by decide +kernel

theorem test_witness_ResetRestoresEveryRegister :
    (facing [.reset] (stream .encPar [1] 19 2 0 1)).inputs = .reset :: [] ∧ (facing [.reset] State.reset).busy = false := by
  decide +kernel

/-- Both ends of the register window, accesses of another shape; loads across its lower end and past the address space; a stream
window over it is a BusFault (20_memory R68). -/
theorem test_witness_RegisterWindowHasSlotAccessesOnly :
    let base := plainPlatform.base
    plainPlatform.wellFormed = true ∧ base ≤ base + 255 ∧ base + 255 < base + 256 ∧ (8 ≠ 8 ∨ (base + 255) % 8 ≠ 0)
      ∧ (4 ≠ 8 ∨ (base + 128) % 8 ≠ 0)
      ∧ memReadable plainPlatform (base - 8) 8 = true ∧ memReadable plainPlatform (base - 8) 9 = false
      ∧ memWritable plainPlatform (base + 255) 1 = false ∧ memWritable plainPlatform base 0 = true
      ∧ report (exec .encPar (given .encPar (booted (ops base 0x2000 8 100 1 0 1 0 0) Memory.empty)))
          = [0x15, 0x1000, 0, 0, 0, 0, 0, 0]
      ∧ (match step (facing [.peek (base - 1) 2] State.reset) with
          | .refused r => r == .registerAccessShape (base - 1) 2
          | .next _ => false
          | .fault _ => false) = true
      ∧ (match step (facing [.poke (2 ^ 64 - 1) [1, 2]] State.reset) with
          | .fault f => f == .addressOutsideSpace (2 ^ 64 - 1)
          | .next _ => false
          | .refused _ => false) = true := by decide +kernel

theorem test_plain_access : PlainAccess State.reset 0x1000 2 ∧ PlainAccess State.reset plainPlatform.base 0
    ∧ ¬ PlainAccess State.reset (plainPlatform.base - 1) 2 := by
  refine ⟨⟨by decide, fun x _ h => ?_⟩, ⟨by decide, fun x h h' => absurd h' (by omega)⟩, fun h => ?_⟩
  · have : State.reset.platform.base = 0xFFFFFFFFFFFFFF00 := rfl
    omega
  · exact h.2 plainPlatform.base (by decide) (by decide) ⟨by decide, by decide⟩

/-- A write that a polite host makes while idle, and one it makes while a command is in flight. -/
theorem test_witness_PoliteHostNeverSetsHstat :
    State.reset.hstat = 0 ∧ politeEvent State.reset (.wr 16 0) = true ∧ politeEvent (given .nop State.reset) (.wr 23 3) = true
      ∧ politeEvent (given .nop State.reset) (.wr 8 3) = false ∧ politeEvent (given .nop State.reset) (.busWr (plainPlatform.base + 128) 8 0) = false := by
  decide +kernel

theorem test_witness_InterruptLineFollowsStatus :
    State.reset.ie = 0 ∧ State.reset.busy = false ∧ (succeeded State.reset).busy = false := by decide

/-- The invariant holds of a state in which a stream command is in flight. -/
theorem test_witness_StepKeepsTheMachineInvariant :
    Inv (stream .decSec (patched streamS [(18, 0xEC)]) 10 0 0 0)
      ∧ report (step (stream .decSec (patched streamS [(18, 0xEC)]) 10 0 0 0)) = [0x15, 0x10, 0, 0, 0, 0, 0, 0] := by decide +kernel

end Sys2Proof.Tests
end

section
/-! SUPPORT. What holds of the state while a command runs (`Running`), and that each shared operation keeps it or ends in a state
that meets the invariant (43 R260, 60 R290 to R292, 70 R324); what makes the plan of a stream command sound (20_memory R61, R62). -/

namespace Sys2Proof.Machine

/-! ## The reserved causes (60 R271) -/

/-- A cause that may be reported: none of the reserved codes 1 and 8. -/
abbrev Cause.Unreserved (c : Cause) : Prop := c ≠ .invalidConstraint ∧ c ≠ .persistenceWarning

/-- A set of causes that holds no reserved code. -/
abbrev ReservedClear (e : BitVec 15) : Prop := e.getLsbD 1 = false ∧ e.getLsbD 8 = false

theorem reservedClear_zero : ReservedClear 0 := by decide

theorem Cause.Unreserved.bit_reservedClear {c : Cause} (h : c.Unreserved) : ReservedClear c.bit := by
  revert h
  cases c <;> decide

theorem ReservedClear.or {e f : BitVec 15} (he : ReservedClear e) (hf : ReservedClear f) : ReservedClear (e ||| f) :=
  ⟨by rw [BitVec.getLsbD_or, he.1, hf.1, Bool.or_self], by rw [BitVec.getLsbD_or, he.2, hf.2, Bool.or_self]⟩

theorem Verdict.unreserved_of_mem_cause {v : Verdict} {c : Cause} (h : c ∈ v.cause) : c.Unreserved := by
  cases v <;> cases h <;> decide

/-! ## The state while a command runs, and the states in which it may end -/

/-- What holds of the state from the acceptance of a command up to its completion event: memory is canonical and inside the
address space, `OLEN` is still clear, no reserved cause is set. -/
structure Running (s : State) : Prop where
  wf      : s.mem.wf
  inSpace : s.mem.inSpace
  olen    : s.olen = 0
  causes  : ReservedClear s.ecause

theorem Inv.running {s : State} (h : Inv s) (hb : s.busy = true) : Running s := by
  obtain ⟨hwf, hsp, hacc, -, -, -, hcauses⟩ := h
  obtain ⟨-, -, -, -, holen, -⟩ := hacc hb
  exact ⟨hwf, hsp, holen, hcauses⟩

theorem Running.setBP {s : State} (h : Running s) (v : Byte) : Running (setBP v s) := ⟨h.wf, h.inSpace, h.olen, h.causes⟩

theorem Running.setBD {s : State} (h : Running s) (v : Word64) : Running (setBD v s) := ⟨h.wf, h.inSpace, h.olen, h.causes⟩

theorem Running.note {s : State} (h : Running s) {c : Cause} (hc : c.Unreserved) (i : Nat) : Running (note c i s) :=
  ⟨h.wf, h.inSpace, h.olen, h.causes.or hc.bit_reservedClear⟩

theorem Running.noteItem {s : State} (h : Running s) {c : Option Cause} (hc : ∀ d ∈ c, d.Unreserved) (i : Nat) :
    Running (noteItem c i s) := by
  unfold Machine.noteItem
  split
  · exact h
  · obtain ⟨hwf, hsp, holen, hcauses⟩ := h.note (hc _ rfl) i
    exact ⟨hwf, hsp, holen, hcauses⟩
  · exact h.note (hc _ rfl) i

theorem Running.memWrite {s : State} (h : Running s) {a : Nat} {bs : List Byte} (ha : a + bs.length ≤ addressSpace) :
    Running (memWrite a bs s) :=
  ⟨writeBytes_wf h.wf a bs, writeBytes_inSpace h.inSpace ha, h.olen, h.causes⟩

theorem Running.runItems {item : Nat → WorkItem} {order : List Nat} {s : State} (h : Running s)
    (hout : ∀ q ∈ order, (item q).addr + (item q).out.length ≤ addressSpace)
    (hnoted : ∀ q, ∀ c ∈ (item q).noted, c.Unreserved) : Running (runItems item order s) := by
  induction order generalizing s with
  | nil => exact h
  | cons q qs ih =>
    exact ih ((h.memWrite (hout q (by simp))).noteItem (hnoted q) q) fun p hp => hout p (by simp [hp])

/-- A state without a command in flight meets the invariant by its memory, `OK`, `OLEN` and causes alone. -/
theorem inv_of_idle {t : State} (hb : t.busy = false) (hwf : t.mem.wf) (hsp : t.mem.inSpace)
    (hok : t.ok = true → hasError t.ecause = false) (holen : hasError t.ecause = true → t.olen = 0)
    (hcauses : ReservedClear t.ecause) : Inv t :=
  ⟨hwf, hsp, fun h => by simp [hb] at h, hok, fun h => by simp [hb] at h, holen, hcauses⟩

theorem inv_complete {s : State} (hwf : s.mem.wf) (hsp : s.mem.inSpace) (holen : hasError s.ecause = true → s.olen = 0)
    (hcauses : ReservedClear s.ecause) : Inv (complete s) :=
  inv_of_idle rfl hwf hsp (by simp) holen hcauses

theorem Running.inv_complete {s : State} (h : Running s) : Inv (complete s) :=
  Machine.inv_complete h.wf h.inSpace (fun _ => h.olen) h.causes

theorem Running.inv_raise {s : State} (h : Running s) {r : Raise} (hr : r.cause.Unreserved) : Inv (raise r s) :=
  inv_of_idle rfl h.wf h.inSpace (by simp) (fun _ => rfl) (h.causes.or hr.bit_reservedClear)

theorem Running.inv_finishStream {s : State} (h : Running s) {need : Nat} (hn : dstAddr s + need ≤ addressSpace) :
    Inv (finishStream need s) := by
  unfold finishStream
  split
  · exact Machine.inv_complete (blurRange_wf h.wf _ _) (blurRange_inSpace h.inSpace hn) (fun _ => rfl) h.causes
  · exact Machine.inv_complete h.wf h.inSpace (fun he => absurd he ‹_›) h.causes

theorem Running.inv_finishRaced {s : State} (h : Running s) {size : Nat} (hn : dstAddr s + size ≤ addressSpace) :
    Inv (finishRaced size s) :=
  inv_of_idle rfl (blurRange_wf h.wf _ _) (blurRange_inSpace h.inSpace hn) (by simp) (fun he => if_pos he)
    (racedCauses_reserved s)

/-! ## Sound plans -/

/-- The outputs of a job lie in the window of its output size at `dst`: the header and what every work item writes (20_memory R61,
R62). -/
structure Job.Inside (job : Job) (dst : Nat) : Prop where
  header : job.header.length ≤ job.need
  item   : ∀ q < job.count, dst ≤ (job.item q).addr ∧ (job.item q).addr + (job.item q).out.length ≤ dst + job.need

/-- What every plan of a stream command satisfies: it raises and notes no reserved cause, and the job it runs stays inside its
destination window, which lies in the address space. -/
def Plan.Sound (s : State) : Plan → Prop
  | .early r => r.cause.Unreserved
  | .late r _ => r.cause.Unreserved
  | .run job => dstAddr s + job.need ≤ addressSpace ∧ job.Inside (dstAddr s)
      ∧ ∀ q, ∀ c ∈ (job.item q).noted, c.Unreserved

theorem windowChecks_unreserved {s : State} {need : Nat} : ∀ c ∈ windowChecks s need, c.2.cause.Unreserved := by
  simp [windowChecks, checkCapacity, checkDestination, checkOverlap, Cause.Unreserved]

/-- A destination window that passes its checks lies in the address space (20_memory R63). -/
theorem inSpace_of_windowChecks {s : State} {need : Nat} (h : firstRaise (windowChecks s need) = none) :
    dstAddr s + need ≤ addressSpace := by
  simp only [firstRaise_eq_none, windowChecks, List.forall_mem_cons] at h
  obtain ⟨-, hdst, -⟩ := h
  simp only [checkDestination, Bool.or_eq_false_iff, decide_eq_false_iff_not] at hdst
  omega

theorem plan_sound {s : State} {need : Nat} {checks : List (Bool × Raise)} {job : Job} (hneed : job.need = need)
    (hchecks : ∀ c ∈ checks, c.2.cause.Unreserved)
    (hnoted : ∀ q, ∀ c ∈ (job.item q).noted, c.Unreserved)
    (hinside : firstRaise checks = none → job.Inside (dstAddr s)) :
    (plan checks (windowChecks s need) job).Sound s := by
  subst hneed
  rcases plan_cases checks (windowChecks s job.need) job with ⟨r, hr, hp⟩ | ⟨r, -, hr, hp⟩ | ⟨hc, hw, hp⟩ <;> rw [hp]
  · exact hchecks _ (firstRaise_mem hr)
  · exact windowChecks_unreserved _ (firstRaise_mem hr)
  · exact ⟨inSpace_of_windowChecks hw, hinside hc, hnoted⟩

theorem Running.inv_runJob {s : State} (h : Running s) {job : Job} (hp : (Plan.run job).Sound s) : Inv (runJob job s) := by
  obtain ⟨hspace, hinside, hnoted⟩ := hp
  have hheader : Running (Machine.memWrite (dstAddr s) job.header s) :=
    h.memWrite (by have := hinside.header; omega)
  have hitems := hheader.runItems (item := job.item) (order := List.range job.count)
    (fun q hq => by have := hinside.item q (List.mem_range.1 hq); omega) hnoted
  refine hitems.inv_finishStream ?_
  obtain ⟨e, f, n, hframe⟩ := runItems_frame job.item (List.range job.count) (Machine.memWrite (dstAddr s) job.header s)
  rw [hframe]
  exact hspace

theorem Running.inv_runPlan {s : State} (h : Running s) {p : Plan} (hp : p.Sound s) : Inv (runPlan p s) := by
  rcases runPlan_cases p s with ⟨-, he⟩ | ⟨-, ⟨r, rfl, he⟩ | ⟨r, n, rfl, he⟩ | ⟨job, rfl, he⟩⟩ <;> rw [he]
  · exact h.inv_finishRaced (destinationSize_inSpace p s)
  · exact h.inv_raise hp
  · exact h.inv_raise hp
  · exact h.inv_runJob hp

end Sys2Proof.Machine
end

section
/-! SUPPORT. The windows of the linear streams: every work item writes inside the destination window of its command, whatever the
operands, the header and the tables hold (41 R171 to R176, R181 to R184). -/

namespace Sys2Proof.Machine

/-! ## Windows of the linear streams -/

/-- `ceil(n/b)` counts the full blocks of `n`, and a short one where bytes remain (00_scope R13). -/
theorem ceilDiv_eq {b : Nat} (hb : 0 < b) (n : Nat) : ceilDiv n b = n / b + if 0 < n % b then 1 else 0 := by
  have hn := Nat.div_add_mod' n b
  have hr := Nat.mod_lt n hb
  refine Nat.div_eq_of_lt_le ?_ ?_ <;> split <;> simp only [Nat.add_mul, Nat.one_mul, Nat.zero_mul] <;> omega

/-- A layout of full blocks and a remainder shorter than a block (41 R173, R181). -/
structure Layout.Consistent (l : Layout) : Prop where
  blocks : l.B = l.F + if 0 < l.rem then 1 else 0
  data   : l.n = l.F * l.bs + l.rem
  short  : l.rem < l.bs

theorem bytes_of_width? {n : Nat} {w : Width} (h : width? n = some w) : w.bytes = n := by
  unfold width? at h
  split at h
  · cases h
    exact ‹n = 1›.symm
  · split at h <;> cases h
    exact ‹n = 8›.symm

theorem Width.bytes_pos (w : Width) : 0 < w.bytes := by cases w <;> decide

theorem Codec.legalBlockSize_pos {c : Codec} {bs : Nat} (h : c.legalBlockSize bs = true) : 0 < bs := by
  cases c with
  | par =>
    simp only [legalBlockSize, Bool.and_eq_true, decide_eq_true_eq] at h
    exact h.1
  | ham | sec =>
    obtain ⟨w, hw⟩ := Option.isSome_iff_exists.1 h
    exact bytes_of_width? hw ▸ w.bytes_pos

theorem encLayout_consistent {s : State} (h : 0 < (encLayout s).bs) : (encLayout s).Consistent where
  blocks := ceilDiv_eq h _
  data   := (Nat.div_add_mod' _ _).symm
  short  := Nat.mod_lt _ h

/-- Block `q` of the full ones ends before them all do. -/
theorem block_end_le {q F : Nat} (h : q < F) (b : Nat) : q * b + b ≤ F * b := by
  simpa [Nat.succ_mul] using Nat.mul_le_mul_right b h

/-- A block of a Parity stream is the short last one, or a full one (41 R175). -/
theorem parBlock_cases {l : Layout} (hl : l.Consistent) {q : Nat} (hq : q < l.B) :
    (q = l.F ∧ l.B = l.F + 1 ∧ Codec.par.itemLen l q = l.rem) ∨ (q < l.F ∧ l.F ≤ l.B ∧ Codec.par.itemLen l q = l.bs) := by
  have hB := hl.blocks
  simp only [Codec.itemLen]
  grind

/-- The data of a work item lies in the data (41 R175, R184). -/
theorem Codec.data_inside {l : Layout} (hl : l.Consistent) (c : Codec) {q : Nat} (hq : q < c.items l) :
    c.dataOffset l q + c.itemLen l q ≤ l.n := by
  have hfull : q < l.F → q * l.bs + l.bs ≤ l.F * l.bs := fun h => block_end_le h l.bs
  rw [hl.data]
  cases c with
  | par =>
    rcases parBlock_cases hl hq with ⟨rfl, -, hlen⟩ | ⟨hqF, -, hlen⟩ <;> simp only [hlen, dataOffset]
    · exact Nat.le_refl _
    · have := hfull hqF
      omega
  | ham | sec =>
    simp only [items, dataOffset, itemLen] at hq ⊢
    split
    · have := hfull ‹_›
      omega
    · omega

/-- The codeword of a work item lies in the stream (41 R175, R184). -/
theorem Codec.codeword_inside {l : Layout} (hl : l.Consistent) (c : Codec) {q : Nat} (hq : q < c.items l) :
    c.codeOffset l q + (1 + c.itemLen l q) ≤ c.streamSize l := by
  have hfull : q < l.F → q * (1 + l.bs) + (1 + l.bs) ≤ l.F * (1 + l.bs) := fun h => block_end_le h _
  cases c with
  | par =>
    have hF : l.F * (1 + l.bs) = l.F + l.F * l.bs := by ring
    rcases parBlock_cases hl hq with ⟨rfl, hB, hlen⟩ | ⟨hqF, hB, hlen⟩ <;>
      simp only [hlen, codeOffset, streamSize, hl.data]
    · omega
    · have := hfull hqF
      omega
  | ham | sec =>
    simp only [items, codeOffset, itemLen, streamSize] at hq ⊢
    split
    · have := hfull ‹_›
      omega
    · omega

theorem Codec.streamSize_ge (c : Codec) (l : Layout) : 17 ≤ c.streamSize l := by
  cases c <;> simp only [streamSize] <;> omega

@[simp] theorem linHeader_length (c : Codec) (l : Layout) : (linHeader c l).length = 17 := rfl

@[simp] theorem memRead_length (s : State) (a n : Nat) : (memRead s a n).length = n := readBytes_length ..

/-- A full block is as wide as its block size, a remaining byte 1 byte wide (41 R178, R187). -/
theorem itemWidth_bytes {l : Layout} (hbs : (width? l.bs).isSome = true) (q : Nat) :
    (itemWidth l q).bytes = if q < l.F then l.bs else 1 := by
  obtain ⟨w, hw⟩ := Option.isSome_iff_exists.1 hbs
  unfold itemWidth
  split
  · rw [hw]
    exact bytes_of_width? hw
  · rfl

/-- A codeword decodes to as many bytes as it holds data bytes (41 R186 to R188). -/
theorem decodeBlock_length {c : Codec} {l : Layout} (hbs : c.legalBlockSize l.bs = true) (q : Nat) (t : CodeReads)
    (chk : Byte) {blk : List Byte} (hblk : blk.length = c.itemLen l q) :
    (c.decodeBlock (itemWidth l q) t chk blk).2.length = c.itemLen l q := by
  cases c with
  | par => exact hblk
  | ham | sec =>
    exact (bytesLE_length ..).trans (itemWidth_bytes hbs q)

theorem decodeBlock_unreserved {co : Codec} {w : Width} {t : CodeReads} {chk : Byte} {blk : List Byte} {c : Cause}
    (h : c ∈ (co.decodeBlock w t chk blk).1) : c.Unreserved := by
  cases co with
  | par =>
    simp only [Codec.decodeBlock] at h
    split at h <;> cases h
    decide
  | ham | sec => exact Verdict.unreserved_of_mem_cause h

theorem encPlan_sound (c : Codec) (s : State) : (encPlan c s).Sound s := by
  unfold encPlan
  refine plan_sound rfl (by simp [checkInit, checkSource, Cause.Unreserved]) (fun q d hd => nomatch hd) fun hchecks => ?_
  simp only [firstRaise_eq_none, List.forall_mem_cons, Bool.not_eq_false'] at hchecks
  obtain ⟨-, hbs, -⟩ := hchecks
  have hl := encLayout_consistent (Codec.legalBlockSize_pos hbs)
  refine ⟨c.streamSize_ge _, fun q hq => ?_⟩
  have := c.codeword_inside hl hq
  simp only [encItem, List.length_cons, memRead_length]
  omega

/-- A header that passes its checks gives a consistent layout (41 R181 (7), (9)). -/
theorem decLayout_consistent {c : Codec} {s : State}
    (h : firstRaise (linHeaderChecks c s (decLayout s)) = none) :
    c.legalBlockSize (decLayout s).bs = true ∧ (decLayout s).Consistent := by
  simp only [firstRaise_eq_none, linHeaderChecks, malformed, List.forall_mem_cons, Bool.not_eq_false', Bool.or_eq_false_iff,
    Bool.and_eq_false_iff, decide_eq_false_iff_not, beq_eq_false_iff_ne, Nat.not_le] at h
  obtain ⟨-, hbs, -, ⟨hshort, hB⟩, -⟩ := h
  refine ⟨hbs, ?_, rfl, hshort⟩
  simp only [decLayout] at hB ⊢
  grind

theorem decFromHeader_sound {c : Codec} {before : List (Bool × Raise)} {s : State}
    (hbefore : ∀ b ∈ before, b.2.cause.Unreserved) : (decFromHeader c before s).Sound s := by
  unfold decFromHeader
  refine plan_sound rfl ?_ (fun q d hd => decodeBlock_unreserved hd) fun hchecks => ?_
  · simp only [List.forall_mem_append]
    exact ⟨hbefore, by simp [linHeaderChecks, malformed, Cause.Unreserved]⟩
  · have hheader : firstRaise (linHeaderChecks c s (decLayout s)) = none := by
      rw [firstRaise_eq_none] at hchecks ⊢
      exact fun b hb => hchecks b (List.mem_append_right _ hb)
    obtain ⟨hbs, hl⟩ := decLayout_consistent hheader
    refine ⟨Nat.zero_le _, fun q hq => ?_⟩
    have := c.data_inside hl hq
    simp only [decItem, decodeBlock_length hbs q _ _ (memRead_length ..)]
    omega

theorem decodeChecks_unreserved (s : State) : ∀ c ∈ decodeChecks s, c.2.cause.Unreserved := by
  simp [decodeChecks, checkInit, checkSource, malformed, Cause.Unreserved]

/-- The checks of an explicit decode up to its tag. -/
theorem tagChecks_unreserved (s : State) (tag : Byte) : ∀ c ∈ decodeChecks s ++ [checkTag s tag], c.2.cause.Unreserved := by
  simp only [List.forall_mem_append]
  exact ⟨decodeChecks_unreserved s, by simp [checkTag, malformed, Cause.Unreserved]⟩

theorem decPlan_sound (c : Codec) (s : State) : (decPlan c s).Sound s := decFromHeader_sound (tagChecks_unreserved s c.tag)

end Sys2Proof.Machine
end

section
/-! SUPPORT. The windows of the Reed-Solomon streams, and that the plan of every stream command is sound (42 R222, R223, R230 to
R232; 43 R254). -/

namespace Sys2Proof.Machine

/-! ## Windows of the Reed-Solomon streams -/

/-- A layout whose groups all have `k` data devices but a short last one, and whose last word may be partial (42 R222, R230). -/
structure RsLayout.Consistent (l : RsLayout) : Prop where
  devices : 0 < l.k
  words   : l.W = (l.B - if 0 < l.rdd then 1 else 0) * l.k + l.rdd
  short   : 0 < l.rdd → 0 < l.B
  partialWord : l.rl < 8

theorem rsEncLayout_groups {s : State} (h : 0 < (rsEncLayout s).k) :
    (rsEncLayout s).B = (rsEncLayout s).W / (rsEncLayout s).k + if 0 < (rsEncLayout s).rdd then 1 else 0 := ceilDiv_eq h _

theorem rsEncLayout_consistent {s : State} (h : 0 < (rsEncLayout s).k) : (rsEncLayout s).Consistent where
  devices := h
  words := by
    rw [rsEncLayout_groups h, Nat.add_sub_cancel]
    exact (Nat.div_add_mod' _ _).symm
  short hr := by
    rw [rsEncLayout_groups h, if_pos hr]
    exact Nat.succ_pos _
  partialWord := Nat.mod_lt _ (by decide)

/-- A group ends the data words, or is a full one with a word after it (42 R223). -/
theorem group_cases {l : RsLayout} (hl : l.Consistent) {b : Nat} (hb : b < l.B) :
    (b + 1 = l.B ∧ 0 < groupSize l b ∧ b * l.k + groupSize l b = l.W)
      ∨ (b + 1 < l.B ∧ groupSize l b = l.k ∧ b * l.k + l.k < l.W) := by
  obtain ⟨hk, hW, hshort, -⟩ := hl
  rcases Nat.lt_or_ge (b + 1) l.B with hlt | hge
  · refine .inr ⟨hlt, by simp [groupSize, Nat.ne_of_lt hlt], ?_⟩
    rw [hW]
    split
    · have := block_end_le (q := b) (F := l.B - 1) (by omega) l.k
      omega
    · have := block_end_le (q := b + 1) (F := l.B) hlt l.k
      rw [Nat.succ_mul] at this
      simp only [Nat.sub_zero]
      omega
  · obtain rfl : b = l.B - 1 := by omega
    refine .inl ⟨by omega, ?_⟩
    simp only [groupSize, hW]
    split <;> rename_i h
    · rw [if_pos h.1]
      exact ⟨h.1, rfl⟩
    · have hrdd : l.rdd = 0 := by by_contra h0; exact h ⟨by omega, by omega⟩
      refine ⟨hk, ?_⟩
      rw [hrdd, if_neg (Nat.lt_irrefl 0), ← Nat.succ_mul]
      congr 1
      omega

/-! ## Sizes of devices and records -/

theorem flatten_length_le {α : Type} {L : List (List α)} {n : Nat} (h : ∀ u ∈ L, u.length ≤ n) :
    L.flatten.length ≤ L.length * n := by
  rw [List.length_flatten]
  simpa using List.sum_le_card_nsmul (L.map List.length) n (by simpa using h)

/-- A sum of devices has at most the 8 bytes of a device (42 R210). -/
theorem devSum_length_le (us : List Device) : (devSum us).length ≤ 8 := by
  induction us with
  | nil => simp [devSum]
  | cons u us ih =>
    simp only [devSum, List.foldr_cons, devXor, List.length_zipWith] at ih ⊢
    omega

theorem codeDevice_length_le (v : List Device) (i : Nat) : (codeDevice v i).length ≤ 8 := devSum_length_le _

theorem interpolate_length_le (X : List Byte) (vs : List Device) (y : Byte) : (interpolate X vs y).length ≤ 8 :=
  devSum_length_le _

/-- The records of a group have at most 9 bytes each (42 R219, R223). -/
theorem groupRecords_flatten_length_le {m : Nat} {v : List Device} (hv : ∀ d ∈ v, d.length ≤ 8) :
    (groupRecords m v).flatten.length ≤ (m + v.length) * 9 := by
  have h : ∀ u ∈ groupRecords m v, u.length ≤ 9 := by
    intro u hu
    simp only [groupRecords, List.mem_append, List.mem_map] at hu
    rcases hu with ⟨i, -, rfl⟩ | ⟨d, hd, rfl⟩
    · exact Nat.succ_le_succ (codeDevice_length_le v i)
    · exact Nat.succ_le_succ (hv d hd)
  simpa [groupRecords] using flatten_length_le h

theorem dataWord_length {s : State} {l : RsLayout} (hrl : l.rl < 8) (i : Nat) : (dataWord s l i).length = 8 := by
  unfold dataWord
  split <;> simp
  omega

theorem mem_getD_nil {L : List (List Byte)} {e : Nat} : L.getD e [] = [] ∨ L.getD e [] ∈ L := by
  rcases Nat.lt_or_ge e L.length with h | h <;> simp [List.getD_eq_getElem?_getD, h]

/-- A decoded group has `kb` data devices, each with at most the bytes of the largest record after its parity byte (42 R220). -/
theorem groupDecode_length {m kb : Nat} {records : List (List Byte)} (hr : ∀ r ∈ records, r.length ≤ 9) {v : List Device}
    (h : groupDecode m kb records = some v) : v.length = kb ∧ ∀ d ∈ v, d.length ≤ 8 := by
  have hcoded : ∀ e, ((records.drop m ++ records.take m).getD e []).tail.length ≤ 8 := by
    intro e
    rw [List.length_tail]
    rcases mem_getD_nil (L := records.drop m ++ records.take m) (e := e) with h0 | hmem
    · rw [h0]
      exact Nat.zero_le _
    · have : (records.drop m ++ records.take m).getD e [] ∈ records := by
        rcases List.mem_append.1 hmem with h | h
        · exact List.mem_of_mem_drop h
        · exact List.mem_of_mem_take h
      have := hr _ this
      omega
  simp only [groupDecode] at h
  split at h
  · cases h
  · cases h
    refine ⟨by simp, fun d hd => ?_⟩
    obtain ⟨e, -, rfl⟩ := List.mem_map.1 hd
    split
    · exact interpolate_length_le ..
    · exact hcoded e

theorem groupRecordsAt_length {s : State} {l : RsLayout} {b : Nat} : ∀ r ∈ groupRecordsAt s l b, r.length ≤ 9 := by
  intro r hr
  obtain ⟨i, -, rfl⟩ := List.mem_map.1 hr
  exact Nat.le_of_eq (memRead_length ..)

/-- A partial last word gives up the bytes that it lacks (42 R232). -/
theorem groupOutput_length_le {l : RsLayout} {b : Nat} {v : List Device} (hn : v.length = groupSize l b)
    (hv : ∀ d ∈ v, d.length ≤ 8) :
    (groupOutput l b v).length ≤ 8 * groupSize l b - if 0 < l.rl ∧ b + 1 = l.B then 8 - l.rl else 0 := by
  have := flatten_length_le hv
  unfold groupOutput
  split
  · simp
  · omega

/-! ## The plans -/

theorem legalDevices_pos {k m : Nat} (h : legalDevices k m = true) : 0 < k := by
  simp only [legalDevices, Bool.and_eq_true, decide_eq_true_eq] at h
  omega

theorem rsEncItem_inside {s : State} {l : RsLayout} (hl : l.Consistent) {b : Nat} (hb : b < l.B) :
    groupOffset l b + (rsEncItem s l b).out.length ≤ rsStreamSize l := by
  have hout : (rsEncItem s l b).out.length ≤ (l.m + groupSize l b) * 9 := by
    have := groupRecords_flatten_length_le (m := l.m)
      (v := (List.range (groupSize l b)).map fun j => dataWord s l (b * l.k + j))
      (by simp [dataWord_length hl.partialWord])
    simpa [rsEncItem] using this
  have hm := block_end_le hb l.m
  have hW : b * l.k + groupSize l b ≤ l.W := by
    rcases group_cases hl hb with ⟨-, -, h⟩ | ⟨-, hg, h⟩ <;> omega
  have hoff : groupOffset l b = 25 + 9 * (b * l.m + b * l.k) := by simp only [groupOffset]; ring
  rw [hoff]
  simp only [rsStreamSize]
  omega

theorem rsEncPlan_sound (s : State) : (rsEncPlan s).Sound s := by
  unfold rsEncPlan
  refine plan_sound rfl (by simp [checkInit, checkSource, Cause.Unreserved]) (fun q d hd => nomatch hd) fun hchecks => ?_
  simp only [firstRaise_eq_none, List.forall_mem_cons, Bool.not_eq_false'] at hchecks
  obtain ⟨-, hdev, -⟩ := hchecks
  have hl := rsEncLayout_consistent (legalDevices_pos hdev)
  refine ⟨Nat.le_add_right 25 _, fun b hb => ?_⟩
  have := rsEncItem_inside (s := s) hl hb
  simp only [rsEncItem] at this ⊢
  omega

theorem rsDecItem_addr (s : State) (l : RsLayout) (b : Nat) : (rsDecItem s l b).addr = dstAddr s + 8 * (b * l.k) := by
  unfold rsDecItem
  split <;> rfl

theorem rsDecItem_unreserved {s : State} {l : RsLayout} {b : Nat} {c : Cause} (h : c ∈ (rsDecItem s l b).noted) :
    c.Unreserved := by
  unfold rsDecItem at h
  split at h <;> cases h
  decide

theorem rsDecItem_out_length_le (s : State) (l : RsLayout) (b : Nat) :
    (rsDecItem s l b).out.length ≤ 8 * groupSize l b - if 0 < l.rl ∧ b + 1 = l.B then 8 - l.rl else 0 := by
  unfold rsDecItem
  split
  · exact Nat.zero_le _
  · rename_i v hv
    obtain ⟨hn, hlen⟩ := groupDecode_length groupRecordsAt_length hv
    exact groupOutput_length_le hn hlen

/-- The data of a group lies in the data (42 R231, R232). -/
theorem group_data_inside {l : RsLayout} (hl : l.Consistent) {b : Nat} (hb : b < l.B) :
    8 * (b * l.k) + (8 * groupSize l b - if 0 < l.rl ∧ b + 1 = l.B then 8 - l.rl else 0)
      ≤ 8 * l.W - if 0 < l.rl then 8 - l.rl else 0 := by
  rcases group_cases hl hb with ⟨hlast, hpos, hW⟩ | ⟨hlt, hg, hW⟩
  · simp only [hlast, and_true]
    split <;> omega
  · rw [if_neg fun h => Nat.ne_of_lt hlt h.2]
    split <;> omega

/-- A header that passes its checks gives a consistent layout (42 R230 (6), (8)). -/
theorem rsDecLayout_consistent {s : State} (h : firstRaise (rsHeaderChecks s (rsDecLayout s)) = none) :
    (rsDecLayout s).Consistent := by
  simp only [firstRaise_eq_none, rsHeaderChecks, malformed, List.forall_mem_cons, Bool.not_eq_false', Bool.or_eq_false_iff,
    Bool.and_eq_false_iff, decide_eq_false_iff_not, beq_eq_false_iff_ne, Nat.not_le] at h
  obtain ⟨-, hdev, -, ⟨⟨-, hrl⟩, hB⟩, -⟩ := h
  exact ⟨legalDevices_pos hdev, rfl, by omega, hrl⟩

theorem rsDecFromHeader_sound {before : List (Bool × Raise)} {s : State} (hbefore : ∀ b ∈ before, b.2.cause.Unreserved) :
    (rsDecFromHeader before s).Sound s := by
  unfold rsDecFromHeader
  refine plan_sound rfl ?_ (fun q d hd => rsDecItem_unreserved hd) fun hchecks => ?_
  · simp only [List.forall_mem_append]
    exact ⟨hbefore, by simp [rsHeaderChecks, malformed, Cause.Unreserved]⟩
  · have hheader : firstRaise (rsHeaderChecks s (rsDecLayout s)) = none := by
      rw [firstRaise_eq_none] at hchecks ⊢
      exact fun b hb => hchecks b (List.mem_append_right _ hb)
    refine ⟨Nat.zero_le _, fun b hb => ?_⟩
    have hout := rsDecItem_out_length_le s (rsDecLayout s) b
    have hin := group_data_inside (rsDecLayout_consistent hheader) hb
    have hn : (rsDecLayout s).n = 8 * (rsDecLayout s).W - if 0 < (rsDecLayout s).rl then 8 - (rsDecLayout s).rl else 0 := rfl
    simp only [rsDecItem_addr, hn]
    omega

theorem rsDecPlan_sound (s : State) : (rsDecPlan s).Sound s := rsDecFromHeader_sound (tagChecks_unreserved s 4)

theorem autoPlan_sound (s : State) : (autoPlan s).Sound s := by
  have hnone : ∀ b ∈ ([] : List (Bool × Raise)), b.2.cause.Unreserved := by simp
  unfold autoPlan
  split
  · exact decodeChecks_unreserved s _ (firstRaise_mem ‹_›)
  · split
    · exact decFromHeader_sound hnone
    · exact decFromHeader_sound hnone
    · exact decFromHeader_sound hnone
    · exact rsDecFromHeader_sound hnone
    · exact ⟨nofun, nofun⟩

/-- Every stream command's plan is sound, in every state. -/
theorem streamPlan_sound {i : Instr} {s : State} {p : Plan} (h : streamPlan i s = some p) : p.Sound s := by
  cases i <;> cases h
  case encPar | encHam | encSec => exact encPlan_sound _ s
  case encRs => exact rsEncPlan_sound s
  case decAuto => exact autoPlan_sound s
  case decPar | decHam | decSec => exact decPlan_sound _ s
  case decRs => exact rsDecPlan_sound s

end Sys2Proof.Machine
end

section
/-! PROOFS. The invariant of the machine: every command and every event keeps it (O59), and the state after reset has it (O60). -/

namespace Sys2Proof.Machine

/-! ## Commands -/

/-- A stream command is the run of its plan. -/
theorem exec_of_streamPlan {i : Instr} {s : State} {p : Plan} (h : streamPlan i s = some p) :
    exec i s = .next (runPlan p s) := by
  cases i <;> cases h <;> rfl

theorem Running.inv_checked {s : State} (h : Running s) {checks : List (Bool × Raise)} {k : State → State}
    (hchecks : ∀ c ∈ checks, c.2.cause.Unreserved) (hk : Running (k s)) : Inv (checked checks k s) := by
  rcases checked_cases checks k s with ⟨r, hr, he⟩ | ⟨-, he⟩ <;> rw [he]
  · exact h.inv_raise (hchecks _ (firstRaise_mem hr))
  · exact hk.inv_complete

theorem Running.inv_withWidth {s : State} (h : Running s) {k : Width → State → State} (hk : ∀ w, Running (k w s)) :
    Inv (withWidth k s) := by
  rcases withWidth_cases k s with ⟨r, he, rfl | rfl⟩ | ⟨w, -, -, he⟩ <;> rw [he]
  · exact h.inv_raise (by decide)
  · exact h.inv_raise ⟨nofun, nofun⟩
  · exact (hk w).inv_complete

theorem Running.applyBlockResult {s : State} (h : Running s) (r : BlockResult) : Running (applyBlockResult r s) := by
  unfold Machine.applyBlockResult
  split
  · exact h.setBD _
  · obtain ⟨hwf, hsp, holen, hcauses⟩ := ((h.setBD r.d).setBP r.chk).note (c := .singleBitCorrected) (by decide) 0
    exact ⟨hwf, hsp, holen, hcauses⟩
  · exact h.note (by decide) 0
  · exact h.note (by decide) 0

theorem Running.storeEntry {s : State} (h : Running s) : Running (storeEntry s) := by
  unfold Machine.storeEntry
  split
  · exact ⟨h.wf, h.inSpace, h.olen, h.causes⟩
  · exact h

theorem Running.loadEntry {s : State} (h : Running s) : Running (loadEntry s) := by
  unfold Machine.loadEntry
  split
  · exact h.setBD _
  · exact h

theorem blockChecks_unreserved (s : State) (legal : Bool) : ∀ c ∈ blockChecks s legal, c.2.cause.Unreserved := by
  simp [blockChecks, checkInit, Cause.Unreserved]

/-- Every command ends, in a state that meets the invariant. -/
theorem exec_inv {s : State} (h : Running s) (i : Instr) : ∃ t, exec i s = .next t ∧ Inv t := by
  cases hp : streamPlan i s with
  | some p => exact ⟨_, exec_of_streamPlan hp, h.inv_runPlan (streamPlan_sound hp)⟩
  | none =>
    cases i
    case encPar | encHam | encSec | encRs | decAuto | decPar | decHam | decSec | decRs => cases hp
    case nop => exact ⟨_, rfl, h.inv_complete⟩
    case init | close => exact ⟨_, rfl, inv_complete h.wf h.inSpace (fun _ => h.olen) h.causes⟩
    case pcm | bencHam | bencSec => exact ⟨_, rfl, h.inv_withWidth fun _ => h.setBP _⟩
    case bdecHam | bdecSec => exact ⟨_, rfl, h.inv_withWidth fun _ => h.applyBlockResult _⟩
    case bencPar => exact ⟨_, rfl, h.inv_checked (blockChecks_unreserved s _) (h.setBP _)⟩
    case bdecPar =>
      refine ⟨_, rfl, h.inv_checked (blockChecks_unreserved s _) ?_⟩
      split
      · exact h
      · exact h.note (by decide) 0
    case twr => exact ⟨_, rfl, h.inv_checked (by simp [checkIndex, Cause.Unreserved]) h.storeEntry⟩
    case trd => exact ⟨_, rfl, h.inv_checked (by simp [checkIndex, Cause.Unreserved]) h.loadEntry⟩

theorem Inv.wf {s : State} (h : Inv s) : s.mem.wf := h.1

theorem Inv.inSpace {s : State} (h : Inv s) : s.mem.inSpace := h.2.1

theorem advance_inv {s t : State} (h : Inv s) (ht : advance s = .next t) : Inv t := by
  unfold advance at ht
  split at ht
  · have hrun := h.running ‹_›
    split at ht
    · obtain ⟨t', he, hinv⟩ := exec_inv hrun ‹_›
      rw [he] at ht
      cases ht
      exact hinv
    · cases ht
      exact hrun.inv_raise ⟨nofun, nofun⟩
  · cases ht
    exact h

/-! ## The host's side -/

/-- With no command in flight, only memory, `OK`, `ECAUSE` and `OLEN` matter. -/
theorem Inv.of_idle_eq {s t : State} (h : Inv s) (hb : t.busy = false) (hmem : t.mem = s.mem) (hok : t.ok = s.ok)
    (hecause : t.ecause = s.ecause) (holen : t.olen = s.olen) : Inv t := by
  obtain ⟨hwf, hsp, -, hsok, -, hsolen, hcauses⟩ := h
  exact inv_of_idle hb (hmem ▸ hwf) (hmem ▸ hsp) (by rwa [hok, hecause]) (by rwa [hecause, holen]) (hecause ▸ hcauses)

/-- Another canonical memory, and a mark of races, keep the invariant. -/
theorem Inv.with_memory {s : State} (h : Inv s) {m : Memory} (hwf : m.wf) (hsp : m.inSpace) (r : Bool) :
    Inv { s with mem := m, flight := { s.flight with raced := r } } := by
  obtain ⟨-, -, hrest⟩ := h
  exact ⟨hwf, hsp, hrest⟩

theorem accept_accepted (v : Word64) (s : State) : Accepted (accept v s) := by simp [Accepted]

theorem accept_inv {s : State} (h : Inv s) (v : Word64) : Inv (accept v s) := by
  obtain ⟨hwf, hsp, -⟩ := h
  exact ⟨hwf, hsp, fun _ => accept_accepted v s, nofun, nofun, fun _ => rfl, reservedClear_zero⟩

theorem writeOperand_inv {s : State} (h : Inv s) (n : Nat) (v : Word64) : Inv (writeOperand n v s) := by
  unfold writeOperand
  split
  · exact h
  · exact h.of_idle_eq (Bool.eq_false_iff.2 ‹_›) rfl rfl rfl rfl

theorem writeCmd_inv {s : State} (h : Inv s) (v : Word64) : Inv (writeCmd v s) := by
  unfold writeCmd
  split
  · exact h
  · exact accept_inv h v

theorem writeStatus_inv {s : State} (h : Inv s) (v : Word64) : Inv (writeStatus v s) := by
  unfold writeStatus
  split
  · exact h.of_idle_eq (by simp_all) rfl rfl rfl rfl
  · exact h

theorem hostWrite_inv {s : State} (h : Inv s) (slot : Nat) (v : Word64) : Inv (hostWrite slot v s) := by
  unfold hostWrite
  split_ifs
  exacts [writeOperand_inv h slot v, writeCmd_inv h v, writeStatus_inv h v, h, h, h]

theorem hostRead_inv {s : State} (h : Inv s) (slot : Nat) : Inv (hostRead slot s) := by
  unfold hostRead spendDraw
  split <;> exact h

theorem markRaced_inv {s : State} (h : Inv s) {as : List Nat} (has : ∀ a ∈ as, a < addressSpace) : Inv (markRaced as s) := by
  unfold markRaced
  split
  · exact h
  · exact h.with_memory (blurAll_wf h.wf as) (blurAll_inSpace h.inSpace has) true

theorem pokeByte_inv {s : State} (h : Inv s) {a : Nat} (ha : a < addressSpace) (b : Byte) : Inv (pokeByte s a b) := by
  unfold pokeByte
  split
  · exact markRaced_inv h (by simpa using ha)
  · exact h.with_memory (write_wf h.wf a b) (write_inSpace h.inSpace ha b) s.flight.raced

theorem pokeBytes_inv {s : State} (h : Inv s) {a : Nat} {bs : List Byte} (ha : a + bs.length ≤ addressSpace) :
    Inv (pokeBytes s a bs) := by
  induction bs generalizing s a with
  | nil => exact h
  | cons b bs ih =>
    simp only [List.length_cons] at ha
    exact ih (pokeByte_inv h (by omega) b) (by omega)

theorem hostPoke_inv {s t : State} (h : Inv s) {a : Nat} {bs : List Byte} (ht : hostPoke a bs s = .next t) : Inv t := by
  unfold hostPoke at ht
  split at ht
  · cases ht
  · split at ht
    · cases ht
    · cases ht
      exact pokeBytes_inv h (Nat.not_lt.1 ‹_›)

theorem hostPeek_inv {s t : State} (h : Inv s) {a n : Nat} (ht : hostPeek a n s = .next t) : Inv t := by
  unfold hostPeek at ht
  split at ht
  · cases ht
  · split at ht
    · cases ht
    · cases ht
      refine markRaced_inv (s := s) h fun x hx => ?_
      obtain ⟨j, hj, rfl⟩ := List.mem_map.1 (List.mem_filter.1 hx).1
      have := List.mem_range.1 hj
      omega

theorem flightNeed_inSpace (s : State) : dstAddr s + flightNeed s ≤ addressSpace := by
  unfold flightNeed
  split
  · exact destinationSize_inSpace _ s
  · exact Nat.le_of_lt s.flight.ops.dst.isLt

theorem hostReset_inv {s : State} (h : Inv s) : Inv (hostReset s) :=
  inv_of_idle rfl (blurRange_wf h.wf _ _) (blurRange_inSpace h.inSpace (flightNeed_inSpace s)) nofun (fun _ => rfl)
    reservedClear_zero

theorem onSlot_inv {s t : State} {addr width : Nat} {k : Nat → State → State} (hk : ∀ slot, Inv (k slot s))
    (ht : onSlot addr width k s = .next t) : Inv t := by
  unfold onSlot at ht
  split at ht <;> cases ht
  exact hk _

theorem hostStep_inv {s t : State} (h : Inv s) {e : HostEvent} {rest : List HostEvent} (ht : hostStep e rest s = .next t) :
    Inv t := by
  have hs : Inv { s with inputs := rest } := h
  cases e with
  | wr slot v => cases ht; exact hostWrite_inv hs slot v
  | rd slot => cases ht; exact hostRead_inv hs slot
  | busWr addr width v => exact onSlot_inv (fun slot => hostWrite_inv hs slot v) ht
  | busRd addr width => exact onSlot_inv (hostRead_inv hs) ht
  | poke addr bytes => exact hostPoke_inv hs ht
  | peek addr n => exact hostPeek_inv hs ht
  | wait =>
    simp only [hostStep] at ht
    split at ht
    · cases ht; exact hs
    · exact advance_inv h ht
  | reset => cases ht; exact hostReset_inv hs
  | tick => exact advance_inv hs ht

/-- Settles O59, by the events that a step takes: the engine's move keeps the invariant because every stream command stays inside
its destination window, the host's because it changes no operand or result register of a command in flight. -/
theorem stepKeepsTheMachineInvariant : Obligations.StepKeepsTheMachineInvariant := by
  intro s t h ht
  unfold step at ht
  split at ht
  · exact advance_inv h ht
  · exact hostStep_inv h ht

/-- Settles O60. -/
theorem resetStateMeetsTheMachineInvariant : Obligations.ResetStateMeetsTheMachineInvariant :=
  inv_of_idle rfl reset_memory_wf ⟨nofun, nofun⟩ nofun (fun _ => rfl) reservedClear_zero

end Sys2Proof.Machine
end

section
/-! PROOFS. The register frame of every command (O49): what it touches beside memory and the results of its end. -/

namespace Sys2Proof.Machine

/-- `t` is `u` but for memory, the bits `BUSY`, `DONE`, `OK` and the result registers other than `CPOS`: what the end of a command
may change (43 R260, 60 R290, 41 R185). -/
def EndsAs (u t : State) : Prop :=
  ∃ m e f n o b d k, t = { u with mem := m, ecause := e, einfo := f, corrcnt := n, olen := o, busy := b, done := d, ok := k }

theorem complete_endsAs (u : State) : EndsAs u (complete u) := ⟨_, _, _, _, _, _, _, _, rfl⟩

theorem raise_endsAs (r : Raise) (u : State) : EndsAs u (raise r u) := ⟨_, _, _, _, _, _, _, _, rfl⟩

theorem runPlan_endsAs (p : Plan) (s : State) : EndsAs s (runPlan p s) := by
  rcases runPlan_cases p s with ⟨-, he⟩ | ⟨-, ⟨r, -, he⟩ | ⟨r, n, -, he⟩ | ⟨job, -, he⟩⟩ <;> rw [he]
  · exact ⟨_, _, _, _, _, _, _, _, rfl⟩
  · exact raise_endsAs r s
  · exact raise_endsAs r s
  · obtain ⟨m, e, f, n, o, h⟩ := runJob_frame job s
    exact ⟨m, e, f, n, o, _, _, _, h⟩

/-- What a command may change beside memory, the status bits of its end and the result registers other than `CPOS`: nothing, or
`INIT`, a table entry while `INIT = 0`, `BD` and `BP`, these and `CPOS` (10_state R23, R33; 43 R256 to R259). -/
def Touches (i : Instr) (s u : State) : Prop :=
  match i with
  | .init | .close => ∃ b, u = { s with init := b }
  | .twr => u = s ∨ s.init = false ∧ ∃ t, u = { s with tables := t }
  | .pcm | .bencPar | .bencHam | .bencSec | .trd => ∃ bd bp, u = { s with x := { s.x with bd := bd, bp := bp } }
  | .bdecHam | .bdecSec => ∃ bd bp c, u = { s with x := { s.x with bd := bd, bp := bp }, cpos := c }
  | .nop | .encPar | .encHam | .encSec | .encRs | .decAuto | .decPar | .decHam | .decSec | .decRs | .bdecPar => u = s

theorem checked_touches {i : Instr} {s : State} (cs : List (Bool × Raise)) {k : State → State} (h : Touches i s s)
    (hk : firstRaise cs = none → ∃ u, Touches i s u ∧ EndsAs u (complete (k s))) :
    ∃ u, Touches i s u ∧ EndsAs u (checked cs k s) := by
  rcases checked_cases cs k s with ⟨r, -, he⟩ | ⟨hcs, he⟩ <;> rw [he]
  · exact ⟨s, h, raise_endsAs r s⟩
  · exact hk hcs

theorem withWidth_touches {i : Instr} {s : State} {k : Width → State → State} (h : Touches i s s)
    (hk : ∀ w, ∃ u, Touches i s u ∧ EndsAs u (complete (k w s))) : ∃ u, Touches i s u ∧ EndsAs u (withWidth k s) := by
  rcases withWidth_cases k s with ⟨r, he, -⟩ | ⟨w, -, -, he⟩ <;> rw [he]
  · exact ⟨s, h, raise_endsAs r s⟩
  · exact hk w

/-- The outcome of a block decode on the registers: `BD`, `BP` and `CPOS`, beside what a command's end may change. -/
theorem applyBlockResult_endsAs (r : BlockResult) (s : State) :
    ∃ bd bp c, EndsAs { s with x := { s.x with bd := bd, bp := bp }, cpos := c } (complete (applyBlockResult r s)) := by
  unfold applyBlockResult
  split
  · exact ⟨r.d, s.x.bp, s.cpos, complete_endsAs _⟩
  · exact ⟨r.d, r.chk, _, _, _, _, _, _, _, _, _, rfl⟩
  · exact ⟨s.x.bd, s.x.bp, s.cpos, _, _, _, _, _, _, _, _, rfl⟩
  · exact ⟨s.x.bd, s.x.bp, s.cpos, _, _, _, _, _, _, _, _, rfl⟩

/-- Every command changes what it touches, and ends. -/
theorem exec_endsAs {i : Instr} {s t : State} (ht : exec i s = .next t) : ∃ u, Touches i s u ∧ EndsAs u t := by
  cases i <;> cases ht
  case nop.refl => exact ⟨s, rfl, complete_endsAs s⟩
  case init.refl | close.refl => exact ⟨_, ⟨_, rfl⟩, complete_endsAs _⟩
  case encPar.refl | encHam.refl | encSec.refl | encRs.refl | decAuto.refl | decPar.refl | decHam.refl | decSec.refl
      | decRs.refl =>
    exact ⟨s, rfl, runPlan_endsAs _ s⟩
  case pcm.refl | bencHam.refl | bencSec.refl =>
    exact withWidth_touches ⟨_, _, rfl⟩ fun w => ⟨_, ⟨s.x.bd, _, rfl⟩, complete_endsAs _⟩
  case bencPar.refl => exact checked_touches _ ⟨_, _, rfl⟩ fun _ => ⟨_, ⟨s.x.bd, _, rfl⟩, complete_endsAs _⟩
  case bdecPar.refl =>
    refine checked_touches _ rfl fun _ => ⟨s, rfl, ?_⟩
    split
    · exact complete_endsAs s
    · exact ⟨_, _, _, _, _, _, _, _, rfl⟩
  case bdecHam.refl | bdecSec.refl =>
    refine withWidth_touches ⟨_, _, _, rfl⟩ fun w => ?_
    obtain ⟨bd, bp, c, h⟩ := applyBlockResult_endsAs _ s
    exact ⟨_, ⟨bd, bp, c, rfl⟩, h⟩
  case twr.refl =>
    refine checked_touches _ (.inl rfl) fun hchecks => ?_
    have hinit : s.init = false := firstRaise_eq_none.1 hchecks _ List.mem_cons_self
    unfold storeEntry
    split
    · exact ⟨_, .inr ⟨hinit, _, rfl⟩, complete_endsAs _⟩
    · exact ⟨s, .inl rfl, complete_endsAs s⟩
  case trd.refl =>
    refine checked_touches _ ⟨_, _, rfl⟩ fun _ => ?_
    unfold loadEntry
    split
    · exact ⟨_, ⟨_, s.x.bp, rfl⟩, complete_endsAs _⟩
    · exact ⟨s, ⟨_, _, rfl⟩, complete_endsAs s⟩

/-- Settles O49, from what each command touches. -/
theorem commandsLeaveTheRestAlone : Obligations.CommandsLeaveTheRestAlone := by
  intro i s t ht
  obtain ⟨u, hu, m, e, f, n, o, b, d, k, rfl⟩ := exec_endsAs ht
  cases i
  case nop | encPar | encHam | encSec | encRs | decAuto | decPar | decHam | decSec | decRs | bdecPar =>
    obtain rfl := hu
    exact ⟨⟨_, _, rfl⟩, by simp⟩
  case init | close =>
    obtain ⟨b, rfl⟩ := hu
    exact ⟨⟨_, _, rfl⟩, by simp⟩
  case twr =>
    obtain rfl | ⟨hi, t, rfl⟩ := hu
    · exact ⟨⟨_, _, rfl⟩, by simp⟩
    · exact ⟨⟨_, _, rfl⟩, by simp [hi]⟩
  case pcm | bencPar | bencHam | bencSec | trd =>
    obtain ⟨bd, bp, rfl⟩ := hu
    exact ⟨⟨_, _, rfl⟩, by simp⟩
  case bdecHam | bdecSec =>
    obtain ⟨bd, bp, c, rfl⟩ := hu
    exact ⟨⟨_, _, rfl⟩, by simp⟩

end Sys2Proof.Machine
end

section
/-! PROOFS. The step of the engine (O4), the default tables (O20), the slots as the host writes and reads them (O53, O52), and the
register window on the bus (O56). -/

namespace Sys2Proof.Machine

/-- Settles O4, from the engine's move on a legal value. -/
theorem stepRunsTheCommandInFlight : Obligations.StepRunsTheCommandInFlight := by
  intro s i hb hd
  have hadvance (t : State) (ht : t.busy = true) (hv : t.flight.value = s.flight.value) : advance t = exec i t := by
    simp [advance, ht, hv, hd]
  refine ⟨fun h => ?_, fun rest h => ?_, fun rest h hdone => ?_⟩
  · simp [step, h, hadvance s hb rfl]
  · simp [step, h, hostStep, hadvance { s with inputs := rest } hb rfl]
  · simp [step, h, hostStep, hdone, hadvance s hb rfl]

theorem defaultTables_allLoaded : allLoaded defaultTables = true := by decide +kernel

theorem defaultTables_codeOK (w : Width) : CodeOK w (readRows defaultTables w 0 0 0) (readSyndromes defaultTables w 0 0) := by
  cases w <;> decide +kernel

/-- Settles O20, each width's clauses by evaluation. -/
theorem defaultTablesAreWellFormed : Obligations.DefaultTablesAreWellFormed :=
  ⟨defaultTables_allLoaded, defaultTables_codeOK .one, defaultTables_codeOK .eight⟩

/-! ## Slots -/

theorem hostWrite_operand {s : State} (hb : s.busy = false) {slot : Nat} (h : slot ≤ 8) (v : Word64) :
    hostWrite slot v s = { s with x := setOperand slot v s.x } := by
  simp [hostWrite, h, writeOperand, hb]

/-- The value of operand register `n` (10_state R22). -/
def Operands.reg (x : Operands) : Nat → Word64
  | 0 => x.src
  | 1 => x.dst
  | 2 => x.len
  | 3 => x.cap
  | 4 => x.pa
  | 5 => x.pb
  | 6 => x.nt
  | 7 => x.bd
  | 8 => x.bp.setWidth 64
  | _ => 0

theorem hostReadValue_operand {n : Nat} (h : n ≤ 8) (s : State) (free : Word64) : hostReadValue s free n = s.x.reg n := by
  interval_cases n <;> rfl

/-- The slots above the operands read the same whatever the operands are. -/
theorem hostReadValue_with_operands {n : Nat} (h : 8 < n) (s : State) (x : Operands) (free : Word64) :
    hostReadValue { s with x := x } free n = hostReadValue s free n := by
  unfold hostReadValue
  split
  iterate 9 omega
  all_goals rfl

theorem setWidth_byte (v : Word64) : (v.setWidth 8).setWidth 64 = v &&& 0xFF := by
  apply BitVec.eq_of_toNat_eq
  have := v.isLt
  rw [BitVec.toNat_and, show (0xFF : Word64).toNat = 2 ^ 8 - 1 from rfl, Nat.and_two_pow_sub_one_eq_mod]
  simp only [BitVec.toNat_setWidth]
  omega

theorem reg_setOperand_same {n : Nat} (h : n ≤ 8) (v : Word64) (x : Operands) :
    (setOperand n v x).reg n = if n = 8 then v &&& 0xFF else v := by
  rcases Nat.lt_or_eq_of_le h with hlt | rfl
  · interval_cases n <;> rfl
  · exact setWidth_byte v

theorem reg_setOperand_other {m n : Nat} (h : m ≠ n) (v : Word64) (x : Operands) : (setOperand n v x).reg m = x.reg m := by
  unfold setOperand
  split <;> unfold Operands.reg <;> split <;> simp_all

/-- Settles O53: an idle write changes the operand register of its slot only, and each slot reads its own. -/
theorem operandWritesReadBack : Obligations.OperandWritesReadBack := by
  intro s slot v free hb h
  rw [hostWrite_operand hb h]
  refine ⟨?_, fun other ho => ?_⟩
  · rw [hostReadValue_operand h]
    exact reg_setOperand_same h v s.x
  · rcases Nat.lt_or_ge 8 other with hgt | hle
    · exact hostReadValue_with_operands hgt s _ free
    · rw [hostReadValue_operand hle, hostReadValue_operand hle]
      exact reg_setOperand_other ho v s.x

/-! ## What a read gives -/

theorem bitAt_getLsbD {n : Nat} (hn : n < 64) (b : Bool) (i : Nat) : (bitAt n b).getLsbD i = (decide (i = n) && b) := by
  cases b
  · simp [bitAt]
  · rw [bitAt, if_pos rfl, BitVec.getLsbD_shiftLeft, BitVec.getLsbD_one]
    grind

/-- STATUS bit by bit (10_state R28). -/
theorem statusWith_getLsbD (s : State) (err corr : Bool) (i : Nat) :
    (statusWith s err corr).getLsbD i = match i with
      | 0 => s.init
      | 1 => s.busy
      | 2 => s.done
      | 3 => s.ok
      | 4 => err
      | 5 => corr
      | _ => false := by
  simp only [statusWith, BitVec.getLsbD_or, bitAt_getLsbD (show 0 < 64 by decide), bitAt_getLsbD (show 1 < 64 by decide),
    bitAt_getLsbD (show 2 < 64 by decide), bitAt_getLsbD (show 3 < 64 by decide), bitAt_getLsbD (show 4 < 64 by decide),
    bitAt_getLsbD (show 5 < 64 by decide)]
  split <;> simp_all

theorem statusWith_getLsbD_high (s : State) (err corr : Bool) {i : Nat} (h : 6 ≤ i) :
    (statusWith s err corr).getLsbD i = false := by
  obtain ⟨k, rfl⟩ := Nat.exists_eq_add_of_le' h
  exact statusWith_getLsbD s err corr (k + 6)

theorem statusValue_eq (s : State) (free : Word64) :
    statusValue s free = statusWith s (if s.busy then free.getLsbD 4 else s.err) (if s.busy then free.getLsbD 5 else s.corr) := by
  unfold statusValue
  split <;> rfl

theorem idWord_toNat (p : Platform) : (idWord p).toNat = 0x41524301 + p.nlanes % 2 ^ 16 * 2 ^ 32 := by
  have hlt : p.nlanes % 65536 < 65536 := Nat.mod_lt _ (by decide)
  have hhigh : (BitVec.ofNat 64 (p.nlanes % 65536) <<< 32).toNat = 2 ^ 32 * (p.nlanes % 65536) := by
    simp only [BitVec.toNat_shiftLeft, BitVec.toNat_ofNat, Nat.shiftLeft_eq]
    omega
  have hid : idWord p = BitVec.ofNat 64 (p.nlanes % 65536) <<< 32 ||| 0x41524301#64 := BitVec.or_comm ..
  calc (idWord p).toNat = 2 ^ 32 * (p.nlanes % 65536) ||| 0x41524301 := by
        rw [hid, BitVec.toNat_or, hhigh, BitVec.toNat_ofNat]
    _ = 2 ^ 32 * (p.nlanes % 65536) + 0x41524301 := (Nat.two_pow_add_eq_or_of_lt (by decide) _).symm
    _ = 0x41524301 + p.nlanes % 2 ^ 16 * 2 ^ 32 := by omega

theorem spendDraw_eq (s : State) : spendDraw s = { s with draws := if s.busy then s.draws + 1 else s.draws } := by
  unfold spendDraw
  split <;> rfl

@[simp] theorem hostReadValue_inputs (s : State) (es : List HostEvent) (free : Word64) (slot : Nat) :
    hostReadValue { s with inputs := es } free slot = hostReadValue s free slot := by
  unfold hostReadValue
  split <;> rfl

theorem step_rd {s : State} {slot : Fin 32} {rest : List HostEvent} (h : s.inputs = .rd slot :: rest) :
    step s = .next { s with
      inputs := rest, draws := if s.busy then s.draws + 1 else s.draws,
      reads := s.reads ++ [.reg slot (hostReadValue s (Config.freeReg s.draws) slot)] } := by
  simp only [step, h, hostStep, hostRead, spendDraw_eq, hostReadValue_inputs]

theorem reserved_slot_ignores_write {slot : Nat} (h : (9 ≤ slot ∧ slot ≤ 15) ∨ (26 ≤ slot ∧ slot ≤ 31)) (v : Word64)
    (s : State) : hostWrite slot v s = s := by
  simp only [hostWrite, show ¬slot ≤ 8 by omega, show slot ≠ 16 by omega, show slot ≠ 17 by omega, show slot ≠ 23 by omega,
    show slot ≠ 24 by omega, if_false]

theorem reserved_slot_reads_zero {slot : Nat} (h : (9 ≤ slot ∧ slot ≤ 15) ∨ (26 ≤ slot ∧ slot ≤ 31)) (s : State)
    (free : Word64) : hostReadValue s free slot = 0 := by
  rcases h with ⟨hlo, hhi⟩ | ⟨hlo, hhi⟩ <;> interval_cases slot <;> rfl

/-- The result registers, and `ERR` and `CORR`, of an idle engine (10_state R28 to R33). -/
theorem hostReadValue_idle {s : State} (hb : s.busy = false) (free : Word64) :
    hostReadValue s free 17 = s.status ∧ hostReadValue s free 18 = s.ecause.setWidth 64 ∧ hostReadValue s free 19 = s.olen
      ∧ hostReadValue s free 20 = s.corrcnt ∧ hostReadValue s free 21 = s.einfo ∧ hostReadValue s free 22 = s.cpos := by
  simp [hostReadValue, statusValue, resultValue, hb]

theorem hostReadValue_result_busy {s : State} (hb : s.busy = true) {slot : Nat} (h : 18 ≤ slot ∧ slot ≤ 22) (free : Word64) :
    hostReadValue s free slot = free := by
  obtain ⟨hlo, hhi⟩ := h
  interval_cases slot <;> exact if_pos hb

theorem err_eq_true_iff (s : State) : s.err = true ↔ s.ecause &&& 0x7FF7 ≠ 0 := bne_iff_ne

/-- Settles O52, from the value of every slot. -/
theorem hostReadsGiveTheSlotValues : Obligations.HostReadsGiveTheSlotValues := by
  refine ⟨fun s slot rest => step_rd, fun s v slot h => reserved_slot_ignores_write h v s, fun s free => ?_⟩
  have hstatus : hostReadValue s free 17 = _ := statusValue_eq s free
  refine ⟨⟨rfl, rfl, rfl, rfl, rfl, rfl, rfl, rfl, BitVec.toNat_setWidth_of_le (by decide)⟩,
    fun slot h => reserved_slot_reads_zero h s free, BitVec.toNat_setWidth_of_le (by decide),
    BitVec.toNat_setWidth_of_le (by decide), BitVec.toNat_setWidth_of_le (by decide), idWord_toNat s.platform, ?_,
    fun hb => ?_, fun hb => ?_⟩
  · rw [hstatus]
    exact ⟨statusWith_getLsbD .., statusWith_getLsbD .., statusWith_getLsbD .., statusWith_getLsbD ..,
      fun n hn => statusWith_getLsbD_high s _ _ hn⟩
  · obtain ⟨hst, hecause, hrest⟩ := hostReadValue_idle hb free
    rw [hst, hecause]
    refine ⟨?_, statusWith_getLsbD .., BitVec.toNat_setWidth_of_le (by decide), hrest⟩
    rw [← err_eq_true_iff, State.status, statusWith_getLsbD]
    exact Iff.rfl
  · simp only [hstatus, statusWith_getLsbD, hb, if_true, true_and]
    exact fun slot h => hostReadValue_result_busy hb h free

/-! ## The register window -/

theorem busSlot_base {p : Platform} (h : p.wellFormed = true) (n : Fin 32) : busSlot p (p.base + 8 * n.val) 8 = .ok n.val := by
  simp only [Platform.wellFormed, Bool.and_eq_true, beq_iff_eq, decide_eq_true_eq] at h
  have hn := n.isLt
  rw [busSlot, if_neg (by omega), if_neg (by omega)]
  congr 1
  omega

theorem busSlot_shape {p : Platform} {addr width : Nat} (hlo : p.base ≤ addr) (hhi : addr < p.base + 256)
    (h : width ≠ 8 ∨ addr % 8 ≠ 0) : busSlot p addr width = .error (.registerAccessShape addr width) := by
  rw [busSlot, if_neg (by omega), if_pos h]

theorem rangesMeet_iff (a n b k : Nat) : rangesMeet a n b k = true ↔ ∃ x, a ≤ x ∧ x < a + n ∧ b ≤ x ∧ x < b + k := by
  simp only [rangesMeet, Bool.and_eq_true, decide_eq_true_eq]
  refine ⟨fun h => ⟨max a b, by omega⟩, ?_⟩
  rintro ⟨x, h⟩
  omega

/-- What `memReadable` and `memWritable` have in common: no byte of the register window, none of a region that denies the access
(20_memory R63, R68). -/
theorem accessible_iff (p : Platform) (denies : Region → Bool) (a n : Nat) :
    (!meetsRegisters p a n && p.denied.all fun r => !(denies r && rangesMeet a n r.base r.size)) = true
      ↔ ∀ x, a ≤ x → x < a + n → ¬(p.base ≤ x ∧ x < p.base + 256)
          ∧ ∀ r ∈ p.denied, denies r = true → ¬(r.base ≤ x ∧ x < r.base + r.size) := by
  simp only [Bool.and_eq_true, Bool.not_eq_true', ← Bool.not_eq_true, meetsRegisters_iff, rangesMeet_iff, List.all_eq_true]
  constructor
  · rintro ⟨hwin, hden⟩ x hlo hhi
    exact ⟨fun h => hwin ⟨x, hlo, hhi, h⟩, fun r hr hd h => hden r hr ⟨hd, x, hlo, hhi, h⟩⟩
  · intro h
    exact ⟨fun ⟨x, hlo, hhi, hx⟩ => (h x hlo hhi).1 hx, fun r hr ⟨hd, x, hlo, hhi, hx⟩ => (h x hlo hhi).2 r hr hd hx⟩

/-- An access inside the address space that is not plain has a byte of the register window. -/
theorem meetsRegisters_of_not_plainAccess {s : State} {a n : Nat} (hspace : a + n ≤ 2 ^ 64) (h : ¬PlainAccess s a n) :
    meetsRegisters s.platform a n = true := by
  rw [meetsRegisters_iff]
  by_contra hno
  exact h ⟨hspace, fun x hlo hhi hx => hno ⟨x, hlo, hhi, hx⟩⟩

theorem hostPoke_far {a : Nat} {bs : List Byte} (h : addressSpace < a + bs.length) (s : State) :
    hostPoke a bs s = .fault (.addressOutsideSpace a) := if_pos h

theorem hostPeek_far {a n : Nat} (h : addressSpace < a + n) (s : State) :
    hostPeek a n s = .fault (.addressOutsideSpace a) := if_pos h

theorem hostPoke_registers {s : State} {a : Nat} {bs : List Byte} (h : a + bs.length ≤ addressSpace)
    (hm : meetsRegisters s.platform a bs.length = true) :
    hostPoke a bs s = .refused (.registerAccessShape a bs.length) := by
  rw [hostPoke, if_neg (Nat.not_lt.2 h), if_pos hm]

theorem hostPeek_registers {s : State} {a n : Nat} (h : a + n ≤ addressSpace) (hm : meetsRegisters s.platform a n = true) :
    hostPeek a n s = .refused (.registerAccessShape a n) := by
  rw [hostPeek, if_neg (Nat.not_lt.2 h), if_pos hm]

/-- Settles O56, from the slot of a bus address and the bytes of a range. -/
theorem registerWindowHasSlotAccessesOnly : Obligations.RegisterWindowHasSlotAccessesOnly := by
  refine ⟨fun s rest hp => ⟨fun n v => ?_, fun addr width v hlo hhi hshape => ?_⟩,
    fun s a bs rest => ⟨fun hfar => ⟨hostPoke_far hfar _, hostPeek_far hfar _⟩, fun hnear hplain => ?_⟩,
    fun p a n => ⟨accessible_iff p Region.noRead a n, accessible_iff p Region.noWrite a n⟩⟩
  · simp [step, hostStep, onSlot, busSlot_base hp n]
  · simp [step, hostStep, onSlot, busSlot_shape hlo hhi hshape]
  · have hm := meetsRegisters_of_not_plainAccess hnear hplain
    exact ⟨hostPoke_registers hnear hm, hostPeek_registers hnear hm⟩

end Sys2Proof.Machine
end

section
/-! PROOFS. What commands do to memory: every stream command stays inside its destination window, raced or not, and no other
command changes a byte (O30; 20_memory R61, R62, R72). -/

namespace Sys2Proof.Machine

/-! ## Bytes outside a window -/

theorem SameOutside.trans {m m' m'' : Memory} {a n : Nat} (h : SameOutside m m' a n) (h' : SameOutside m' m'' a n) :
    SameOutside m m'' a n := fun x hx => (h' x hx).trans (h x hx)

theorem sameOutside_of_eq {m m' : Memory} (h : m' = m) (a n : Nat) : SameOutside m m' a n := fun _ _ => h ▸ rfl

theorem writeBytes_outside (m : Memory) {a n : Nat} {bs : List Byte} (h : bs.length ≤ n) :
    SameOutside m (m.writeBytes a bs) a n := fun x hx => by rw [look_writeBytes, if_neg (by omega)]

theorem blurRange_outside (m : Memory) (a n : Nat) : SameOutside m (m.blurRange a n) a n :=
  fun x hx => by rw [look_blurRange, if_neg (by omega)]

theorem blurRange_unspecified (m : Memory) (a n : Nat) : UnspecifiedAt (m.blurRange a n) a n :=
  fun x hlo hhi => by rw [look_blurRange, if_pos ⟨hlo, hhi⟩]

/-! ## Stream commands -/

/-- The end of a stream command leaves memory as it was, or makes its window unspecified (41 R185). -/
theorem finishStream_outside (need : Nat) (s : State) :
    SameOutside s.mem (finishStream need s).mem (dstAddr s) need := by
  unfold finishStream
  split
  · exact blurRange_outside s.mem (dstAddr s) need
  · exact sameOutside_of_eq rfl _ _

/-- Header, work items and end of a job all stay inside its window. -/
theorem runJob_outside {job : Job} {s : State} (h : job.Inside (dstAddr s)) :
    SameOutside s.mem (runJob job s).mem (dstAddr s) job.need := by
  have hheader : SameOutside s.mem (memWrite (dstAddr s) job.header s).mem (dstAddr s) job.need :=
    writeBytes_outside s.mem h.header
  have hitems := itemsMemory_outside (fun q hq => h.item q (List.mem_range.1 hq)) (memWrite (dstAddr s) job.header s).mem
  obtain ⟨e, f, n, hrun⟩ := runItems_frame job.item (List.range job.count) (memWrite (dstAddr s) job.header s)
  have hend := finishStream_outside job.need (runItems job.item (List.range job.count) (memWrite (dstAddr s) job.header s))
  rw [hrun] at hend
  rw [runJob, show s.flight.ops.dst.toNat = dstAddr s from rfl, hrun]
  exact hheader.trans (hitems.trans hend)

/-- The job of a sound plan has its whole output size for a window. -/
theorem destinationSize_run {job : Job} {s : State} (h : (Plan.run job).Sound s) :
    destinationSize (.run job) s = job.need := by
  obtain ⟨hspace, -⟩ := h
  exact Nat.min_eq_left (Nat.le_sub_of_add_le' hspace)

theorem runPlan_outside {p : Plan} {s : State} (hp : p.Sound s) :
    SameOutside s.mem (runPlan p s).mem (dstAddr s) (destinationSize p s) := by
  rcases runPlan_cases p s with ⟨-, he⟩ | ⟨-, ⟨r, rfl, he⟩ | ⟨r, n, rfl, he⟩ | ⟨job, rfl, he⟩⟩ <;> rw [he]
  · exact blurRange_outside s.mem (dstAddr s) _
  · exact sameOutside_of_eq (raise_mem r s) _ _
  · exact sameOutside_of_eq (raise_mem r s) _ _
  · rw [destinationSize_run hp]
    obtain ⟨-, hinside, -⟩ := hp
    exact runJob_outside hinside

/-- A raise before the output size leaves memory alone, raced too: the window is empty (20_memory R62). -/
theorem runPlan_early_mem (r : Raise) (s : State) : (runPlan (.early r) s).mem = s.mem := by
  have hempty : destinationSize (.early r) s = 0 := Nat.zero_min _
  rcases runPlan_cases (.early r) s with ⟨-, he⟩ | ⟨-, ⟨r', -, he⟩ | ⟨_, _, hp, -⟩ | ⟨_, hp, -⟩⟩
  · rw [he, hempty, finishRaced_mem]
    rfl
  · rw [he, raise_mem]
  · cases hp
  · cases hp

theorem runPlan_late_mem {s : State} (h : Undisturbed s) (r : Raise) (n : Nat) : (runPlan (.late r n) s).mem = s.mem := by
  simp [runPlan, h]

/-! ## The capacity (20_memory R72) -/

/-- A plan that runs has passed the check of its capacity. -/
theorem capacity_of_plan {s : State} {need : Nat} {checks : List (Bool × Raise)} {job job' : Job}
    (h : plan checks (windowChecks s need) job = .run job') (hneed : job.need = need) :
    job'.need ≤ s.flight.ops.cap.toNat := by
  subst hneed
  rcases plan_cases checks (windowChecks s job.need) job with ⟨r, -, hp⟩ | ⟨r, -, -, hp⟩ | ⟨-, hw, hp⟩ <;> rw [hp] at h <;>
    cases h
  simp only [firstRaise_eq_none, windowChecks, List.forall_mem_cons] at hw
  obtain ⟨hcap, -⟩ := hw
  exact Nat.not_lt.1 (of_decide_eq_false hcap)

theorem capacity_of_autoPlan {s : State} {job : Job} (h : autoPlan s = .run job) : job.need ≤ s.flight.ops.cap.toNat := by
  unfold autoPlan at h
  split at h
  · cases h
  · split at h
    iterate 4 exact capacity_of_plan h rfl
    cases h

theorem capacity_of_streamPlan {i : Instr} {s : State} {job : Job} (h : streamPlan i s = some (.run job)) :
    job.need ≤ s.flight.ops.cap.toNat := by
  cases i <;> simp only [streamPlan, Option.some.injEq, reduceCtorEq] at h
  case encPar | encHam | encSec | encRs | decPar | decHam | decSec | decRs => exact capacity_of_plan h rfl
  case decAuto => exact capacity_of_autoPlan h

/-! ## The other commands -/

theorem checked_mem {checks : List (Bool × Raise)} {k : State → State} {s : State} (hk : (k s).mem = s.mem) :
    (checked checks k s).mem = s.mem := by
  rcases checked_cases checks k s with ⟨r, -, he⟩ | ⟨-, he⟩ <;> rw [he]
  · exact raise_mem r s
  · exact hk

theorem withWidth_mem {k : Width → State → State} {s : State} (hk : ∀ w, (k w s).mem = s.mem) :
    (withWidth k s).mem = s.mem := by
  rcases withWidth_cases k s with ⟨r, he, -⟩ | ⟨w, -, -, he⟩ <;> rw [he]
  · exact raise_mem r s
  · exact hk w

@[simp] theorem applyBlockResult_mem (r : BlockResult) (s : State) : (applyBlockResult r s).mem = s.mem := by
  unfold applyBlockResult
  split <;> rfl

@[simp] theorem storeEntry_mem (s : State) : (storeEntry s).mem = s.mem := by
  unfold storeEntry
  split <;> rfl

@[simp] theorem loadEntry_mem (s : State) : (loadEntry s).mem = s.mem := by
  unfold loadEntry
  split <;> rfl

theorem streamPlan_isSome (i : Instr) (s : State) : (streamPlan i s).isSome = isStream i := by cases i <;> rfl

theorem streamPlan_of_not_isStream {i : Instr} (h : isStream i = false) (s : State) : streamPlan i s = none := by
  rw [← Option.not_isSome_iff_eq_none, streamPlan_isSome, h]
  exact Bool.false_ne_true

theorem exists_streamPlan {i : Instr} (h : isStream i = true) (s : State) : ∃ p, streamPlan i s = some p := by
  rwa [← Option.isSome_iff_exists, streamPlan_isSome]

/-- No command but the stream commands accesses system memory (20_memory R61). -/
theorem exec_mem_of_not_isStream {i : Instr} {s t : State} (h : isStream i = false) (ht : exec i s = .next t) :
    t.mem = s.mem := by
  cases i
  case encPar | encHam | encSec | encRs | decAuto | decPar | decHam | decSec | decRs => cases h
  all_goals cases ht
  case nop.refl | init.refl | close.refl => rfl
  case pcm.refl | bencHam.refl | bencSec.refl => exact withWidth_mem fun _ => rfl
  case bdecHam.refl | bdecSec.refl => exact withWidth_mem fun _ => applyBlockResult_mem ..
  case bencPar.refl => exact checked_mem rfl
  case bdecPar.refl => exact checked_mem (by split <;> rfl)
  case twr.refl => exact checked_mem (storeEntry_mem s)
  case trd.refl => exact checked_mem (loadEntry_mem s)

/-! ## The window of a command -/

theorem outputNeed_of_streamPlan {i : Instr} {s : State} {p : Plan} (h : streamPlan i s = some p) :
    outputNeed i s = destinationSize p s := by simp only [outputNeed, h]

theorem outputNeed_inSpace (i : Instr) (s : State) : dstAddr s + outputNeed i s ≤ addressSpace := by
  unfold outputNeed
  split
  · exact destinationSize_inSpace _ s
  · exact Nat.le_of_lt s.flight.ops.dst.isLt

theorem exec_outside {i : Instr} {s t : State} (ht : exec i s = .next t) :
    SameOutside s.mem t.mem (dstAddr s) (outputNeed i s) := by
  cases h : isStream i
  · exact sameOutside_of_eq (exec_mem_of_not_isStream h ht) _ _
  · obtain ⟨p, hp⟩ := exists_streamPlan h s
    rw [exec_of_streamPlan hp] at ht
    cases ht
    rw [outputNeed_of_streamPlan hp]
    exact runPlan_outside (streamPlan_sound hp)

/-- Settles O30: a stream command is the run of its plan, which stays inside its window because the plan is sound; the other
commands change no byte. -/
theorem commandsWriteOnlyTheirWindow : Obligations.CommandsWriteOnlyTheirWindow := by
  intro i s t ht
  have hrun {p : Plan} (hp : streamPlan i s = some p) : t = runPlan p s := by
    rw [exec_of_streamPlan hp] at ht
    cases ht
    rfl
  refine ⟨exec_outside ht, outputNeed_inSpace i s, fun h => exec_mem_of_not_isStream h ht, fun r hp => ?_,
    fun r n hu hp => ?_, fun job hp => ⟨?_, capacity_of_streamPlan hp⟩⟩
  · rw [hrun hp, runPlan_early_mem]
  · rw [hrun hp, runPlan_late_mem hu]
  · rw [outputNeed_of_streamPlan hp, destinationSize_run (streamPlan_sound hp)]

end Sys2Proof.Machine
end

section
/-! PROOFS. Accesses of other agents to system memory, their races with the command in flight, and what a raced command leaves
(O33; 20_memory R61, R77; 70 R324). -/

namespace Sys2Proof.Machine

/-! ## Stores and loads of plain memory -/

theorem PlainAccess.not_meetsRegisters {s : State} {a n : Nat} (h : PlainAccess s a n) :
    ¬meetsRegisters s.platform a n = true := by
  obtain ⟨-, hplain⟩ := h
  rw [meetsRegisters_iff]
  rintro ⟨x, hlo, hhi, hx⟩
  exact hplain x hlo hhi hx

theorem PlainAccess.not_outsideSpace {s : State} {a n : Nat} (h : PlainAccess s a n) : ¬addressSpace < a + n :=
  Nat.not_lt.2 h.1

/-- The first byte of a plain access, alone. -/
theorem PlainAccess.head {s : State} {a n : Nat} (h : PlainAccess s a (n + 1)) : PlainAccess s a 1 := by
  obtain ⟨hspace, hplain⟩ := h
  exact ⟨by omega, fun x hlo hhi => hplain x hlo (by omega)⟩

/-- The bytes of a plain access after its first one. -/
theorem PlainAccess.tail {s : State} {a n : Nat} (h : PlainAccess s a (n + 1)) : PlainAccess s (a + 1) n := by
  obtain ⟨hspace, hplain⟩ := h
  exact ⟨by omega, fun x hlo hhi => hplain x (by omega) (by omega)⟩

theorem hostPoke_plain {s : State} {a : Nat} {bs : List Byte} (h : PlainAccess s a bs.length) :
    hostPoke a bs s = .next (pokeBytes s a bs) := by
  rw [hostPoke, if_neg h.not_outsideSpace, if_neg h.not_meetsRegisters]

/-- A race on the listed bytes frees them, and is recorded unless the list is empty (20_memory R77). -/
theorem markRaced_eq (as : List Nat) (s : State) :
    markRaced as s
      = { s with mem := s.mem.blurAll as, flight := { s.flight with raced := s.flight.raced || !as.isEmpty } } := by
  cases as with
  | nil => simp [Memory.blurAll]
  | cons a as => simp

theorem pokeByte_race {s : State} {a : Nat} (h : inFlightSource s a = true ∨ inFlightDestination s a = true) (b : Byte) :
    pokeByte s a b = { s with mem := s.mem.blur a, flight := { s.flight with raced := true } } :=
  if_pos (Bool.or_eq_true_iff.2 h)

theorem pokeByte_plain {s : State} {a : Nat} (hsrc : inFlightSource s a = false) (hdst : inFlightDestination s a = false)
    (b : Byte) : pokeByte s a b = { s with mem := s.mem.write a b } := by
  simp [pokeByte, hsrc, hdst]

theorem pokeByte_platform (s : State) (a : Nat) (b : Byte) : (pokeByte s a b).platform = s.platform := by
  unfold pokeByte
  split
  · exact markRaced_platform ..
  · rfl

/-- The step with an event to come is that event. -/
theorem step_of_inputs {s : State} {e : HostEvent} {rest : List HostEvent} (h : s.inputs = e :: rest) :
    step s = hostStep e rest s := by simp only [step, h]

/-- The step of a store to plain memory. -/
theorem step_poke {s : State} {a : Nat} {bs : List Byte} (h : PlainAccess s a bs.length) (rest : List HostEvent) :
    step { s with inputs := .poke a bs :: rest } = .next (pokeBytes { s with inputs := rest } a bs) :=
  hostPoke_plain (s := { s with inputs := rest }) h

/-- The step of a store of one byte. -/
theorem step_poke_single {s : State} {a : Nat} {b : Byte} {rest : List HostEvent} (hin : s.inputs = .poke a [b] :: rest)
    (h : PlainAccess s a 1) : step s = .next (pokeByte { s with inputs := rest } a b) :=
  (step_of_inputs hin).trans (hostPoke_plain (s := { s with inputs := rest }) h)

/-- A store of several bytes is the store of its first byte, then that of the others. -/
theorem step_poke_cons {s : State} {a : Nat} {b : Byte} {bs : List Byte} {rest : List HostEvent}
    (hplain : PlainAccess s a (bs.length + 1)) :
    step { s with inputs := .poke a (b :: bs) :: rest }
      = step { pokeByte s a b with inputs := .poke (a + 1) bs :: rest } := by
  have htail : PlainAccess (pokeByte s a b) (a + 1) bs.length := by
    rw [PlainAccess, pokeByte_platform]
    exact hplain.tail
  calc step { s with inputs := .poke a (b :: bs) :: rest }
      = .next (pokeBytes { s with inputs := rest } a (b :: bs)) := step_poke hplain rest
    _ = .next (pokeBytes { pokeByte s a b with inputs := rest } (a + 1) bs) := by rw [pokeBytes, pokeByte_inputs]
    _ = step { pokeByte s a b with inputs := .poke (a + 1) bs :: rest } := (step_poke htail rest).symm

/-- The bytes of the destination window of the command in flight among the `n` at `a`. -/
def hitBytes (s : State) (a n : Nat) : List Nat := ((List.range n).map (a + ·)).filter (inFlightDestination s)

theorem mem_hitBytes {s : State} {a n x : Nat} :
    x ∈ hitBytes s a n ↔ (a ≤ x ∧ x < a + n) ∧ inFlightDestination s x = true := by
  simp only [hitBytes, List.mem_filter, List.mem_map, List.mem_range]
  refine and_congr_left fun _ => ⟨?_, fun h => ⟨x - a, by omega⟩⟩
  rintro ⟨j, hj, rfl⟩
  omega

theorem hitBytes_eq_nil {s : State} {a n : Nat} (h : ∀ j < n, inFlightDestination s (a + j) = false) :
    hitBytes s a n = [] := by
  simpa [hitBytes] using h

theorem hitBytes_any (s : State) (a n : Nat) :
    (!(hitBytes s a n).isEmpty) = (List.range n).any fun j => inFlightDestination s (a + j) := by
  rw [Bool.eq_iff_iff]
  simp [hitBytes]

/-- A load of plain memory frees the bytes it hits and answers free values there (20_memory R77). -/
theorem hostPeek_plain {s : State} {a n : Nat} (h : PlainAccess s a n) :
    hostPeek a n s = .next { s with
      mem := s.mem.blurAll (hitBytes s a n), draws := s.draws + 1
      flight := { s.flight with raced := s.flight.raced || (List.range n).any fun j => inFlightDestination s (a + j) }
      reads := s.reads ++ (List.range n).map fun j => .mem (a + j) (peekValue s (a + j)) } := by
  rw [hostPeek, if_neg h.not_outsideSpace, if_neg h.not_meetsRegisters, ← hitBytes_any, hitBytes]
  simp only [markRaced_eq, List.map_map, Function.comp_def]

/-! ## The windows in flight -/

theorem flightPlan_of_decode {s : State} {i : Instr} (hb : s.busy = true) (hd : decode s.flight.value = .ok i) :
    flightPlan s = streamPlan i s := by simp [flightPlan, hb, hd]

theorem flightPlan_eq_none {s : State} (h : s.busy = true → ∀ i, decode s.flight.value = .ok i → isStream i = false) :
    flightPlan s = none := by
  unfold flightPlan
  split
  · split
    · exact streamPlan_of_not_isStream (h ‹_› _ ‹_›) s
    · rfl
  · rfl

theorem inWindow_iff (a n x : Nat) : inWindow a n x = true ↔ a ≤ x ∧ x < a + n := by simp [inWindow]

theorem inFlightSource_iff {s : State} {i : Instr} (hb : s.busy = true) (hd : decode s.flight.value = .ok i)
    (hi : isStream i = true) (a : Nat) : inFlightSource s a = true ↔ srcAddr s ≤ a ∧ a < srcAddr s + srcLen s := by
  rw [inFlightSource, flightPlan_of_decode hb hd, streamPlan_isSome, hi, Bool.true_and, inWindow_iff]

theorem flightNeed_of_decode {s : State} {i : Instr} (hb : s.busy = true) (hd : decode s.flight.value = .ok i) :
    flightNeed s = outputNeed i s := by
  rw [flightNeed, flightPlan_of_decode hb hd]
  rfl

theorem inFlightDestination_iff {s : State} {i : Instr} (hb : s.busy = true) (hd : decode s.flight.value = .ok i) (a : Nat) :
    inFlightDestination s a = true ↔ dstAddr s ≤ a ∧ a < dstAddr s + outputNeed i s := by
  rw [inFlightDestination, flightNeed_of_decode hb hd, inWindow_iff]

/-- Without a stream command in flight there are no windows. -/
theorem no_windows {s : State} (h : flightPlan s = none) (a : Nat) :
    inFlightSource s a = false ∧ inFlightDestination s a = false := by
  constructor
  · simp [inFlightSource, h]
  · simp only [inFlightDestination, flightNeed, h, inWindow, Bool.and_eq_false_iff, decide_eq_false_iff_not]
    omega

/-! ## The end of a raced command -/

theorem hasError_eq_false_iff (e : BitVec 15) : hasError e = false ↔ e &&& 0x7FF7 = 0 := bne_eq_false_iff_eq

theorem finishRaced_eq (size : Nat) (s : State) :
    finishRaced size s = { s with
      mem := s.mem.blurRange (dstAddr s) size, busy := false, done := true
      ok := decide (racedCauses s &&& 0x7FF7 = 0), ecause := racedCauses s
      olen := if racedCauses s &&& 0x7FF7 = 0 then Config.freeResult s.flight.key 19 else 0
      corrcnt := Config.freeResult s.flight.key 20, einfo := Config.freeResult s.flight.key 21 } := by
  simp only [← hasError_eq_false_iff]
  unfold finishRaced complete
  cases h : hasError (racedCauses s) <;> simp [dstAddr]

theorem exec_raced {i : Instr} {s : State} (hi : isStream i = true) (h : s.flight.raced = true) :
    exec i s = .next (finishRaced (outputNeed i s) s) := by
  obtain ⟨p, hp⟩ := exists_streamPlan hi s
  rw [exec_of_streamPlan hp, outputNeed_of_streamPlan hp]
  exact congrArg _ (if_pos h)

/-- Settles O33: the accesses by the bytes they hit, the windows by the plan in flight, the completion by the end of a raced
command. -/
theorem racedBytesAreUnspecified : Obligations.RacedBytesAreUnspecified := by
  refine ⟨fun s a b rest h hplain => ⟨fun hrace => ?_, fun hsrc hdst => ?_⟩, fun s a rest hplain => ?_,
    fun s a b bs rest hplain => ?_, fun s a n rest h hplain => ?_,
    fun s i a hb hd hi => ⟨inFlightSource_iff hb hd hi a, inFlightDestination_iff hb hd a⟩,
    fun s a h => no_windows (flightPlan_eq_none h) a, fun i s hi hraced => ?_⟩
  · refine ⟨s.mem.blur a, ?_, by simp, fun x hx => by simp [hx]⟩
    rw [step_poke_single h hplain, pokeByte_race hrace]
  · refine ⟨s.mem.write a b, ?_, by simp, fun x hx => by simp [hx]⟩
    rw [step_poke_single h hplain, pokeByte_plain hsrc hdst]
  · exact step_poke (bs := []) hplain rest
  · refine ⟨{ pokeByte s a b with inputs := .poke (a + 1) bs :: rest }, ?_, step_poke_cons hplain⟩
    rw [← pokeByte_inputs]
    exact step_poke (bs := [b]) hplain.head _
  · refine ⟨_, (step_of_inputs h).trans (hostPeek_plain hplain), fun x hlo hhi hx => ?_, fun x hx => ?_, fun hno => ?_⟩
    · rw [look_blurAll, if_pos (mem_hitBytes.2 ⟨⟨hlo, hhi⟩, hx⟩)]
    · rw [look_blurAll, if_neg]
      rw [mem_hitBytes]
      rintro ⟨⟨hlo, hhi⟩, hhit⟩
      rcases hx with hx | hx | hx
      · omega
      · omega
      · exact Bool.false_ne_true (hx.symm.trans hhit)
    · rw [hitBytes_eq_nil hno]
      rfl
  · exact ⟨_, (exec_raced hi hraced).trans (congrArg _ (finishRaced_eq _ s)), blurRange_unspecified _ _ _,
      blurRange_outside _ _ _⟩

end Sys2Proof.Machine
end

section
/-! PROOFS. O3, O2 and O1: the decoder, the encoder and the list of illegal values agree (30_encoding R90, R92, R93, R96): a legal
value is the row of a command in the opcode map, zero-extended. -/

namespace Sys2Proof

/-- A word with all bits from `k` on zero is its low part, zero-extended. -/
theorem setWidth_setWidth_of_high_eq_zero {k m : Nat} {v : BitVec (k + m)} (h : v.extractLsb' k m = 0) :
    (v.setWidth k).setWidth (k + m) = v := by
  refine BitVec.eq_of_getLsbD_eq fun j hj => ?_
  by_cases hk : j < k
  · simp [hj, hk]
  · have hbit : (v.extractLsb' k m).getLsbD (j - k) = v.getLsbD j := by
      rw [BitVec.getLsbD_extractLsb', Nat.add_sub_cancel' (by omega), decide_eq_true (by omega), Bool.true_and]
    simp [hk, ← hbit, h]

/-- The printed words of the map are built from the fields of their commands (30_encoding R90, R92). -/
theorem encode_of_mem_opcodeMap : ∀ row ∈ opcodeMap, encode row.2 = row.1 := by decide

/-- What the decoder accepts: a row of the map, zero-extended (30_encoding R93). -/
theorem exists_row_of_decode {v : Word64} {i : Instr} (h : decode v = .ok i) :
    ∃ row ∈ opcodeMap, row.2 = i ∧ v = row.1.setWidth 64 := by
  unfold decode at h
  split at h
  · cases h
  · next hupper =>
    split at h
    · cases h
    · split at h
      · next row hrow =>
        have hword : row.1 = v.setWidth 32 := by simpa using List.find?_some hrow
        refine ⟨row, List.mem_of_find?_eq_some hrow, Except.ok.inj h, ?_⟩
        rw [hword]
        exact (setWidth_setWidth_of_high_eq_zero (k := 32) (not_not.1 hupper)).symm
      · cases h

theorem eq_encode_of_decode {v : Word64} {i : Instr} (h : decode v = .ok i) : v = (encode i).setWidth 64 := by
  obtain ⟨row, hrow, rfl, rfl⟩ := exists_row_of_decode h
  rw [encode_of_mem_opcodeMap row hrow]

theorem encode_legal_and_decodes (i : Instr) : Laws.Encoding.Statement i := by
  cases i with
  | nop => exact Laws.Encoding.nop
  | encPar => exact Laws.Encoding.encPar
  | encHam => exact Laws.Encoding.encHam
  | encSec => exact Laws.Encoding.encSec
  | encRs => exact Laws.Encoding.encRs
  | decAuto => exact Laws.Encoding.decAuto
  | decPar => exact Laws.Encoding.decPar
  | decHam => exact Laws.Encoding.decHam
  | decSec => exact Laws.Encoding.decSec
  | decRs => exact Laws.Encoding.decRs
  | bencPar => exact Laws.Encoding.bencPar
  | bencHam => exact Laws.Encoding.bencHam
  | bencSec => exact Laws.Encoding.bencSec
  | bdecPar => exact Laws.Encoding.bdecPar
  | bdecHam => exact Laws.Encoding.bdecHam
  | bdecSec => exact Laws.Encoding.bdecSec
  | pcm => exact Laws.Encoding.pcm
  | twr => exact Laws.Encoding.twr
  | trd => exact Laws.Encoding.trd
  | init => exact Laws.Encoding.init
  | close => exact Laws.Encoding.close

@[simp] theorem decode_encode (i : Instr) : decode ((encode i).setWidth 64) = .ok i := (encode_legal_and_decodes i).1

@[simp] theorem illegalValue_encode (i : Instr) : illegalValue ((encode i).setWidth 64) = false :=
  (encode_legal_and_decodes i).2

theorem decode_eq_ok_iff (v : Word64) (i : Instr) : decode v = .ok i ↔ v = (encode i).setWidth 64 := by
  constructor
  · exact eq_encode_of_decode
  · rintro rfl
    exact decode_encode i

/-- Settles O3: a decoded value is a row of the map, hence its command's word, and each command's word decodes to it. -/
theorem decodeInvertsEncode : Obligations.DecodeInvertsEncode := decode_eq_ok_iff

/-! ## Legal values -/

/-- The first clause of 30_encoding R96. -/
theorem high_eq_zero_of_legal {v : Word64} (h : illegalValue v = false) : v.extractLsb' 8 56 = 0 := by
  simp only [illegalValue, Bool.or_eq_false_iff, bne_eq_false_iff_eq] at h
  tauto

/-- The other clauses of 30_encoding R96 leave only words of the map, over the 256 values of `op` and `tag`. -/
theorem exists_row_of_legal_byte : ∀ b : BitVec 8, illegalValue (b.setWidth 64) = false →
    ∃ row ∈ opcodeMap, b.setWidth 64 = row.1.setWidth 64 := by
  decide +kernel

theorem exists_encode_of_legal {v : Word64} (h : illegalValue v = false) : ∃ i, v = (encode i).setWidth 64 := by
  have hv : (v.setWidth 8).setWidth 64 = v := setWidth_setWidth_of_high_eq_zero (k := 8) (high_eq_zero_of_legal h)
  rw [← hv] at h ⊢
  obtain ⟨row, hrow, hword⟩ := exists_row_of_legal_byte _ h
  exact ⟨row.2, by rw [hword, encode_of_mem_opcodeMap row hrow]⟩

theorem exists_decode_iff_legal (v : Word64) : (∃ i, decode v = .ok i) ↔ illegalValue v = false := by
  simp only [decode_eq_ok_iff]
  constructor
  · rintro ⟨i, rfl⟩
    exact illegalValue_encode i
  · exact exists_encode_of_legal

/-- Settles O2, both sides being the words of the commands. -/
theorem decodeAcceptsExactlyLegalValues : Obligations.DecodeAcceptsExactlyLegalValues := exists_decode_iff_legal

/-- Settles O1: each printed word is its command's word; the three rejected values by evaluation. -/
theorem printedWordsDecodeAsMapped : Obligations.PrintedWordsDecodeAsMapped :=
  ⟨decode_encode .nop, decode_encode .encPar, decode_encode .encHam, decode_encode .encSec, decode_encode .encRs,
    decode_encode .decAuto, decode_encode .decPar, decode_encode .decHam, decode_encode .decSec,
    decode_encode .decRs, decode_encode .bencPar, decode_encode .bencHam, decode_encode .bencSec,
    decode_encode .bdecPar, decode_encode .bdecHam, decode_encode .bdecSec, decode_encode .pcm, decode_encode .twr,
    decode_encode .trd, decode_encode .init, decode_encode .close, rfl, rfl, rfl⟩

end Sys2Proof
end

section
/-! PROOFS. O47: the T-space index map, both ways (30_encoding R108). -/

namespace Sys2Proof.Machine

@[simp] theorem tRef?_tIndex (r : TRef) : tRef? (tIndex r) = some r := by
  cases r with
  | h1 i => exact dif_pos i.isLt
  | h8 i => simp (disch := omega) [tRef?, tIndex, dif_neg]
  | s1 i => simp (disch := omega) [tRef?, tIndex, dif_neg]
  | s8 i => simp (disch := omega) [tRef?, tIndex, dif_neg]

theorem tIndex_of_tRef? {n : Nat} {r : TRef} (h : tRef? n = some r) : tIndex r = n := by
  unfold tRef? at h
  split_ifs at h <;> cases h <;> simp only [tIndex] <;> omega

theorem tRef?_eq_some_iff (n : Nat) (r : TRef) : tRef? n = some r ↔ tIndex r = n := by
  constructor
  · exact tIndex_of_tRef?
  · rintro rfl
    exact tRef?_tIndex r

theorem tRef?_eq_none_iff (n : Nat) : tRef? n = none ↔ (4 ≤ n ∧ n ≤ 7) ∨ n = 15 ∨ 104 ≤ n := by
  unfold tRef?
  split_ifs <;> simp only [false_iff, true_iff] <;> omega

/-- Settles O47: the map and its inverse, the gaps between the four ranges, and the ranges by definition. -/
theorem tableIndicesAreTheMap : Obligations.TableIndicesAreTheMap :=
  ⟨tRef?_eq_some_iff, tRef?_eq_none_iff, fun _ => rfl, fun _ => rfl, fun _ => rfl, fun _ => rfl⟩

end Sys2Proof.Machine
end

section
/-! PROOFS. The bits of the linear-code kernel: the XOR of a list of bits, the parity fold (O15), the parity of one bit, the matrix
product and its columns (O16), the bits and the linearity of the check bytes (40_block_kernels R130 to R134). -/

namespace Sys2Proof.Machine

/-! ## The XOR of a list of bits -/

@[simp] theorem xorBits_nil : xorBits [] = false := rfl

theorem xorBits_append (l m : List Bool) : xorBits (l ++ m) = Bool.xor (xorBits l) (xorBits m) := by
  induction l with
  | nil => simp
  | cons b l ih => simp [ih]

theorem xorBits_perm {l m : List Bool} (h : l.Perm m) : xorBits l = xorBits m :=
  h.foldr_eq (lcomm := ⟨Bool.xor_left_comm⟩) false

theorem xorBits_map_false {α : Type} {l : List α} {f : α → Bool} (h : ∀ a ∈ l, f a = false) : xorBits (l.map f) = false := by
  induction l with
  | nil => rfl
  | cons a l ih => simp_all

/-- A selection contributes the bits it keeps. -/
theorem xorBits_map_filter {α : Type} (l : List α) (p f : α → Bool) :
    xorBits ((l.filter p).map f) = xorBits (l.map fun a => p a && f a) := by
  induction l with
  | nil => rfl
  | cons a l ih => cases h : p a <;> simp [h, ih]

/-- Bits that are zero from position `m` on add nothing there. -/
theorem xorBits_map_range_of_le {m n : Nat} (hmn : m ≤ n) {f : Nat → Bool} (hf : ∀ i, m ≤ i → f i = false) :
    xorBits ((List.range n).map f) = xorBits ((List.range m).map f) := by
  obtain ⟨k, rfl⟩ := Nat.exists_eq_add_of_le hmn
  have hzero : xorBits ((List.range k).map (f ∘ (m + ·))) = false := xorBits_map_false fun j _ => hf _ (Nat.le_add_right m j)
  rw [List.range_add, List.map_append, List.map_map, xorBits_append, hzero, Bool.xor_false]

/-- Among the positions below `n`, one is equal to `j`. -/
theorem xorBits_map_range_eq {n j : Nat} (hj : j < n) (f : Nat → Bool) :
    xorBits ((List.range n).map fun i => decide (i = j) && f i) = f j := by
  rw [← xorBits_map_filter, List.filter_eq, List.count_eq_one_of_mem List.nodup_range (List.mem_range.2 hj)]
  simp

theorem xorBytes_getLsbD (bs : List Byte) (i : Nat) : (xorBytes bs).getLsbD i = xorBits (bs.map (·.getLsbD i)) := by
  induction bs with
  | nil => simp [xorBytes]
  | cons b bs ih => simpa [xorBytes, BitVec.getLsbD_xor] using ih

/-! ## The parity fold (40 R130) -/

@[simp] theorem fold_cons (b : Byte) (bs : List Byte) : fold (b :: bs) = Bool.xor (parity b) (fold bs) := rfl

theorem fold_eq_xorBits_flatMap (bs : List Byte) :
    fold bs = xorBits (bs.flatMap fun x => (List.range 8).map x.getLsbD) := by
  induction bs with
  | nil => rfl
  | cons b bs ih => rw [fold_cons, ih, List.flatMap_cons, xorBits_append, parity]

theorem fold_eq_parity_xorBytes (bs : List Byte) : fold bs = parity (xorBytes bs) := by
  induction bs with
  | nil => rfl
  | cons b bs ih => rw [fold_cons, ih, ← parity_xor]; rfl

/-- Settles O15. -/
theorem foldIsTheParityOfTheXor : Obligations.FoldIsTheParityOfTheXor :=
  ⟨rfl, fun b _ => ⟨fold_eq_xorBits_flatMap b, fold_eq_parity_xorBytes b, fun h => xorBits_perm (h.map parity)⟩⟩

/-- The fold of the `n` low bytes of a number is the XOR of its `8n` low bits (20_memory R66). -/
theorem fold_bytesLE (n v : Nat) : fold (bytesLE n v) = xorBits ((List.range (8 * n)).map v.testBit) := by
  induction n generalizing v with
  | zero => rfl
  | succ n ih =>
    have hlow : parity (BitVec.ofNat 8 v) = xorBits ((List.range 8).map v.testBit) := by
      refine congrArg xorBits (List.map_congr_left fun i hi => ?_)
      rw [BitVec.getLsbD_ofNat, decide_eq_true (List.mem_range.1 hi), Bool.true_and]
    have hhigh : (v / 256).testBit = v.testBit ∘ (8 + ·) := by
      funext i
      simpa [Nat.add_comm] using Nat.testBit_div_two_pow (n := 8) v i
    rw [bytesLE, fold_cons, ih, hlow, hhigh, Nat.mul_succ, Nat.add_comm, List.range_add, List.map_append, List.map_map,
      xorBits_append]

/-- The fold of the bytes of a block of `n` bytes is its parity. -/
theorem fold_bytesLE_toNat {n : Nat} (hn : n ≤ 8) {v : Word64} (hv : v.toNat < 2 ^ (8 * n)) :
    fold (bytesLE n v.toNat) = parity v := by
  have hbits : v.toNat.testBit = v.getLsbD := funext fun i => BitVec.testBit_toNat v
  rw [fold_bytesLE, hbits, parity]
  refine (xorBits_map_range_of_le (by omega) fun i hi => ?_).symm
  rw [← hbits]
  exact Nat.testBit_lt_two_pow (hv.trans_le (Nat.pow_le_pow_right (by decide) hi))

/-! ## The parity of one bit -/

/-- The parity of a word masked by bit `j` alone is its bit `j`. -/
theorem parity_shiftLeft_and {n j : Nat} (hj : j < n) (v : BitVec n) : parity (1#n <<< j &&& v) = v.getLsbD j := by
  have hbit (i : Nat) : (1#n <<< j &&& v).getLsbD i = (decide (i = j) && v.getLsbD i) := by
    rw [← BitVec.twoPow_eq, BitVec.getLsbD_and, BitVec.getLsbD_twoPow, decide_eq_true hj, Bool.true_and]
    exact congrArg (· && _) (decide_eq_decide.2 eq_comm)
  rw [parity, funext hbit, xorBits_map_range_eq hj]

theorem parity_shiftLeft {n j : Nat} (hj : j < n) : parity (1#n <<< j) = true := by
  simpa [hj] using parity_shiftLeft_and hj (BitVec.allOnes n)

@[simp] theorem parity_zero (n : Nat) : parity (0#n) = false := xorBits_map_false fun _ _ => BitVec.getLsbD_zero

/-- The parity of one bit put in place. -/
theorem parity_bitByte_shiftLeft {r : Nat} (hr : r < 8) (b : Bool) : parity (bitByte b <<< r) = b := by
  cases b
  · simp [bitByte]
  · exact parity_shiftLeft hr

/-! ## The matrix product (40 R131, R132) -/

theorem productBit_of_length_le {rows : List Word64} {i : Nat} (h : rows.length ≤ i) (d : Word64) :
    productBit rows d i = false := by
  simp [productBit, List.getElem?_eq_none h]

/-- Row `i` gives bit `i`, and there is no bit without a row. -/
theorem pcm_getLsbD_eq_productBit (rows : List Word64) (d : Word64) (i : Nat) :
    (pcm rows d).getLsbD i = (decide (i < 8) && productBit rows d i) := by
  rw [pcm_getLsbD]
  rcases Nat.lt_or_ge i rows.length with h | h
  · simp [productBit, h]
  · simp [productBit_of_length_le h, h]

theorem pcm_getLsbD_of_length_le {rows : List Word64} {i : Nat} (h : rows.length ≤ i) (d : Word64) :
    (pcm rows d).getLsbD i = false := by
  rw [pcm_getLsbD_eq_productBit, productBit_of_length_le h, Bool.and_false]

theorem productBit_xor (rows : List Word64) (a b : Word64) (i : Nat) :
    productBit rows (a ^^^ b) i = Bool.xor (productBit rows a i) (productBit rows b i) := by
  rw [productBit, productBit, productBit, ← parity_xor]
  congr 1
  ext j
  simp [Bool.and_xor_distrib_right]

theorem pcm_xor (rows : List Word64) (a b : Word64) : pcm rows (a ^^^ b) = pcm rows a ^^^ pcm rows b := by
  ext i hi
  simp only [← BitVec.getLsbD_eq_getElem, BitVec.getLsbD_xor, pcm_getLsbD_eq_productBit, productBit_xor, Bool.and_xor_distrib_left]

theorem productBit_shiftLeft (rows : List Word64) {j : Nat} (hj : j < 64) (i : Nat) :
    productBit rows (1#64 <<< j) i = (rows.getD i 0).getLsbD j := parity_shiftLeft_and hj _

/-- The product of a block is the XOR of the bits of each row at its one bits. -/
theorem productBit_eq_xorBits (rows : List Word64) (d : Word64) (i : Nat) :
    productBit rows d i
      = xorBits (((List.range 64).filter d.getLsbD).map fun j => productBit rows (1#64 <<< j) i) := by
  rw [xorBits_map_filter, productBit, parity]
  refine congrArg xorBits (List.map_congr_left fun j hj => ?_)
  rw [productBit_shiftLeft rows (List.mem_range.1 hj), BitVec.getLsbD_and]

theorem pcm_eq_xorBytes (rows : List Word64) (d : Word64) :
    pcm rows d = xorBytes (((List.range 64).filter d.getLsbD).map fun j => pcm rows (1#64 <<< j)) := by
  ext i hi
  have hbit (a : Word64) : (pcm rows a).getLsbD i = productBit rows a i := by
    rw [pcm_getLsbD_eq_productBit, decide_eq_true hi, Bool.true_and]
  rw [← BitVec.getLsbD_eq_getElem, ← BitVec.getLsbD_eq_getElem, hbit, xorBytes_getLsbD, List.map_map, productBit_eq_xorBits]
  exact congrArg xorBits (List.map_congr_left fun j _ => (hbit _).symm)

theorem pcm_zero (rows : List Word64) : pcm rows 0 = 0 := by
  simpa using pcm_xor rows 0 0

/-- Settles O16. -/
theorem matrixProductIsLinear : Obligations.MatrixProductIsLinear :=
  fun rows a b => ⟨pcm_xor rows a b, pcm_zero rows, pcm_eq_xorBytes rows a⟩

/-- The product of one bit is the column of that bit (10_state R37). -/
theorem pcm_shiftLeft (rows : List Word64) {j : Nat} (hj : j < 64) : pcm rows (1#64 <<< j) = column rows j :=
  congrArg bitsToByte (List.map_congr_left fun h _ => parity_shiftLeft_and hj h)

/-- The parity of the product is the XOR of its row bits. -/
theorem parity_pcm {rows : List Word64} (hlen : rows.length ≤ 8) (d : Word64) :
    parity (pcm rows d) = xorBits ((List.range rows.length).map (productBit rows d)) := by
  rw [← xorBits_map_range_of_le hlen fun i hi => productBit_of_length_le hi d, parity]
  refine congrArg xorBits (List.map_congr_left fun i hi => ?_)
  rw [pcm_getLsbD_eq_productBit, decide_eq_true (List.mem_range.1 hi), Bool.true_and]

/-! ## The SECDED check byte (40 R134) -/

/-- The row bits, then the overall parity, then zeros. -/
theorem chkSec_getLsbD {rows : List Word64} (hlen : rows.length < 8) (d : Word64) (i : Nat) :
    (chkSec rows.length rows d).getLsbD i = if i = rows.length
      then Bool.xor (parity (pcm rows d)) (parity d) else productBit rows d i := by
  simp only [chkSec, BitVec.getLsbD_or, BitVec.getLsbD_shiftLeft, bitByte_getLsbD, pcm_getLsbD_eq_productBit]
  rcases Nat.lt_trichotomy i rows.length with h | rfl | h
  · simp [h, h.ne, h.trans hlen]
  · simp [hlen, productBit_of_length_le]
  · simp [productBit_of_length_le h.le, h.ne', Nat.sub_ne_zero_of_lt h]

/-- The bits of the SECDED check byte: the rows, the overall parity, zeros (R134). -/
theorem chkSec_bits {rows : List Word64} (hlen : rows.length < 8) (d : Word64) :
    (∀ i < rows.length, (chkSec rows.length rows d).getLsbD i = productBit rows d i)
      ∧ (chkSec rows.length rows d).getLsbD rows.length
          = Bool.xor (xorBits ((List.range rows.length).map (productBit rows d))) (parity d)
      ∧ ∀ i, rows.length < i → (chkSec rows.length rows d).getLsbD i = false := by
  refine ⟨fun i hi => ?_, ?_, fun i hi => ?_⟩
  · rw [chkSec_getLsbD hlen, if_neg hi.ne]
  · rw [chkSec_getLsbD hlen, if_pos rfl, parity_pcm hlen.le]
  · rw [chkSec_getLsbD hlen, if_neg hi.ne', productBit_of_length_le hi.le]

/-- With no row for bit `r` the overall parity is added there. -/
theorem chkSec_eq_xor {r : Nat} {rows : List Word64} (hlen : rows.length ≤ r) (d : Word64) :
    chkSec r rows d = pcm rows d ^^^ (bitByte (Bool.xor (parity (pcm rows d)) (parity d)) <<< r) := by
  ext i hi
  simp only [chkSec, ← BitVec.getLsbD_eq_getElem, BitVec.getLsbD_or, BitVec.getLsbD_xor, BitVec.getLsbD_shiftLeft,
    bitByte_getLsbD]
  rcases Nat.lt_or_ge i r with h | h
  · simp [h]
  · simp [pcm_getLsbD_of_length_le (hlen.trans h)]

theorem bitByte_xor (a b : Bool) : bitByte (Bool.xor a b) = bitByte a ^^^ bitByte b := by
  cases a <;> cases b <;> rfl

/-- The SECDED check byte is linear. -/
theorem chkSec_xor {r : Nat} {rows : List Word64} (hlen : rows.length ≤ r) (a b : Word64) :
    chkSec r rows (a ^^^ b) = chkSec r rows a ^^^ chkSec r rows b := by
  simp only [chkSec_eq_xor hlen, pcm_xor, parity_xor, bitByte_xor, BitVec.shiftLeft_xor_distrib]
  ac_rfl

/-- The check byte has the parity of its data: a codeword has even parity. -/
theorem parity_chkSec {r : Nat} {rows : List Word64} (hlen : rows.length ≤ r) (hr : r < 8) (d : Word64) :
    parity (chkSec r rows d) = parity d := by
  rw [chkSec_eq_xor hlen, parity_xor, parity_bitByte_shiftLeft hr, ← Bool.xor_assoc, Bool.xor_self, Bool.false_xor]

end Sys2Proof.Machine
end

section
/-! PROOFS. The block decoders: their outcome on any table contents, and with well-formed tables the correction of every single
flipped bit (O17, O18) and the detection of every double flip (O19) (40_block_kernels R135 to R141). -/

namespace Sys2Proof.Machine

/-! ## The outcomes on any tables (40 R138, R139) -/

section Outcomes

variable {t : CodeReads} {chk s : Byte} {d : Word64}

theorem decHam_of_zero (hs : chkHam t.rows d ^^^ chk = 0) : decHam t chk d = ⟨.clean, chk, d, none⟩ := by
  simp [decHam, hs]

theorem decHam_of_miss (hs : chkHam t.rows d ^^^ chk = s) (h0 : s ≠ 0) (h : NoHit t.syn s) :
    decHam t chk d = ⟨.failInt, chk, d, none⟩ := by
  simp only [decHam, hs, h0, synLookup_of_miss h, if_false]

theorem decHam_of_hit (hs : chkHam t.rows d ^^^ chk = s) (h0 : s ≠ 0) {p : Nat} (h : SmallestHit t.syn s p) :
    decHam t chk d = correctAt (chkHam t.rowsAgain) chk d p := by
  simp only [decHam, hs, h0, synLookup_of_hit h, if_false]

theorem ne_zero_of_parity {n : Nat} {v : BitVec n} (h : parity v = true) : v ≠ 0 := by
  rintro rfl
  simp at h

theorem decSec_of_zero (hs : chkSec t.r t.rows d ^^^ chk = 0) : decSec t chk d = ⟨.clean, chk, d, none⟩ := by
  simp [decSec, hs]

theorem decSec_of_even (hs : chkSec t.r t.rows d ^^^ chk = s) (h0 : s ≠ 0) (heven : parity s = false) :
    decSec t chk d = ⟨.failDbl, chk, d, none⟩ := by
  simp only [decSec, hs, h0, heven, if_true, if_false]

/-- The overall bit alone is in error. -/
theorem decSec_of_overall (hs : chkSec t.r t.rows d ^^^ chk = s) (hodd : parity s = true) (h : s &&& ~~~(1#8 <<< t.r) = 0) :
    decSec t chk d = correctAt (chkSec t.r t.rowsAgain) chk d t.r := by
  have h0 := ne_zero_of_parity hodd
  simp only [decSec, hs, h0, hodd, h, if_true, if_false, Bool.true_eq_false]

theorem decSec_of_miss (hs : chkSec t.r t.rows d ^^^ chk = s) (hodd : parity s = true) (hsh : s &&& ~~~(1#8 <<< t.r) ≠ 0)
    (h : NoHit t.syn (s &&& ~~~(1#8 <<< t.r))) : decSec t chk d = ⟨.failInt, chk, d, none⟩ := by
  have h0 := ne_zero_of_parity hodd
  simp only [decSec, hs, h0, hodd, hsh, synLookup_of_miss h, if_false, Bool.true_eq_false]

theorem decSec_of_hit (hs : chkSec t.r t.rows d ^^^ chk = s) (hodd : parity s = true) (hsh : s &&& ~~~(1#8 <<< t.r) ≠ 0)
    {p : Nat} (h : SmallestHit t.syn (s &&& ~~~(1#8 <<< t.r)) p) :
    decSec t chk d = correctAt (chkSec t.r t.rowsAgain) chk d p := by
  have h0 := ne_zero_of_parity hodd
  simp only [decSec, hs, h0, hodd, hsh, synLookup_of_hit h, if_false, Bool.true_eq_false]

/-- What the Hamming decoder can answer. -/
theorem decHam_cases (t : CodeReads) (chk : Byte) (d : Word64) :
    decHam t chk d = ⟨.clean, chk, d, none⟩ ∨ decHam t chk d = ⟨.failInt, chk, d, none⟩
      ∨ ∃ p, decHam t chk d = correctAt (chkHam t.rowsAgain) chk d p := by
  simp only [decHam]
  split_ifs
  · exact .inl rfl
  · split
    · exact .inr (.inl rfl)
    · exact .inr (.inr ⟨_, rfl⟩)

/-- What the SECDED decoder can answer. -/
theorem decSec_cases (t : CodeReads) (chk : Byte) (d : Word64) :
    decSec t chk d = ⟨.clean, chk, d, none⟩ ∨ decSec t chk d = ⟨.failDbl, chk, d, none⟩
      ∨ decSec t chk d = ⟨.failInt, chk, d, none⟩ ∨ ∃ p, decSec t chk d = correctAt (chkSec t.r t.rowsAgain) chk d p := by
  simp only [decSec]
  split_ifs
  · exact .inl rfl
  · exact .inr (.inl rfl)
  · exact .inr (.inr (.inr ⟨_, rfl⟩))
  · split
    · exact .inr (.inr (.inl rfl))
    · exact .inr (.inr (.inr ⟨_, rfl⟩))

/-- A correction is verified, with the position it flipped, or fails. -/
theorem correctAt_cases (enc : Word64 → Byte) (chk : Byte) (d : Word64) (p : Nat) :
    correctAt enc chk d p = ⟨.failInt, chk, d, none⟩
      ∨ correctAt enc chk d p = ⟨.corr, (flipBit chk d p).1, (flipBit chk d p).2, some p⟩ := by
  simp only [correctAt]
  split_ifs
  · exact .inl rfl
  · exact .inr rfl

end Outcomes

/-! ## Flipped codeword bits (40 R135, R137) -/

theorem flipBit_flipBit (chk : Byte) (d : Word64) (p : Nat) : flipBit (flipBit chk d p).1 (flipBit chk d p).2 p = (chk, d) := by
  unfold flipBit
  split <;> simp

/-- Flipping the bit that was flipped gives the codeword back, and that verifies. -/
theorem correctAt_flipBit (enc : Word64 → Byte) (d : Word64) (p : Nat) :
    correctAt enc (flipBit (enc d) d p).1 (flipBit (enc d) d p).2 p = ⟨.corr, enc d, d, some p⟩ := by
  simp [correctAt, flipBit_flipBit]

/-- What a flip of codeword bit `p` adds to the syndrome of a linear check byte: that bit itself, or the check byte of the data
bit. -/
def flipSyndrome (enc : Word64 → Byte) (p : Nat) : Byte := if p ≤ 7 then 1#8 <<< p else enc (1#64 <<< (p - 8))

theorem syndrome_flipBit {enc : Word64 → Byte} (hadd : ∀ a b, enc (a ^^^ b) = enc a ^^^ enc b) (chk : Byte) (d : Word64)
    (p : Nat) : enc (flipBit chk d p).2 ^^^ (flipBit chk d p).1 = enc d ^^^ chk ^^^ flipSyndrome enc p := by
  unfold flipBit flipSyndrome
  split
  · exact (BitVec.xor_assoc ..).symm
  · simp only [hadd]
    ac_rfl

/-- One flip of a codeword. -/
theorem syndrome_flip_once {enc : Word64 → Byte} (hadd : ∀ a b, enc (a ^^^ b) = enc a ^^^ enc b) (d : Word64) (p : Nat) :
    enc (flipBit (enc d) d p).2 ^^^ (flipBit (enc d) d p).1 = flipSyndrome enc p := by
  rw [syndrome_flipBit hadd, BitVec.xor_self, BitVec.zero_xor]

/-! ## Well-formed tables (10_state R37) -/

theorem Width.rows_lt (w : Width) : w.rows < 8 := by cases w <;> decide

theorem Width.bytes_le (w : Width) : w.bytes ≤ 8 := by cases w <;> decide

namespace CodeOK

variable {w : Width} {rows : List Word64} {syn : List Byte} {p : Nat}

/-- The syndrome table holds at each position what a flip of that bit adds (R37 (d)). -/
theorem syn_eq (h : CodeOK w rows syn) :
    syn = (List.range (8 * (1 + w.bytes))).map (flipSyndrome (chkHam rows)) := by
  obtain ⟨-, -, -, rfl⟩ := h
  rw [Nat.mul_add, List.range_add, List.map_append, List.map_map]
  refine congrArg₂ _ (List.map_congr_left fun p hp => ?_) (List.map_congr_left fun j hj => ?_)
  · exact (if_pos (Nat.le_of_lt_succ (List.mem_range.1 hp))).symm
  · have hj64 : j < 64 := (List.mem_range.1 hj).trans_le (Nat.mul_le_mul_left 8 w.bytes_le)
    simp [flipSyndrome, chkHam, show ¬8 + j ≤ 7 by omega, pcm_shiftLeft rows hj64]

theorem weight_oneBit : ∀ p < 8, ((List.range 8).filter (1#8 <<< p).getLsbD).length = 1 := by decide

/-- The entries of the syndrome table differ: two check bits, two columns, or a check bit, of weight 1, and a column, of weight
at least 2 (R37 (b), (c)). -/
theorem nodup_syn (h : CodeOK w rows syn) : syn.Nodup := by
  obtain ⟨-, hweight, hnodup, rfl⟩ := h
  refine List.nodup_append.2 ⟨by decide, hnodup, fun a ha b hb hab => ?_⟩
  obtain ⟨p, hp, rfl⟩ := List.mem_map.1 ha
  obtain ⟨j, hj, rfl⟩ := List.mem_map.1 hb
  have hcol := hweight j (List.mem_range.1 hj)
  rw [← hab, weight_oneBit p (List.mem_range.1 hp)] at hcol
  exact absurd hcol (by decide)

theorem zero_notMem_syn (h : CodeOK w rows syn) : 0 ∉ syn := by
  obtain ⟨-, hweight, -, rfl⟩ := h
  intro hmem
  rcases List.mem_append.1 hmem with hbit | hcol
  · exact absurd hbit (by decide)
  · obtain ⟨j, hj, hzero⟩ := List.mem_map.1 hcol
    have hcol := hweight j (List.mem_range.1 hj)
    rw [hzero] at hcol
    exact absurd hcol (by decide)

theorem syn_getElem? (h : CodeOK w rows syn) (hp : p < 8 * (1 + w.bytes)) : syn[p]? = some (flipSyndrome (chkHam rows) p) := by
  rw [h.syn_eq, List.getElem?_map, List.getElem?_range hp, Option.map_some]

/-- The search for what a flip adds finds the flipped position. -/
theorem smallestHit (h : CodeOK w rows syn) (hp : p < 8 * (1 + w.bytes)) :
    SmallestHit syn (flipSyndrome (chkHam rows) p) p := by
  have hlen : p < syn.length := by rwa [h.syn_eq, List.length_map, List.length_range]
  refine ⟨h.syn_getElem? hp, fun q hq => ?_⟩
  rw [← h.syn_getElem? hp]
  exact List.nodup_iff_getElem?_ne_getElem?.1 h.nodup_syn q p hq hlen

theorem flipSyndrome_ne_zero (h : CodeOK w rows syn) (hp : p < 8 * (1 + w.bytes)) : flipSyndrome (chkHam rows) p ≠ 0 :=
  fun h0 => h.zero_notMem_syn (h0 ▸ List.mem_of_getElem? (h.syn_getElem? hp))

theorem flipSyndrome_injOn (h : CodeOK w rows syn) {q : Nat} (hp : p < 8 * (1 + w.bytes)) (hq : q < 8 * (1 + w.bytes))
    (heq : flipSyndrome (chkHam rows) p = flipSyndrome (chkHam rows) q) : p = q := by
  have := synLookup_of_hit (h.smallestHit hp)
  rw [heq, synLookup_of_hit (h.smallestHit hq)] at this
  exact (Option.some.inj this).symm

end CodeOK

/-! ## The Hamming decoder with well-formed tables -/

theorem decHam_codeword (t : CodeReads) (d : Word64) : decHam t (chkHam t.rows d) d = ⟨.clean, chkHam t.rows d, d, none⟩ :=
  decHam_of_zero BitVec.xor_self

theorem decHam_flipBit {w : Width} {t : CodeReads} (h : GoodReads w t) (d : Word64) {p : Nat} (hp : p < 8 * (1 + w.bytes)) :
    decHam t (flipBit (chkHam t.rows d) d p).1 (flipBit (chkHam t.rows d) d p).2 = ⟨.corr, chkHam t.rows d, d, some p⟩ := by
  obtain ⟨-, hagain, hcode⟩ := h
  have hs := syndrome_flip_once (enc := chkHam t.rows) (pcm_xor t.rows) d p
  rw [decHam_of_hit hs (hcode.flipSyndrome_ne_zero hp) (hcode.smallestHit hp), hagain, correctAt_flipBit]

/-- Settles O17: the outcomes by the search; a single flip adds to the syndrome what the table holds at its position only. -/
theorem hammingDecodesAnyTablesAndCorrectsSingleFlips : Obligations.HammingDecodesAnyTablesAndCorrectsSingleFlips := by
  refine ⟨fun rows d i hi => ?_, fun t chk d => ⟨decHam_of_zero, decHam_of_miss rfl, fun h0 p hp => ?_⟩,
    fun w t d hgood _ => ⟨decHam_codeword t d, fun p hp => decHam_flipBit hgood d hp⟩⟩
  · rw [chkHam, pcm_getLsbD_eq_productBit, decide_eq_true hi, Bool.true_and]
  · rw [decHam_of_hit rfl h0 hp]
    exact correctAt_flipsAndVerifies ..

/-! ## The SECDED decoder with well-formed tables -/

/-- Without the overall bit the check byte is that of the Hamming code. -/
theorem chkSec_and_not {r : Nat} {rows : List Word64} (hlen : rows.length ≤ r) (d : Word64) :
    chkSec r rows d &&& ~~~(1#8 <<< r) = chkHam rows d := by
  ext i hi
  simp only [chkHam, chkSec_eq_xor hlen, ← BitVec.getLsbD_eq_getElem, BitVec.getLsbD_and, BitVec.getLsbD_xor, BitVec.getLsbD_not,
    BitVec.getLsbD_shiftLeft, bitByte_getLsbD, ← BitVec.twoPow_eq, BitVec.getLsbD_twoPow]
  rcases Nat.lt_trichotomy i r with h | rfl | h
  · simp [hi, h, h.ne']
  · rw [pcm_getLsbD_of_length_le hlen]
    simp [hi]
  · simp [hi, h.ne, Nat.sub_ne_zero_of_lt h]

theorem oneBit_and_not : ∀ p < 8, ∀ r < 8, (1#8 <<< p) &&& ~~~(1#8 <<< r) = if p = r then 0#8 else 1#8 <<< p := by decide

/-- Every flip adds an odd syndrome: the overall parity of the codeword changes. -/
theorem parity_flipSyndrome_chkSec {r : Nat} {rows : List Word64} (hlen : rows.length ≤ r) (hr : r < 8) {p : Nat}
    (hp : p < 72) : parity (flipSyndrome (chkSec r rows) p) = true := by
  unfold flipSyndrome
  split
  · exact parity_shiftLeft (by omega)
  · rw [parity_chkSec hlen hr, parity_shiftLeft (by omega)]

/-- Without the overall bit a flip adds what it adds in the Hamming code, and the overall bit itself adds nothing. -/
theorem flipSyndrome_chkSec_and_not {r : Nat} {rows : List Word64} (hlen : rows.length ≤ r) (hr : r < 8) (p : Nat) :
    flipSyndrome (chkSec r rows) p &&& ~~~(1#8 <<< r) = if p = r then 0#8 else flipSyndrome (chkHam rows) p := by
  unfold flipSyndrome
  split
  · exact oneBit_and_not p (by omega) r hr
  · rw [chkSec_and_not hlen, if_neg (by omega)]

section Secded

variable {w : Width} {t : CodeReads} {p q : Nat}

theorem GoodReads.rows_length_le (h : GoodReads w t) : t.rows.length ≤ t.r := by
  obtain ⟨hr, -, hlen, -⟩ := h
  rw [hlen, hr]

theorem GoodReads.r_lt (h : GoodReads w t) : t.r < 8 := h.1 ▸ w.rows_lt

theorem Width.position_lt (hp : p < 8 * (1 + w.bytes)) : p < 72 :=
  hp.trans_le (Nat.mul_le_mul_left 8 (Nat.add_le_add_left w.bytes_le 1))

theorem decSec_codeword (t : CodeReads) (d : Word64) :
    decSec t (chkSec t.r t.rows d) d = ⟨.clean, chkSec t.r t.rows d, d, none⟩ :=
  decSec_of_zero BitVec.xor_self

theorem decSec_flipBit (h : GoodReads w t) (d : Word64) (hp : p < 8 * (1 + w.bytes)) :
    decSec t (flipBit (chkSec t.r t.rows d) d p).1 (flipBit (chkSec t.r t.rows d) d p).2
      = ⟨.corr, chkSec t.r t.rows d, d, some p⟩ := by
  have hs := syndrome_flip_once (chkSec_xor h.rows_length_le) d p
  have hodd := parity_flipSyndrome_chkSec h.rows_length_le h.r_lt (Width.position_lt hp)
  have hsh := flipSyndrome_chkSec_and_not h.rows_length_le h.r_lt p
  obtain ⟨-, hagain, hcode⟩ := h
  split_ifs at hsh with hpr
  · subst hpr
    rw [decSec_of_overall hs hodd hsh, hagain, correctAt_flipBit]
  · rw [decSec_of_hit hs hodd (hsh ▸ hcode.flipSyndrome_ne_zero hp) (hsh ▸ hcode.smallestHit hp), hagain, correctAt_flipBit]

/-- Different flips add different syndromes: without the overall bit at most one of them adds nothing. -/
theorem flipSyndrome_chkSec_injOn (h : GoodReads w t) (hp : p < 8 * (1 + w.bytes)) (hq : q < 8 * (1 + w.bytes))
    (heq : flipSyndrome (chkSec t.r t.rows) p = flipSyndrome (chkSec t.r t.rows) q) : p = q := by
  have hsh := congrArg (· &&& ~~~(1#8 <<< t.r)) heq
  simp only [flipSyndrome_chkSec_and_not h.rows_length_le h.r_lt] at hsh
  obtain ⟨-, -, hcode⟩ := h
  split_ifs at hsh with hpr hqr hqr
  · exact hpr.trans hqr.symm
  · exact absurd hsh.symm (hcode.flipSyndrome_ne_zero hq)
  · exact absurd hsh (hcode.flipSyndrome_ne_zero hp)
  · exact hcode.flipSyndrome_injOn hp hq hsh

end Secded

/-- Settles O18: the outcomes by the syndrome; a single flip adds an odd syndrome that, without the overall bit, the table holds at
its position only. -/
theorem secdedDecodesAnyTablesAndCorrectsSingleFlips : Obligations.SecdedDecodesAnyTablesAndCorrectsSingleFlips := by
  refine ⟨fun rows d hlen => chkSec_bits hlen d, fun t chk d =>
    ⟨decSec_of_zero, decSec_of_even rfl, fun hodd hsh => ?_, decSec_of_miss rfl, fun hodd hsh p hp => ?_⟩,
    fun w t d hgood _ => ⟨decSec_codeword t d, fun p hp => decSec_flipBit hgood d hp⟩⟩
  · rw [decSec_of_overall rfl hodd hsh]
    exact correctAt_flipsAndVerifies ..
  · rw [decSec_of_hit rfl hodd hsh hp]
    exact correctAt_flipsAndVerifies ..

/-- Settles O19: two flips add two different odd syndromes, whose XOR is even and not zero. -/
theorem secdedDetectsEveryDoubleFlip : Obligations.SecdedDetectsEveryDoubleFlip := by
  intro w t d hgood _ p hp q hq hpq once twice
  have hadd := chkSec_xor hgood.rows_length_le
  have hodd {u : Nat} (hu : u < 8 * (1 + w.bytes)) : parity (flipSyndrome (chkSec t.r t.rows) u) = true :=
    parity_flipSyndrome_chkSec hgood.rows_length_le hgood.r_lt (Width.position_lt hu)
  have hs : chkSec t.r t.rows twice.2 ^^^ twice.1
      = flipSyndrome (chkSec t.r t.rows) p ^^^ flipSyndrome (chkSec t.r t.rows) q := by
    rw [syndrome_flipBit hadd, syndrome_flip_once hadd]
  refine decSec_of_even hs (fun h0 => hpq ?_) ?_
  · exact flipSyndrome_chkSec_injOn hgood hp hq (BitVec.xor_eq_zero_iff.1 h0)
  · rw [parity_xor, hodd hp, hodd hq, Bool.xor_self]

end Sys2Proof.Machine
end

section
/-! PROOFS. The block-level commands (O8 to O14): their raises, and the whole state each leaves (40_block_kernels R143 to R151). -/

namespace Sys2Proof.Machine

/-! ## The end of a block-level command -/

/-- A raise with no cause noted before. -/
theorem raise_eq_failedWith {s : State} (h : s.ecause = 0) (r : Raise) : raise r s = failedWith r.cause.bit r.info s := by
  simp [raise, failedWith, h]

theorem complete_eq_succeeded {s : State} (h : hasError s.ecause = false) : complete s = succeeded s := by
  simp [complete, succeeded, h]

theorem Accepted.ecause {s : State} (h : Accepted s) : s.ecause = 0 := by
  obtain ⟨-, -, -, hecause, -⟩ := h
  exact hecause

/-- No cause noted is no error. -/
theorem Accepted.hasError {s : State} (h : Accepted s) : hasError s.ecause = false := by
  rw [h.ecause]
  decide

/-- A failure noted by the only work item of a command is the cause it ends with (60 R292). -/
theorem complete_note_failure {s : State} (h : Accepted s) {c : Cause} (hc : hasError c.bit = true) :
    complete (note c 0 s) = failedWith c.bit 0 s := by
  obtain ⟨-, -, -, hecause, holen, -⟩ := h
  have hcorr : c ≠ .singleBitCorrected := by
    rintro rfl
    exact absurd hc (by decide)
  simp [complete, note, failedWith, hecause, holen, hc, hcorr, failureNoted]

/-! ## The checks (40 R143) -/

theorem checked_uninit {s : State} (h : Accepted s) (hinit : s.init = false) (legal : Bool) (k : State → State) :
    checked (blockChecks s legal) k s = failedWith 0x0001 0 s := by
  simp only [checked, blockChecks, checkInit, hinit, Bool.not_false, firstRaise_cons, if_true]
  exact raise_eq_failedWith h.ecause _

theorem checked_illegal {s : State} (h : Accepted s) (hinit : s.init = true) (k : State → State) :
    checked (blockChecks s false) k s = failedWith 0x0004 s.flight.ops.pa s := by
  simp only [checked, blockChecks, checkInit, hinit, Bool.not_true, Bool.not_false, firstRaise_cons, if_true,
    Bool.false_eq_true, if_false]
  exact raise_eq_failedWith h.ecause _

theorem checked_legal {s : State} (hinit : s.init = true) (k : State → State) :
    checked (blockChecks s true) k s = complete (k s) := by
  simp [checked, blockChecks, checkInit, hinit]

theorem width?_bytes (w : Width) : width? w.bytes = some w := by cases w <;> rfl

theorem width?_eq_none {n : Nat} (h : ¬oneOrEight n) : width? n = none := by
  simp_all [width?]

/-- A command on blocks of 1 or 8 bytes that passes its checks. -/
theorem withWidth_legal {s : State} {w : Width} (hinit : s.init = true) (hw : s.flight.ops.pa.toNat = w.bytes)
    (k : Width → State → State) : withWidth k s = complete (k w s) := by
  simp only [withWidth, blockWidth?, hw, width?_bytes, checked_legal hinit]

/-- The raises of a command that works on blocks of 1 or 8 bytes. -/
theorem blockRaises_withWidth {i : Instr} {k : State → Width → State → State}
    (hi : ∀ s, exec i s = .next (withWidth (k s) s)) : BlockRaises i oneOrEight := by
  refine fun s hacc => ⟨fun hinit => ?_, fun hinit hlegal => ?_⟩ <;> rw [hi, withWidth]
  · split <;> rw [checked_uninit hacc hinit]
  · simp only [blockWidth?, width?_eq_none hlegal, checked_illegal hacc hinit]

theorem parityBlockLegal_iff (s : State) : parityBlockLegal s = true ↔ oneToEight s.flight.ops.pa.toNat := by
  simp [parityBlockLegal]

/-- The raises of a command that works on blocks of 1 to 8 bytes. -/
theorem blockRaises_parity {i : Instr} {k : State → State → State}
    (hi : ∀ s, exec i s = .next (checked (blockChecks s (parityBlockLegal s)) (k s) s)) : BlockRaises i oneToEight := by
  refine fun s hacc => ⟨fun hinit => ?_, fun hinit hlegal => ?_⟩ <;> rw [hi]
  · rw [checked_uninit hacc hinit]
  · rw [← parityBlockLegal_iff, Bool.not_eq_true] at hlegal
    rw [hlegal, checked_illegal hacc hinit]

/-! ## The commands that write BP -/

/-- A byte stored in BP, at the end of a command with no cause noted. -/
theorem complete_setBP {s : State} (h : Accepted s) (v : Byte) :
    complete (setBP v s) = succeeded { s with x := { s.x with bp := v } } := complete_eq_succeeded h.hasError

@[simp] theorem blockRows_length (s : State) (w : Width) : (blockRows s w).length = w.rows := readRows_length ..

/-- The product has the row bits of its width, and zeros above. -/
theorem pcm_blockRows_getLsbD (s : State) (w : Width) (d : Word64) (i : Nat) :
    (pcm (blockRows s w) d).getLsbD i = (decide (i < w.rows) && productBit (blockRows s w) d i) := by
  rw [pcm_getLsbD_eq_productBit]
  rcases Nat.lt_or_ge i w.rows with h | h
  · rw [decide_eq_true h, decide_eq_true (h.trans w.rows_lt)]
  · rw [productBit_of_length_le ((blockRows_length s w).trans_le h), Bool.and_false, Bool.and_false]

theorem blockOperand_eq {s : State} {n : Nat} (h : s.flight.ops.pa.toNat = n) : blockOperand s = blockValue n s.flight.ops.bd :=
  h ▸ rfl

/-- A command on blocks of 1 or 8 bytes that stores a byte in BP. -/
theorem exec_setBP {i : Instr} {v : State → Width → Byte}
    (hi : ∀ s, exec i s = .next (withWidth (fun w => setBP (v s w)) s)) {s : State} {w : Width} (hacc : Accepted s)
    (hinit : s.init = true) (hw : s.flight.ops.pa.toNat = w.bytes) :
    exec i s = .next (succeeded { s with x := { s.x with bp := v s w } }) := by
  rw [hi, withWidth_legal hinit hw, complete_setBP hacc]

/-- A command that stores the matrix product of the block in BP. -/
theorem storesProduct {i : Instr}
    (hi : ∀ s, exec i s = .next (withWidth (fun w => setBP (pcm (blockRows s w) (blockOperand s))) s)) {s : State} {w : Width}
    (hacc : Accepted s) (hinit : s.init = true) (hw : s.flight.ops.pa.toNat = w.bytes) :
    ∃ v : Byte, exec i s = .next (succeeded { s with x := { s.x with bp := v } })
      ∧ ∀ j, v.getLsbD j = (decide (j < w.rows) && productBit (blockRows s w) (blockValue w.bytes s.flight.ops.bd) j) := by
  refine ⟨_, exec_setBP hi hacc hinit hw, fun j => ?_⟩
  rw [blockOperand_eq hw, pcm_blockRows_getLsbD]

/-- Settles O8. -/
theorem pcmMultipliesByTheMatrix : Obligations.PcmMultipliesByTheMatrix :=
  ⟨blockRaises_withWidth fun _ => rfl, fun _ _ => storesProduct fun _ => rfl⟩

/-- Settles O10: the Hamming check byte is the matrix product (R133). -/
theorem bencHamStoresTheCheckByte : Obligations.BencHamStoresTheCheckByte :=
  ⟨blockRaises_withWidth fun _ => rfl, fun _ _ => storesProduct fun _ => rfl⟩

/-- Settles O11, by the bits of the SECDED check byte. -/
theorem bencSecStoresTheCheckByte : Obligations.BencSecStoresTheCheckByte := by
  refine ⟨blockRaises_withWidth fun _ => rfl, fun s w hacc hinit hw => ?_⟩
  intro d rows
  have hlen : rows.length = w.rows := blockRows_length s w
  have hlt : rows.length < 8 := hlen ▸ w.rows_lt
  have hexec := exec_setBP (i := .bencSec) (fun _ => rfl) hacc hinit hw
  rw [blockOperand_eq hw] at hexec
  obtain ⟨hrow, hoverall, hhigh⟩ := chkSec_bits hlt d
  rw [hlen] at hrow hoverall hhigh
  refine ⟨_, hexec, hrow, hoverall, hhigh, ?_⟩
  rw [parity_chkSec hlen.le w.rows_lt, Bool.xor_self]

/-! ## The parity commands -/

theorem blockValue_toNat_lt (n : Nat) (bd : Word64) : (blockValue n bd).toNat < 2 ^ (8 * n) := by
  rw [blockValue, BitVec.toNat_ofNat]
  exact (Nat.mod_le ..).trans_lt (Nat.mod_lt _ (Nat.two_pow_pos _))

/-- The parity byte of the block operand. -/
theorem foldByte_blockBytes {s : State} (h : oneToEight s.flight.ops.pa.toNat) :
    foldByte (blockBytes s) = bitByte (parity (blockValue s.flight.ops.pa.toNat s.flight.ops.bd)) :=
  congrArg bitByte (fold_bytesLE_toNat h.2 (blockValue_toNat_lt ..))

/-- Settles O9. -/
theorem bencParStoresTheParity : Obligations.BencParStoresTheParity := by
  refine ⟨blockRaises_parity fun _ => rfl, fun s hacc hinit hpa => ?_⟩
  rw [← foldByte_blockBytes hpa, ← complete_setBP hacc, exec, execBencPar, (parityBlockLegal_iff s).2 hpa, checked_legal hinit]

/-- Settles O12. -/
theorem bdecParComparesTheWholeByte : Obligations.BdecParComparesTheWholeByte := by
  refine ⟨blockRaises_parity fun _ => rfl, fun s hacc hinit hpa => ?_⟩
  rw [← foldByte_blockBytes hpa]
  simp only [exec, execBdecPar, (parityBlockLegal_iff s).2 hpa, checked_legal hinit, decPar, beq_iff_eq]
  refine ⟨fun heq => ?_, fun hne => ?_⟩
  · rw [if_pos heq]
    exact congrArg _ (complete_eq_succeeded hacc.hasError)
  · rw [if_neg hne]
    exact congrArg _ (complete_note_failure hacc rfl)

/-! ## The block decodes (40 R150, R151) -/

/-- A block decode leaves its outcome in the registers, given that it names the position it corrects. -/
theorem exec_applyBlockResult {i : Instr} {s : State} {r : BlockResult} (h : Accepted s)
    (hexec : exec i s = .next (complete (applyBlockResult r s))) (hpos : r.verdict = .corr → ∃ p, r.pos = some p) :
    (r.verdict = .clean → exec i s = .next (succeeded { s with x := { s.x with bd := r.d } }))
      ∧ (r.verdict = .corr → ∃ p, r.pos = some p ∧ exec i s = .next (succeeded { s with
          x := { s.x with bd := r.d, bp := r.chk }, cpos := BitVec.ofNat 64 p, corrcnt := 1, ecause := 0x0008 }))
      ∧ (r.verdict = .failDbl → exec i s = .next (failedWith 0x0010 0 s))
      ∧ (r.verdict = .failInt → exec i s = .next (failedWith 0x0040 0 s)) := by
  rw [hexec]
  refine ⟨fun hv => ?_, fun hv => ?_, fun hv => ?_, fun hv => ?_⟩ <;> simp only [applyBlockResult, hv]
  · exact congrArg _ (complete_eq_succeeded h.hasError)
  · obtain ⟨p, hp⟩ := hpos hv
    have hcause : hasError (0 ||| Cause.singleBitCorrected.bit) = false := by decide
    refine ⟨p, hp, ?_⟩
    simp only [hp, note, setBP_ecause, setBD_ecause, h.ecause]
    exact congrArg _ (complete_eq_succeeded hcause)
  · exact congrArg _ (complete_note_failure h rfl)
  · exact congrArg _ (complete_note_failure h rfl)

theorem correctAt_pos {enc : Word64 → Byte} {chk : Byte} {d : Word64} {p : Nat} (h : (correctAt enc chk d p).verdict = .corr) :
    (correctAt enc chk d p).pos = some p := by
  rcases correctAt_cases enc chk d p with he | he <;> rw [he] at h ⊢
  cases h

/-- The Hamming decoder names the position it corrects. -/
theorem decHam_pos {t : CodeReads} {chk : Byte} {d : Word64} (h : (decHam t chk d).verdict = .corr) :
    ∃ p, (decHam t chk d).pos = some p := by
  rcases decHam_cases t chk d with he | he | ⟨p, he⟩ <;> rw [he] at h ⊢
  · cases h
  · cases h
  · exact ⟨p, correctAt_pos h⟩

/-- The SECDED decoder names the position it corrects. -/
theorem decSec_pos {t : CodeReads} {chk : Byte} {d : Word64} (h : (decSec t chk d).verdict = .corr) :
    ∃ p, (decSec t chk d).pos = some p := by
  rcases decSec_cases t chk d with he | he | he | ⟨p, he⟩ <;> rw [he] at h ⊢
  · cases h
  · cases h
  · cases h
  · exact ⟨p, correctAt_pos h⟩

/-- The Hamming decoder does not report double flips. -/
theorem decHam_ne_failDbl (t : CodeReads) (chk : Byte) (d : Word64) : (decHam t chk d).verdict ≠ .failDbl := by
  rcases decHam_cases t chk d with he | he | ⟨p, he⟩ <;> rw [he]
  · nofun
  · nofun
  · rcases correctAt_cases (chkHam t.rowsAgain) chk d p with he | he <;> rw [he] <;> nofun

/-- Settles O13. -/
theorem bdecHamWritesBackTheOutcome : Obligations.BdecHamWritesBackTheOutcome := by
  refine ⟨blockRaises_withWidth fun _ => rfl, fun s w hacc hinit hw => ?_⟩
  have hexec : exec .bdecHam s = .next (complete _) := congrArg _ (withWidth_legal hinit hw _)
  rw [blockOperand_eq hw] at hexec
  obtain ⟨hclean, hcorr, -, hfail⟩ := exec_applyBlockResult hacc hexec decHam_pos
  exact ⟨hclean, hcorr, hfail, decHam_ne_failDbl _ _ _⟩

/-- Settles O14. -/
theorem bdecSecWritesBackTheOutcome : Obligations.BdecSecWritesBackTheOutcome := by
  refine ⟨blockRaises_withWidth fun _ => rfl, fun s w hacc hinit hw => ?_⟩
  have hexec : exec .bdecSec s = .next (complete _) := congrArg _ (withWidth_legal hinit hw _)
  rw [blockOperand_eq hw] at hexec
  exact exec_applyBlockResult hacc hexec decSec_pos

end Sys2Proof.Machine
end

section
/-! PROOFS. The run of a job (41 R176, R185; 60 R291, R292): what its work items note, the bytes that outputs one after the other
leave in memory, and its two ends. -/

namespace Sys2Proof.Machine

/-! ## Bytes in memory -/

theorem holdsAt_append {m : Memory} {a : Nat} {xs ys : List Byte} :
    HoldsAt m a (xs ++ ys) ↔ HoldsAt m a xs ∧ HoldsAt m (a + xs.length) ys := by
  constructor
  · refine fun h => ⟨fun j hj => ?_, fun j hj => ?_⟩
    · rw [h j (by rw [List.length_append]; omega), List.getElem?_append_left hj]
    · rw [Nat.add_assoc, h _ (by rw [List.length_append]; omega), List.getElem?_append_right (Nat.le_add_right ..),
        Nat.add_sub_cancel_left]
  · rintro ⟨hx, hy⟩ j hj
    rw [List.length_append] at hj
    rcases Nat.lt_or_ge j xs.length with hlt | hge
    · rw [hx j hlt, List.getElem?_append_left hlt]
    · rw [List.getElem?_append_right hge, ← hy _ (by omega), Nat.add_assoc, Nat.add_sub_cancel' hge]

theorem holdsAt_singleton {m : Memory} {a : Nat} {b : Byte} : HoldsAt m a [b] ↔ m.look a = some b := by
  simp [HoldsAt]

theorem holdsAt_cons {m : Memory} {a : Nat} {b : Byte} {bs : List Byte} :
    HoldsAt m a (b :: bs) ↔ m.look a = some b ∧ HoldsAt m (a + 1) bs := by
  rw [← List.singleton_append, holdsAt_append, holdsAt_singleton]
  rfl

theorem writeBytes_holdsAt (m : Memory) (a : Nat) (bs : List Byte) : HoldsAt (m.writeBytes a bs) a bs :=
  fun j hj => by rw [look_writeBytes, if_pos (by omega), Nat.add_sub_cancel_left]

/-- Bytes outside a window stay where they are when only the window changes. -/
theorem HoldsAt.of_sameOutside {m m' : Memory} {a b n : Nat} {bs : List Byte} (h : HoldsAt m a bs) (hm : SameOutside m m' b n)
    (hout : a + bs.length ≤ b ∨ b + n ≤ a) : HoldsAt m' a bs :=
  fun j hj => (hm _ (by omega)).trans (h j hj)

/-- A command reads the bytes that memory holds. -/
theorem memRead_of_holdsAt {s : State} {a : Nat} {bs : List Byte} (h : HoldsAt s.mem a bs) : memRead s a bs.length = bs := by
  refine List.ext_getElem? fun j => ?_
  rw [memRead, readBytes_getElem?]
  split
  · next hj =>
    rw [List.getElem?_eq_getElem hj]
    exact congrArg some (read_of_look ((h j hj).trans (List.getElem?_eq_getElem hj)) _)
  · next hj => rw [List.getElem?_eq_none (Nat.not_lt.1 hj)]

/-! ## Outputs in order -/

theorem itemsMemory_range_succ (item : Nat → WorkItem) (n : Nat) (m : Memory) :
    itemsMemory item (List.range (n + 1)) m
      = (itemsMemory item (List.range n) m).writeBytes (item n).addr (item n).out := by
  simp [itemsMemory, List.range_succ]

/-- Work items whose outputs follow one another leave each output as it was written. -/
theorem itemsMemory_holdsAt {item : Nat → WorkItem} {n : Nat}
    (h : ∀ p q, p < q → q < n → (item p).addr + (item p).out.length ≤ (item q).addr) (m : Memory) :
    ∀ q < n, HoldsAt (itemsMemory item (List.range n) m) (item q).addr (item q).out := by
  induction n with
  | zero => nofun
  | succ n ih =>
    intro q hq
    rw [itemsMemory_range_succ]
    rcases Nat.lt_succ_iff_lt_or_eq.1 hq with hlt | rfl
    · exact (ih (fun p q hpq hqn => h p q hpq (hqn.trans n.lt_succ_self)) q hlt).of_sameOutside
        (writeBytes_outside _ (Nat.le_refl _)) (.inl (h q n hlt n.lt_succ_self))
    · exact writeBytes_holdsAt _ _ _

/-! ## Notes (60 R292) -/

/-- The causes that a work item may note: a correction, or a block-level failure (60 R292). -/
def Cause.BlockLevel (c : Cause) : Prop :=
  c = .singleBitCorrected ∨ c = .doubleBitUncorrectable ∨ c = .tooManyErasures ∨ c = .integrityError

/-- What a note adds to `ECAUSE`. -/
def noteBits (c : Option Cause) : BitVec 15 := c.elim 0 Cause.bit

/-- A work item notes a failure. -/
def isFailure : Option Cause → Bool
  | none | some .singleBitCorrected => false
  | some _ => true

/-- What a work item's note does, in one equation. -/
theorem noteItem_eq (c : Option Cause) (i : Nat) (s : State) :
    noteItem c i s = { s with
      ecause := s.ecause ||| noteBits c
      corrcnt := s.corrcnt + if c = some .singleBitCorrected then 1 else 0
      einfo := if isFailure c then
          if failureNoted s.ecause && decide (s.einfo < BitVec.ofNat 64 i) then s.einfo else BitVec.ofNat 64 i
        else s.einfo } := by
  cases c with
  | none => simp [noteItem, noteBits, isFailure]
  | some c => cases c <;> simp [noteItem, note, noteBits, isFailure]

/-- The causes that the work items below `n` note. -/
def notedCauses (noted : Nat → Option Cause) : Nat → BitVec 15
  | 0 => 0
  | n + 1 => notedCauses noted n ||| noteBits (noted n)

/-- How many of the work items below `n` note a correction. -/
def corrections (noted : Nat → Option Cause) (n : Nat) : Nat :=
  ((List.range n).filter fun q => noted q == some .singleBitCorrected).length

/-- The first of the work items below `n` that notes a failure. -/
def firstFailure (noted : Nat → Option Cause) (n : Nat) : Option Nat := (List.range n).find? fun q => isFailure (noted q)

theorem corrections_succ (noted : Nat → Option Cause) (n : Nat) :
    corrections noted (n + 1) = corrections noted n + if noted n = some .singleBitCorrected then 1 else 0 := by
  by_cases h : noted n = some .singleBitCorrected <;> simp [corrections, List.range_succ, List.filter_append, h]

theorem firstFailure_succ (noted : Nat → Option Cause) (n : Nat) :
    firstFailure noted (n + 1) = (firstFailure noted n).or (if isFailure (noted n) then some n else none) := by
  cases h : isFailure (noted n) <;> simp [firstFailure, List.range_succ, List.find?_append, h]

theorem firstFailure_eq_none {noted : Nat → Option Cause} {n : Nat} (h : ∀ q < n, isFailure (noted q) = false) :
    firstFailure noted n = none := by
  simpa [firstFailure] using h

theorem firstFailure_eq_some {noted : Nat → Option Cause} {n q : Nat} (hq : q < n) (hfail : isFailure (noted q) = true)
    (hfirst : ∀ p < q, isFailure (noted p) = false) : firstFailure noted n = some q := by
  simpa [firstFailure, List.find?_range_eq_some, hfail, hq] using hfirst

theorem lt_of_firstFailure {noted : Nat → Option Cause} {n q : Nat} (h : firstFailure noted n = some q) : q < n :=
  List.mem_range.1 (List.mem_of_find?_eq_some h)

/-- Two sets of causes together meet a mask where one of them does. -/
theorem or_and_bne_zero {n : Nat} (e f m : BitVec n) : ((e ||| f) &&& m != 0) = ((e &&& m != 0) || (f &&& m != 0)) := by
  rw [BitVec.and_comm, BitVec.and_or_distrib_left, Bool.eq_iff_iff]
  simp [BitVec.and_comm m, imp_iff_not_or]

section Noted

variable {noted : Nat → Option Cause} {n : Nat}

/-- A work item's note is an error, and the failure that `note` looks for, where it is no correction. -/
theorem noteBits_of_blockLevel {c : Option Cause} (h : ∀ d ∈ c, d.BlockLevel) :
    hasError (noteBits c) = isFailure c ∧ failureNoted (noteBits c) = isFailure c := by
  cases c with
  | none => decide
  | some d => obtain rfl | rfl | rfl | rfl := h d rfl <;> decide

theorem notedCauses_hasError (h : ∀ q < n, ∀ c ∈ noted q, c.BlockLevel) :
    hasError (notedCauses noted n) = (firstFailure noted n).isSome
      ∧ failureNoted (notedCauses noted n) = (firstFailure noted n).isSome := by
  induction n with
  | zero => simp [notedCauses, firstFailure, hasError, failureNoted]
  | succ n ih =>
    obtain ⟨herr, hnoted⟩ := ih fun q hq => h q (hq.trans n.lt_succ_self)
    obtain ⟨herr', hnoted'⟩ := noteBits_of_blockLevel (h n n.lt_succ_self)
    rw [hasError] at herr herr'
    rw [failureNoted] at hnoted hnoted'
    rw [hasError, failureNoted, notedCauses, or_and_bne_zero, or_and_bne_zero, herr, herr', hnoted, hnoted', firstFailure_succ,
      Option.isSome_or]
    cases isFailure (noted n) <;> simp

theorem notes_of_silent (h : ∀ q < n, noted q = none) : notedCauses noted n = 0 ∧ corrections noted n = 0 := by
  induction n with
  | zero => exact ⟨rfl, rfl⟩
  | succ n ih =>
    obtain ⟨hcauses, hcorrections⟩ := ih fun q hq => h q (hq.trans n.lt_succ_self)
    have hn := h n n.lt_succ_self
    rw [notedCauses, corrections_succ, hcauses, hcorrections, hn]
    exact ⟨rfl, rfl⟩

theorem isFailure_some {c : Cause} (h : c ≠ .singleBitCorrected) : isFailure (some c) = true := by
  cases c <;> simp_all [isFailure]

/-- Notes of one kind of failure set that cause, where there is one. -/
theorem notedCauses_of_one_failure {c : Cause} (h : ∀ q < n, noted q = none ∨ noted q = some c) :
    (∀ q < n, noted q = none) ∨ notedCauses noted n = c.bit := by
  induction n with
  | zero => exact .inl nofun
  | succ n ih =>
    rw [notedCauses]
    rcases ih fun q hq => h q (hq.trans n.lt_succ_self) with hnone | hset <;>
      rcases h n n.lt_succ_self with hn | hn
    · refine .inl fun q hq => ?_
      rcases Nat.lt_succ_iff_lt_or_eq.1 hq with hlt | rfl
      · exact hnone q hlt
      · exact hn
    · obtain ⟨h0, -⟩ := notes_of_silent hnone
      exact .inr (by rw [h0, hn]; exact BitVec.zero_or)
    · exact .inr (by rw [hset, hn]; exact BitVec.or_zero)
    · exact .inr (by rw [hset, hn]; exact BitVec.or_self)

theorem corrections_of_one_failure {c : Cause} (hc : c ≠ .singleBitCorrected)
    (h : ∀ q < n, noted q = none ∨ noted q = some c) : corrections noted n = 0 := by
  rw [corrections, List.length_eq_zero_iff, List.filter_eq_nil_iff]
  intro q hq
  rcases h q (List.mem_range.1 hq) with hn | hn <;> simp [hn, hc]

/-- The work items of a job in index order: their outputs, the causes they note, the corrections they count, and the first of them
that fails. -/
theorem runItems_range {item : Nat → WorkItem} {n : Nat} (hn : n ≤ 2 ^ 64)
    (hnoted : ∀ q < n, ∀ c ∈ (item q).noted, c.BlockLevel) {s : State} (hs : s.ecause = 0) :
    runItems item (List.range n) s = { s with
      mem := itemsMemory item (List.range n) s.mem
      ecause := notedCauses (fun q => (item q).noted) n
      corrcnt := s.corrcnt + BitVec.ofNat 64 (corrections (fun q => (item q).noted) n)
      einfo := ((firstFailure (fun q => (item q).noted) n).map (BitVec.ofNat 64)).getD s.einfo } := by
  induction n with
  | zero => simp [runItems, itemsMemory, notedCauses, corrections, firstFailure, ← hs]
  | succ n ih =>
    have hbelow : ∀ q < n, ∀ c ∈ (item q).noted, c.BlockLevel := fun q hq => hnoted q (hq.trans n.lt_succ_self)
    obtain ⟨-, hfailure⟩ := notedCauses_hasError hbelow
    have hrun : runItems item (List.range (n + 1)) s = runItem item (runItems item (List.range n) s) n := by
      simp [runItems, List.range_succ]
    rw [hrun, ih (by omega) hbelow, runItem, noteItem_eq, itemsMemory_range_succ, notedCauses, corrections_succ,
      firstFailure_succ]
    simp only [memWrite, hfailure, State.mk.injEq, true_and, and_true]
    constructor
    · split <;> simp [BitVec.ofNat_add, BitVec.add_assoc]
    · cases hq : firstFailure (fun q => (item q).noted) n with
      | none => cases isFailure (item n).noted <;> simp
      | some q =>
        have hlt : BitVec.ofNat 64 q < BitVec.ofNat 64 n := by
          have := lt_of_firstFailure hq
          simp only [BitVec.lt_def, BitVec.toNat_ofNat]
          omega
        simp [hlt]

end Noted

/-! ## The two ends of a job (41 R185) -/

theorem finishStream_of_clean {s : State} (h : hasError s.ecause = false) (need : Nat) :
    finishStream need s = succeeded { s with olen := BitVec.ofNat 64 need } := by
  rw [finishStream, if_neg (Bool.eq_false_iff.1 h)]
  exact complete_eq_succeeded h

theorem finishStream_of_error {s : State} (h : hasError s.ecause = true) (need : Nat) :
    finishStream need s = failedWith s.ecause s.einfo { s with mem := s.mem.blurRange (dstAddr s) need } := by
  rw [finishStream, if_pos h]
  simp [complete, failedWith, h, dstAddr]

/-- A job whose output is its header and the outputs of its work items, one after the other, inside its window at `dst`, and whose
work items note block-level causes only. -/
structure Job.InOrder (job : Job) (dst : Nat) : Prop extends job.Inside dst where
  count       : job.count ≤ 2 ^ 64
  noted       : ∀ q < job.count, ∀ c ∈ (job.item q).noted, c.BlockLevel
  afterHeader : ∀ q < job.count, dst + job.header.length ≤ (job.item q).addr
  ordered     : ∀ p q, p < q → q < job.count → (job.item p).addr + (job.item p).out.length ≤ (job.item q).addr

/-- The causes that a job notes. -/
def Job.causes (job : Job) : BitVec 15 := notedCauses (fun q => (job.item q).noted) job.count

/-- The corrections that a job counts. -/
def Job.corrected (job : Job) : Nat := corrections (fun q => (job.item q).noted) job.count

/-- Memory after the header and all work items of a job. -/
def Job.memory (job : Job) (dst : Nat) (m : Memory) : Memory :=
  itemsMemory job.item (List.range job.count) (m.writeBytes dst job.header)

theorem Accepted.corrcnt {s : State} (h : Accepted s) : s.corrcnt = 0 := by
  obtain ⟨-, -, -, -, -, hcorrcnt, -⟩ := h
  exact hcorrcnt

section Ends

variable {job : Job} {dst : Nat} {s : State}

theorem Job.InOrder.sameOutside (h : job.InOrder dst) (m : Memory) : SameOutside m (job.memory dst m) dst job.need :=
  (writeBytes_outside m h.header).trans (itemsMemory_outside (fun q hq => h.item q (List.mem_range.1 hq)) _)

theorem Job.InOrder.holds_header (h : job.InOrder dst) (m : Memory) : HoldsAt (job.memory dst m) dst job.header := by
  refine (writeBytes_holdsAt m dst job.header).of_sameOutside (b := dst + job.header.length)
    (n := job.need - job.header.length) (itemsMemory_outside (fun q hq => ?_) _) (.inl (Nat.le_refl _))
  have hq := List.mem_range.1 hq
  have hheader := h.header
  have hitem := h.item q hq
  exact ⟨h.afterHeader q hq, by omega⟩

theorem Job.InOrder.holds_item (h : job.InOrder dst) (m : Memory) :
    ∀ q < job.count, HoldsAt (job.memory dst m) (job.item q).addr (job.item q).out :=
  itemsMemory_holdsAt h.ordered _

/-- A job in which no work item fails. -/
theorem runJob_succeeds (hs : Accepted s) (h : job.InOrder (dstAddr s))
    (hclean : ∀ q < job.count, isFailure (job.item q).noted = false) :
    runJob job s = succeeded { s with
      mem := job.memory (dstAddr s) s.mem, olen := BitVec.ofNat 64 job.need, corrcnt := BitVec.ofNat 64 job.corrected
      ecause := job.causes } := by
  have hnone := firstFailure_eq_none hclean
  obtain ⟨herror, -⟩ := notedCauses_hasError h.noted
  rw [hnone] at herror
  rw [runJob, runItems_range h.count h.noted (by exact hs.ecause), finishStream_of_clean (by exact herror)]
  simp [hnone, memWrite, hs.corrcnt, Job.memory, Job.corrected, Job.causes, dstAddr]

/-- A job in which no work item notes anything. -/
theorem runJob_silent (hs : Accepted s) (h : job.InOrder (dstAddr s)) (hsilent : ∀ q < job.count, (job.item q).noted = none) :
    runJob job s = succeeded { s with mem := job.memory (dstAddr s) s.mem, olen := BitVec.ofNat 64 job.need } := by
  obtain ⟨hcauses, hcorrected⟩ := notes_of_silent hsilent
  rw [runJob_succeeds hs h fun q hq => by rw [hsilent q hq]; rfl, Job.causes, Job.corrected, hcauses, hcorrected]
  simp [succeeded, hs.ecause, hs.corrcnt]

/-- A job whose first failing work item is `q`: its window becomes unspecified (60 R291). -/
theorem runJob_fails (hs : Accepted s) (h : job.InOrder (dstAddr s)) {q : Nat} (hq : q < job.count)
    (hfail : isFailure (job.item q).noted = true) (hfirst : ∀ p < q, isFailure (job.item p).noted = false) :
    runJob job s = failedWith job.causes (BitVec.ofNat 64 q) { s with
      mem := (job.memory (dstAddr s) s.mem).blurRange (dstAddr s) job.need
      corrcnt := BitVec.ofNat 64 job.corrected } := by
  have hsome := firstFailure_eq_some hq hfail hfirst
  obtain ⟨herror, -⟩ := notedCauses_hasError h.noted
  rw [hsome] at herror
  rw [runJob, runItems_range h.count h.noted (by exact hs.ecause), finishStream_of_error (by exact herror)]
  simp [hsome, memWrite, hs.corrcnt, Job.memory, Job.corrected, Job.causes, dstAddr, failedWith]

/-- A job whose work items note one kind of failure, the first of them `q`. -/
theorem runJob_fails_with (hs : Accepted s) (h : job.InOrder (dstAddr s)) {c : Cause} (hc : c ≠ .singleBitCorrected)
    (hnoted : ∀ q < job.count, (job.item q).noted = none ∨ (job.item q).noted = some c) {q : Nat} (hq : q < job.count)
    (hfail : (job.item q).noted = some c) (hfirst : ∀ p < q, (job.item p).noted = none) :
    runJob job s = failedWith c.bit (BitVec.ofNat 64 q) { s with
      mem := (job.memory (dstAddr s) s.mem).blurRange (dstAddr s) job.need } := by
  have hcauses : job.causes = c.bit := (notedCauses_of_one_failure hnoted).resolve_left fun hnone => by
    rw [hnone q hq] at hfail
    cases hfail
  have hfailure : isFailure (job.item q).noted = true := by rw [hfail, isFailure_some hc]
  rw [runJob_fails hs h hq hfailure fun p hp => by rw [hfirst p hp]; rfl, hcauses, Job.corrected,
    corrections_of_one_failure hc hnoted]
  simp [failedWith, hs.corrcnt]

end Ends

end Sys2Proof.Machine
end

section
/-! PROOFS. The plan of a stream command at work: its checks on its windows (60 R280; 20_memory R63, R70 to R72), the raise of the
first failing check (60 R290), and the job it runs. -/

namespace Sys2Proof.Machine

theorem checkSource_eq (s : State) : checkSource s = (!decide (SourceGood s), ⟨.busFault, 0⟩) := by
  simp only [checkSource, ← Nat.not_le, decide_not, Bool.decide_and, Bool.decide_eq_true, Bool.not_and]

/-- The checks 12 to 14 of 60 R280, in their order. -/
theorem firstRaise_windowChecks (s : State) (need : Nat) :
    firstRaise (windowChecks s need) =
      if s.flight.ops.cap.toNat < need then some ⟨.capacityExceeded, BitVec.ofNat 64 need⟩
      else if ¬(dstAddr s + need ≤ addressSpace ∧ memWritable s.platform (dstAddr s) need = true) then
        some ⟨.busFault, 1⟩
      else if 0 < srcLen s ∧ 0 < need ∧ srcAddr s < dstAddr s + need ∧ dstAddr s < srcAddr s + srcLen s then
        some ⟨.bufferOverlap, 0⟩
      else none := by
  have hdst : (addressSpace < dstAddr s + need ∨ memWritable s.platform (dstAddr s) need = false)
      ↔ ¬(dstAddr s + need ≤ addressSpace ∧ memWritable s.platform (dstAddr s) need = true) := by
    rw [Decidable.not_and_iff_or_not, Nat.not_le, Bool.not_eq_true]
  simp only [windowChecks, checkCapacity, checkDestination, checkOverlap, rangesMeet, firstRaise_cons, firstRaise_nil,
    Bool.or_eq_true, Bool.and_eq_true, Bool.not_eq_true', decide_eq_true_eq, hdst, and_assoc]

/-- The checks of a destination window pass where it is good. -/
theorem firstRaise_windowChecks_eq_none {s : State} {need : Nat} :
    firstRaise (windowChecks s need) = none ↔ DestinationGood s need := by
  rw [firstRaise_windowChecks]
  constructor
  · intro h
    split_ifs at h with hcap hdst hmeet
    obtain ⟨hspace, hwritable⟩ := hdst
    exact ⟨Nat.not_lt.1 hcap, hspace, hwritable, hmeet⟩
  · rintro ⟨hcap, hspace, hwritable, hdisjoint⟩
    rw [if_neg (Nat.not_lt.2 hcap), if_neg (not_not.2 ⟨hspace, hwritable⟩), if_neg hdisjoint]

section Plans

variable {i : Instr} {s : State} {checks windows : List (Bool × Raise)} {job : Job} {r : Raise}

/-- The first failing check before the output size decides. -/
theorem raisesEarly_of_plan (hs : Accepted s) (hu : Undisturbed s) (hp : streamPlan i s = some (plan checks windows job))
    (hr : firstRaise checks = some r) : RaisesEarly i s r.cause.bit r.info := by
  have hplan : plan checks windows job = .early r := by simp only [plan, hr]
  rw [hplan] at hp
  refine ⟨?_, ?_⟩
  · rw [exec_of_streamPlan hp, runPlan, if_neg (Bool.eq_false_iff.1 hu), raise_eq_failedWith hs.ecause]
  · rw [outputNeed_of_streamPlan hp, destinationSize, need_early, Nat.zero_min]

/-- The first failing check on the windows decides, where none before the output size fails. -/
theorem raisesLate_of_plan (hs : Accepted s) (hu : Undisturbed s) (hp : streamPlan i s = some (plan checks windows job))
    (hc : firstRaise checks = none) (hr : firstRaise windows = some r) : RaisesLate i s job.need r.cause.bit r.info := by
  have hplan : plan checks windows job = .late r job.need := by simp only [plan, hc, hr]
  rw [hplan] at hp
  refine ⟨?_, ?_⟩
  · rw [exec_of_streamPlan hp, runPlan, if_neg (Bool.eq_false_iff.1 hu), raise_eq_failedWith hs.ecause]
  · rw [outputNeed_of_streamPlan hp]
    rfl

/-- A command with no failing check runs its job. -/
theorem exec_of_plan (hu : Undisturbed s) (hp : streamPlan i s = some (plan checks windows job)) (hc : firstRaise checks = none)
    (hw : firstRaise windows = none) : exec i s = .next (runJob job s) := by
  have hplan : plan checks windows job = .run job := by simp only [plan, hc, hw]
  rw [exec_of_streamPlan hp, hplan, runPlan, if_neg (Bool.eq_false_iff.1 hu)]

/-- A command that ends with `OK = 1` has passed its checks. -/
theorem checks_pass_of_ok {t : State} (hs : Accepted s) (hu : Undisturbed s)
    (hp : streamPlan i s = some (plan checks windows job)) (ht : exec i s = .next t) (hok : t.ok = true) :
    firstRaise checks = none ∧ firstRaise windows = none := by
  rcases plan_cases checks windows job with ⟨r, hr, -⟩ | ⟨r, hc, hr, -⟩ | ⟨hc, hw, -⟩
  · obtain ⟨he, -⟩ := raisesEarly_of_plan hs hu hp hr
    rw [he] at ht
    cases ht
    cases hok
  · obtain ⟨he, -⟩ := raisesLate_of_plan hs hu hp hc hr
    rw [he] at ht
    cases ht
    cases hok
  · exact ⟨hc, hw⟩

/-- The raises at the checks 12 to 14 of 60 R280, in their order. -/
theorem windowRaises (hs : Accepted s) (hu : Undisturbed s)
    (hp : streamPlan i s = some (plan checks (windowChecks s job.need) job)) (hc : firstRaise checks = none) :
    (s.flight.ops.cap.toNat < job.need → RaisesLate i s job.need 0x0800 (BitVec.ofNat 64 job.need))
      ∧ (job.need ≤ s.flight.ops.cap.toNat →
          ¬(dstAddr s + job.need ≤ addressSpace ∧ memWritable s.platform (dstAddr s) job.need = true) →
          RaisesLate i s job.need 0x1000 1)
      ∧ (job.need ≤ s.flight.ops.cap.toNat → dstAddr s + job.need ≤ addressSpace →
          memWritable s.platform (dstAddr s) job.need = true → ¬DestinationGood s job.need →
          RaisesLate i s job.need 0x2000 0) := by
  have hraise := firstRaise_windowChecks s job.need
  refine ⟨fun hcap => ?_, fun hcap hdst => ?_, fun hcap hspace hwritable hoverlap => ?_⟩
  · rw [if_pos hcap] at hraise
    exact raisesLate_of_plan hs hu hp hc hraise
  · rw [if_neg (Nat.not_lt.2 hcap), if_pos hdst] at hraise
    exact raisesLate_of_plan hs hu hp hc hraise
  · rw [if_neg (Nat.not_lt.2 hcap), if_neg (not_not.2 ⟨hspace, hwritable⟩), if_pos] at hraise
    · exact raisesLate_of_plan hs hu hp hc hraise
    · by_contra hdisjoint
      exact hoverlap ⟨hcap, hspace, hwritable, hdisjoint⟩

end Plans

end Sys2Proof.Machine
end

section
/-! PROOFS. The linear streams (41 R171 to R188): the order of the blocks of data and of the codewords, the checks and the jobs of
the encodes and of the decodes. -/

namespace Sys2Proof.Machine

/-! ## Blocks and codewords in order (41 R175, R184) -/

namespace Codec

variable {l : Layout}

theorem items_le_streamSize (c : Codec) (l : Layout) : c.items l ≤ c.streamSize l := by
  have : l.F ≤ l.F * (1 + l.bs) := Nat.le_mul_of_pos_right _ (Nat.lt_add_right _ Nat.one_pos)
  cases c <;> simp only [items, streamSize] <;> omega

theorem codeOffset_ge (c : Codec) (l : Layout) (q : Nat) : 17 ≤ c.codeOffset l q := by
  cases c with
  | par => exact Nat.le_add_right ..
  | ham | sec =>
    simp only [codeOffset]
    split_ifs <;> omega

/-- A block of a Parity stream with a block after it is a full one. -/
theorem par_itemLen_of_lt {p q : Nat} (hpq : p < q) (hq : q < l.B) : par.itemLen l p = l.bs :=
  if_neg fun ⟨_, hlast⟩ => by omega

/-- The data of a work item ends before that of each later one. -/
theorem data_ordered (c : Codec) {p q : Nat} (hpq : p < q) (hq : q < c.items l) :
    c.dataOffset l p + c.itemLen l p ≤ c.dataOffset l q := by
  have hblock {k : Nat} (h : p < k) : p * l.bs + l.bs ≤ k * l.bs := block_end_le h l.bs
  cases c with
  | par =>
    rw [par_itemLen_of_lt hpq hq]
    exact hblock hpq
  | ham | sec =>
    simp only [dataOffset, itemLen]
    split_ifs with hpF hqF hqF
    · exact hblock hpq
    · exact (hblock hpF).trans (Nat.le_add_right ..)
    · omega
    · omega

/-- The codeword of a work item ends before that of each later one. -/
theorem codeword_ordered (c : Codec) {p q : Nat} (hpq : p < q) (hq : q < c.items l) :
    c.codeOffset l p + (1 + c.itemLen l p) ≤ c.codeOffset l q := by
  have hblock {k : Nat} (h : p < k) : p * (1 + l.bs) + (1 + l.bs) ≤ k * (1 + l.bs) := block_end_le h (1 + l.bs)
  cases c with
  | par =>
    have := hblock hpq
    simp only [par_itemLen_of_lt hpq hq, codeOffset]
    omega
  | ham | sec =>
    simp only [codeOffset, itemLen]
    split_ifs with hpF hqF hqF
    · have := hblock hpq
      omega
    · have := hblock hpF
      omega
    · omega
    · omega

/-- Every data byte is a byte of a work item. -/
theorem exists_item (hl : l.Consistent) (c : Codec) {j : Nat} (hj : j < l.n) :
    ∃ q < c.items l, ∃ k < c.itemLen l q, j = c.dataOffset l q + k := by
  have hB := hl.blocks
  rw [hl.data] at hj
  rcases Nat.lt_or_ge j (l.F * l.bs) with hfull | hrest
  · have hq : j / l.bs < l.F := Nat.div_lt_of_lt_mul (by rwa [Nat.mul_comm])
    have hk : j % l.bs < l.bs := Nat.mod_lt j (Nat.zero_lt_of_lt hl.short)
    refine ⟨j / l.bs, ?_, j % l.bs, ?_, ?_⟩
    · cases c <;> simp only [items] <;> omega
    · cases c with
      | par =>
        rwa [itemLen, if_neg]
        rintro ⟨hrem, hlast⟩
        rw [if_pos hrem] at hB
        omega
      | ham | sec => rwa [itemLen, if_pos hq]
    · have hdiv := Nat.div_add_mod' j l.bs
      cases c <;> simp only [dataOffset, hq, if_true, hdiv]
  · have hrem : 0 < l.rem := by omega
    rw [if_pos hrem] at hB
    cases c with
    | par =>
      refine ⟨l.F, by simp only [items]; omega, j - l.F * l.bs, ?_, ?_⟩
      · rw [itemLen, if_pos ⟨hrem, hB.symm⟩]
        omega
      · simp only [dataOffset]
        omega
    | ham | sec =>
      have hq : ¬l.F + (j - l.F * l.bs) < l.F := by omega
      refine ⟨l.F + (j - l.F * l.bs), by simp only [items]; omega, 0, ?_, ?_⟩
      · rw [itemLen, if_neg hq]
        exact Nat.one_pos
      · simp only [dataOffset, if_neg hq]
        omega

end Codec

/-! ## Encodes -/

/-- The checks of a linear encode that precede its output size (41 R180). -/
def encChecks (c : Codec) (s : State) : List (Bool × Raise) :=
  [ checkInit s,
    (!c.legalBlockSize (encLayout s).bs, ⟨.invalidParameter, s.flight.ops.pa⟩),
    (!legalThreads (encLayout s).T, ⟨.invalidParameter, s.flight.ops.nt⟩),
    (decide (fieldSpace ≤ (encLayout s).B), ⟨.invalidParameter, BitVec.ofNat 64 (encLayout s).B⟩),
    checkSource s ]

/-- The job of a linear encode. -/
def encJob (c : Codec) (s : State) : Job where
  need   := c.streamSize (encLayout s)
  header := linHeader c (encLayout s)
  count  := c.items (encLayout s)
  item   := encItem c s (encLayout s)

theorem streamPlan_encodeOf (c : Codec) (s : State) :
    streamPlan (encodeOf c) s = some (plan (encChecks c s) (windowChecks s (encJob c s).need) (encJob c s)) := by
  cases c <;> rfl

/-- The checks of 41 R180 before the windows, in their order. -/
theorem firstRaise_encChecks (c : Codec) (s : State) :
    firstRaise (encChecks c s) =
      if s.init = false then some ⟨.notInitialized, 0⟩
      else if ¬c.legalBlockSize (encLayout s).bs = true then some ⟨.invalidParameter, s.flight.ops.pa⟩
      else if ¬(1 ≤ (encLayout s).T ∧ (encLayout s).T < fieldSpace) then some ⟨.invalidParameter, s.flight.ops.nt⟩
      else if fieldSpace ≤ (encLayout s).B then some ⟨.invalidParameter, BitVec.ofNat 64 (encLayout s).B⟩
      else if ¬SourceGood s then some ⟨.busFault, 0⟩
      else none := by
  simp only [encChecks, checkInit, checkSource_eq, legalThreads, firstRaise_cons, firstRaise_nil, ← Bool.decide_and,
    Bool.not_eq_true', decide_eq_true_eq, decide_eq_false_iff_not, Bool.not_eq_true]

/-- A linear encode passes all checks of 41 R180. -/
structure Encodes (c : Codec) (s : State) : Prop where
  init    : s.init = true
  legal   : c.legalBlockSize (encLayout s).bs = true
  threads : 1 ≤ (encLayout s).T ∧ (encLayout s).T < fieldSpace
  count   : (encLayout s).B < fieldSpace
  windows : WindowsGood s (c.streamSize (encLayout s))

theorem firstRaise_encode_eq_none {c : Codec} {s : State} :
    firstRaise (encChecks c s) = none ∧ firstRaise (windowChecks s (encJob c s).need) = none ↔ Encodes c s := by
  rw [firstRaise_windowChecks_eq_none, firstRaise_encChecks]
  constructor
  · rintro ⟨h, hdst⟩
    split_ifs at h with hinit hlegal hthreads hcount hsource
    exact ⟨by simpa using hinit, hlegal, hthreads, Nat.not_le.1 hcount, hsource, hdst⟩
  · rintro ⟨hinit, hlegal, hthreads, hcount, hsource, hdst⟩
    refine ⟨?_, hdst⟩
    rw [if_neg (by simp [hinit]), if_neg (not_not.2 hlegal), if_neg (not_not.2 hthreads), if_neg (Nat.not_le.2 hcount),
      if_neg (not_not.2 hsource)]

section Encode

variable {c : Codec} {s : State}

theorem Encodes.consistent (h : Encodes c s) : (encLayout s).Consistent :=
  encLayout_consistent (Codec.legalBlockSize_pos h.legal)

theorem Encodes.streamSize_lt (h : Encodes c s) : c.streamSize (encLayout s) < 2 ^ 64 := by
  obtain ⟨-, hcap, -⟩ := h.windows
  exact hcap.trans_lt s.flight.ops.cap.isLt

theorem Encodes.inOrder (h : Encodes c s) : (encJob c s).InOrder (dstAddr s) where
  header := c.streamSize_ge _
  item q hq := by
    have := c.codeword_inside h.consistent hq
    simp only [encJob, encItem, List.length_cons, memRead_length]
    omega
  count := (c.items_le_streamSize _).trans h.streamSize_lt.le
  noted _ _ _ hd := nomatch hd
  afterHeader q _ := Nat.add_le_add_left (c.codeOffset_ge _ q) _
  ordered p q hpq hq := by
    have := c.codeword_ordered hpq hq
    simp only [encJob, encItem, List.length_cons, memRead_length]
    omega

/-- Memory after an encode. -/
def encMemory (c : Codec) (s : State) : Memory := (encJob c s).memory (dstAddr s) s.mem

theorem Encodes.exec (h : Encodes c s) (hs : Accepted s) (hu : Undisturbed s) :
    exec (encodeOf c) s = .next (succeeded { s with
      mem := encMemory c s, olen := BitVec.ofNat 64 (c.streamSize (encLayout s)) }) := by
  obtain ⟨hchecks, hwindows⟩ := firstRaise_encode_eq_none.2 h
  rw [exec_of_plan hu (streamPlan_encodeOf c s) hchecks hwindows]
  exact congrArg _ (runJob_silent hs h.inOrder fun _ _ => rfl)

end Encode

end Sys2Proof.Machine
end

section
/-! PROOFS. The linear encodes: the stream each leaves (O21, O22, O23), and the raise of the first failing check (O24) (41 R177 to
R180). -/

namespace Sys2Proof.Machine

theorem Codec.legalBlockSize_par_iff (n : Nat) : Codec.par.legalBlockSize n = true ↔ 1 ≤ n ∧ n < fieldSpace := by
  simp only [legalBlockSize, Bool.and_eq_true, decide_eq_true_eq]

/-! ## The stream an encode leaves -/

section Stream

variable {c : Codec} {s : State}

theorem Encodes.sameOutside (h : Encodes c s) :
    SameOutside s.mem (encMemory c s) (dstAddr s) (c.streamSize (encLayout s)) := h.inOrder.sameOutside s.mem

theorem Encodes.holds_header (h : Encodes c s) : HoldsAt (encMemory c s) (dstAddr s) (linHeader c (encLayout s)) :=
  h.inOrder.holds_header s.mem

/-- The codeword of each work item stands in its place in the stream, the check byte first. -/
theorem Encodes.holds_codeword (h : Encodes c s) {q : Nat} (hq : q < c.items (encLayout s)) :
    HoldsAt (encMemory c s) (dstAddr s + c.codeOffset (encLayout s) q) (encItem c s (encLayout s) q).out :=
  h.inOrder.holds_item s.mem q hq

end Stream

/-- Settles O21. -/
theorem encParWritesTheStream : Obligations.EncParWritesTheStream := by
  intro s hs hu hinit n bs T B rem need hbs hbs' hT hT' hB hw
  have h : Encodes .par s :=
    ⟨hinit, (Codec.legalBlockSize_par_iff bs).2 ⟨hbs, hbs'⟩, ⟨hT, hT'⟩, hB, hw⟩
  refine ⟨encMemory .par s, h.exec hs hu, h.sameOutside, h.holds_header, fun i hi => ?_⟩
  rw [Nat.add_assoc]
  exact h.holds_codeword hi

/-! ## The codewords of ENC.HAM and ENC.SEC -/

section Codewords

variable {c : Codec} (hc : c ≠ .par) (l : Layout)
include hc

/-- The codecs that split the data into full blocks and remaining bytes, each byte a codeword of its own (41 R175). -/
theorem Codec.items_of_ne_par : c.items l = l.F + l.rem := by cases c <;> trivial

theorem Codec.streamSize_of_ne_par : c.streamSize l = 17 + l.F * (1 + l.bs) + 2 * l.rem := by cases c <;> trivial

theorem Codec.itemLen_of_ne_par (q : Nat) : c.itemLen l q = if q < l.F then l.bs else 1 := by cases c <;> trivial

theorem Codec.dataOffset_of_ne_par (q : Nat) :
    c.dataOffset l q = if q < l.F then q * l.bs else l.F * l.bs + (q - l.F) := by cases c <;> trivial

theorem Codec.codeOffset_of_ne_par (q : Nat) :
    c.codeOffset l q = if q < l.F then 17 + q * (1 + l.bs) else 17 + l.F * (1 + l.bs) + 2 * (q - l.F) := by
  cases c <;> trivial

theorem Codec.legalBlockSize_of_ne_par (n : Nat) : c.legalBlockSize n = (width? n).isSome := by cases c <;> trivial

end Codewords

/-- A block of the block size of width `w` has that width, a remaining byte has width 1. -/
theorem itemWidth_eq {l : Layout} {w : Width} (h : l.bs = w.bytes) (q : Nat) :
    itemWidth l q = if q < l.F then w else .one := by
  rw [itemWidth, h, width?_bytes]
  rfl

/-- An encode of full blocks and remaining bytes, with its check byte as a function of the block's number. -/
theorem encodesCodewords {c : Codec} {chk : Width → List Word64 → Word64 → Byte} (hc : c ≠ .par)
    (hchk : ∀ w rows blk, c.checkByte w rows blk = chk w rows (BitVec.ofNat 64 (le blk))) :
    EncodesCodewords (encodeOf c) c.tag chk := by
  intro s w hs hu hinit hpa n bs T B F rem need hT hT' hB hw
  have hl : encLayout s = ⟨B, F, rem, bs, n, T⟩ := by simp only [encLayout, hpa]; rfl
  have hneed : c.streamSize (encLayout s) = need := by rw [Codec.streamSize_of_ne_par hc, hl]
  have h : Encodes c s := by
    refine ⟨hinit, ?_, ⟨hT, hT'⟩, by rwa [hl], by rwa [hneed]⟩
    rw [Codec.legalBlockSize_of_ne_par hc, hl, width?_bytes]
    rfl
  have hcodeword {q : Nat} (hq : q < F + rem) := h.holds_codeword (q := q) (by rwa [Codec.items_of_ne_par hc, hl])
  simp only [encItem, hchk, Codec.codeOffset_of_ne_par hc, Codec.dataOffset_of_ne_par hc, Codec.itemLen_of_ne_par hc,
    hl, itemWidth_eq (l := ⟨B, F, rem, bs, n, T⟩) (w := w) rfl] at hcodeword
  have hexec := h.exec hs hu
  have hout := h.sameOutside
  have hheader := h.holds_header
  rw [hneed] at hexec hout
  rw [hl] at hheader
  refine ⟨encMemory c s, hexec, hout, hheader, fun q hq => ?_, fun j hj => ?_⟩
  · have := hcodeword (q := q) (by omega)
    simpa only [hq, if_true, ← Nat.add_assoc] using this
  · have := hcodeword (q := F + j) (by omega)
    simpa only [show ¬F + j < F by omega, if_false, Nat.add_sub_cancel_left, ← Nat.add_assoc] using this

/-- Settles O22. -/
theorem encHamWritesTheStream : Obligations.EncHamWritesTheStream := encodesCodewords (c := .ham) nofun fun _ _ _ => rfl

/-- Settles O23. -/
theorem encSecWritesTheStream : Obligations.EncSecWritesTheStream := encodesCodewords (c := .sec) nofun fun _ _ _ => rfl

/-! ## The raises of an encode -/

theorem width?_isSome_iff (n : Nat) : (width? n).isSome = true ↔ oneOrEight n := by
  unfold width? oneOrEight
  split_ifs <;> simp_all

/-- Settles O24: the first failing check of the list of R180, then of the windows. -/
theorem linearEncodeRaisesTheFirstFailure : Obligations.LinearEncodeRaisesTheFirstFailure := by
  intro c s hs hu n bs T B legal need i
  have hp := streamPlan_encodeOf c s
  have hneed : (encJob c s).need = need := by cases c <;> rfl
  have hlegal : c.legalBlockSize (encLayout s).bs = true ↔ legal := by
    cases c with
    | par => exact Codec.legalBlockSize_par_iff _
    | ham | sec => exact width?_isSome_iff _
  have hraise := firstRaise_encChecks c s
  have hearly (r : Raise) (hr : firstRaise (encChecks c s) = some r) : RaisesEarly i s r.cause.bit r.info :=
    raisesEarly_of_plan hs hu hp hr
  refine ⟨fun hinit => ?_, fun hinit hl => ?_, fun hinit hl hT => ?_, fun hinit hl hT hT' => ?_⟩
  · exact hearly ⟨.notInitialized, 0⟩ (hraise.trans (if_pos hinit))
  all_goals replace hraise := hraise.trans (if_neg (by simp [hinit]))
  · exact hearly ⟨.invalidParameter, _⟩ (hraise.trans (if_pos (mt hlegal.1 hl)))
  all_goals replace hraise := hraise.trans (if_neg (not_not.2 (hlegal.2 hl)))
  · exact hearly ⟨.invalidParameter, _⟩ (hraise.trans (if_pos hT))
  replace hraise := hraise.trans (if_neg (not_not.2 ⟨hT, hT'⟩))
  refine ⟨fun hB => hearly ⟨.invalidParameter, _⟩ (hraise.trans (if_pos hB)), fun hB => ?_⟩
  replace hraise := hraise.trans (if_neg (Nat.not_le.2 hB))
  refine ⟨fun hsource => hearly ⟨.busFault, 0⟩ (hraise.trans (if_pos hsource)), ?_⟩
  rw [← hneed]
  refine ⟨fun hsource => ?_, fun hsource => ?_, fun hsource => ?_⟩ <;>
    obtain ⟨hcap, hdst, hoverlap⟩ := windowRaises hs hu hp (hraise.trans (if_neg (not_not.2 hsource)))
  exacts [hcap, hdst, hoverlap]

end Sys2Proof.Machine
end

section
/-! PROOFS. The checks and the jobs of the linear decodes, by their own commands and by DEC.AUTO (41 R181 to R188; 43 R254). -/

namespace Sys2Proof.Machine

/-- The job of a linear decode. -/
def decJob (c : Codec) (s : State) : Job where
  need   := (decLayout s).n
  header := []
  count  := c.items (decLayout s)
  item   := decItem c s (decLayout s)

/-- The checks of an explicit linear decode that precede its output size (41 R181). -/
def decChecks (c : Codec) (s : State) : List (Bool × Raise) :=
  decodeChecks s ++ [checkTag s c.tag] ++ linHeaderChecks c s (decLayout s)

theorem streamPlan_decodeOf (c : Codec) (s : State) :
    streamPlan (decodeOf c) s = some (plan (decChecks c s) (windowChecks s (decJob c s).need) (decJob c s)) := by
  cases c <;> rfl

/-- DEC.AUTO on a stream with the tag of a codec goes on as that codec (43 R254). -/
theorem streamPlan_decAuto {c : Codec} {s : State} (hd : firstRaise (decodeChecks s) = none) (htag : tagByte s = c.tag) :
    streamPlan .decAuto s
      = some (plan (linHeaderChecks c s (decLayout s)) (windowChecks s (decJob c s).need) (decJob c s)) := by
  simp only [streamPlan, autoPlan, hd, htag]
  cases c <;> rfl

/-- The steps (1) to (3) of 41 R181. -/
theorem firstRaise_decodeChecks (s : State) :
    firstRaise (decodeChecks s) =
      if s.init = false then some ⟨.notInitialized, 0⟩
      else if ¬SourceGood s then some ⟨.busFault, 0⟩
      else if srcLen s = 0 then some ⟨.malformedStream, 1⟩
      else none := by
  simp only [decodeChecks, checkInit, checkSource_eq, malformed, firstRaise_cons, firstRaise_nil, Bool.not_eq_true',
    decide_eq_false_iff_not, beq_iff_eq]

/-- The steps (5) to (10) of 41 R181. -/
theorem firstRaise_linHeaderChecks (c : Codec) (s : State) (l : Layout) :
    firstRaise (linHeaderChecks c s l) =
      if srcLen s < 17 then some ⟨.malformedStream, 3⟩
      else if ¬c.legalBlockSize l.bs = true then some ⟨.invalidParameter, BitVec.ofNat 64 l.bs⟩
      else if l.T = 0 then some ⟨.invalidParameter, 0⟩
      else if l.bs ≤ l.rem ∨ (0 < l.rem ∧ l.B = 0) then some ⟨.malformedStream, 4⟩
      else if c.streamSize l ≠ srcLen s then some ⟨.malformedStream, 5⟩
      else none := by
  simp only [linHeaderChecks, malformed, firstRaise_cons, firstRaise_nil, Bool.not_eq_true', Bool.not_eq_true, decide_eq_true_eq,
    beq_iff_eq, Bool.or_eq_true, Bool.and_eq_true, bne_iff_ne]

/-- The checks of an explicit linear decode, in their order. -/
theorem firstRaise_decChecks (c : Codec) (s : State) :
    firstRaise (decChecks c s) =
      if s.init = false then some ⟨.notInitialized, 0⟩
      else if ¬SourceGood s then some ⟨.busFault, 0⟩
      else if srcLen s = 0 then some ⟨.malformedStream, 1⟩
      else if tagByte s ≠ c.tag then some ⟨.malformedStream, 2⟩
      else firstRaise (linHeaderChecks c s (decLayout s)) := by
  simp only [decChecks, firstRaise_append, firstRaise_decodeChecks, checkTag, malformed, firstRaise_cons, firstRaise_nil,
    bne_iff_ne]
  split_ifs <;> rfl

/-- The header of a linear stream and the windows of its decode pass all checks of 41 R181. -/
structure Decodes (c : Codec) (s : State) : Prop where
  init    : s.init = true
  tag     : tagByte s = c.tag
  len     : 17 ≤ srcLen s
  legal   : c.legalBlockSize (decLayout s).bs = true
  threads : (decLayout s).T ≠ 0
  short   : (decLayout s).rem < (decLayout s).bs
  blocks  : 0 < (decLayout s).rem → (decLayout s).B ≠ 0
  size    : c.streamSize (decLayout s) = srcLen s
  windows : WindowsGood s (decLayout s).n

section Decode

variable {c : Codec} {s : State} {i : Instr}

theorem Decodes.header_passes (h : Decodes c s) : firstRaise (linHeaderChecks c s (decLayout s)) = none := by
  rw [firstRaise_linHeaderChecks, if_neg (Nat.not_lt.2 h.len), if_neg (not_not.2 h.legal), if_neg h.threads,
    if_neg (not_or.2 ⟨Nat.not_le.2 h.short, fun hB => h.blocks hB.1 hB.2⟩), if_neg (not_not.2 h.size)]

theorem Decodes.decodeChecks_pass (h : Decodes c s) : firstRaise (decodeChecks s) = none := by
  have hlen := h.len
  rw [firstRaise_decodeChecks, if_neg (by simp [h.init]), if_neg (not_not.2 h.windows.1), if_neg (by omega)]

/-- A linear decode, by its own command or by DEC.AUTO, that passes its checks runs its job. -/
theorem Decodes.exec (h : Decodes c s) (hu : Undisturbed s) (hi : i = decodeOf c ∨ i = .decAuto) :
    exec i s = .next (runJob (decJob c s) s) := by
  have hwindows : firstRaise (windowChecks s (decJob c s).need) = none :=
    firstRaise_windowChecks_eq_none.2 h.windows.2
  rcases hi with rfl | rfl
  · refine exec_of_plan hu (streamPlan_decodeOf c s) ?_ hwindows
    simp only [decChecks, firstRaise_append, h.decodeChecks_pass, h.header_passes, checkTag, malformed, h.tag,
      firstRaise_cons, bne_self_eq_false]
    rfl
  · exact exec_of_plan hu (streamPlan_decAuto h.decodeChecks_pass h.tag) h.header_passes hwindows

theorem Decodes.consistent (h : Decodes c s) : (decLayout s).Consistent := (decLayout_consistent h.header_passes).2

theorem Verdict.cause_blockLevel {v : Verdict} {d : Cause} (h : d ∈ v.cause) : d.BlockLevel := by
  cases v <;> cases h <;> simp [Cause.BlockLevel]

theorem decodeBlock_blockLevel {w : Width} {t : CodeReads} {chk : Byte} {blk : List Byte} {d : Cause}
    (h : d ∈ (c.decodeBlock w t chk blk).1) : d.BlockLevel := by
  cases c with
  | par =>
    simp only [Codec.decodeBlock] at h
    split at h <;> cases h
    exact .inr (.inr (.inr rfl))
  | ham | sec => exact Verdict.cause_blockLevel h

theorem Decodes.inOrder (h : Decodes c s) : (decJob c s).InOrder (dstAddr s) where
  header := Nat.zero_le _
  item q hq := by
    have := c.data_inside h.consistent hq
    simp only [decJob, decItem, decodeBlock_length h.legal q _ _ (memRead_length ..)]
    omega
  count := by
    have hlen : srcLen s < 2 ^ 64 := s.flight.ops.len.isLt
    have hitems := c.items_le_streamSize (decLayout s)
    rw [h.size] at hitems
    exact hitems.trans hlen.le
  noted _ _ _ hd := decodeBlock_blockLevel hd
  afterHeader _ _ := Nat.le_add_right ..
  ordered p q hpq hq := by
    have := c.data_ordered hpq hq
    simp only [decJob, decItem, decodeBlock_length h.legal p _ _ (memRead_length ..)]
    omega

/-- Memory after the work items of a decode. -/
def decMemory (c : Codec) (s : State) : Memory := (decJob c s).memory (dstAddr s) s.mem

theorem Decodes.sameOutside (h : Decodes c s) : SameOutside s.mem (decMemory c s) (dstAddr s) (decLayout s).n :=
  h.inOrder.sameOutside s.mem

/-- The output of each work item stands in its place in the data. -/
theorem Decodes.holds_data (h : Decodes c s) {q : Nat} (hq : q < c.items (decLayout s)) :
    HoldsAt (decMemory c s) (decItem c s (decLayout s) q).addr (decItem c s (decLayout s) q).out :=
  h.inOrder.holds_item s.mem q hq

/-- What a failed decode leaves of memory: the window unspecified, every other byte as before (60 R291). -/
theorem Decodes.failed_memory (h : Decodes c s) :
    SameOutside s.mem ((decMemory c s).blurRange (dstAddr s) (decLayout s).n) (dstAddr s) (decLayout s).n
      ∧ UnspecifiedAt ((decMemory c s).blurRange (dstAddr s) (decLayout s).n) (dstAddr s) (decLayout s).n :=
  ⟨h.sameOutside.trans (blurRange_outside _ _ _), blurRange_unspecified _ _ _⟩

end Decode

end Sys2Proof.Machine
end

section
/-! PROOFS. The linear decodes: the data each delivers or the failure it reports (O25, O26, O27), and the raise of the first
failing check (O28) (41 R181 to R188). -/

namespace Sys2Proof.Machine

/-! ## DEC.PAR (41 R186) -/

/-- A header field is below `2^32`. -/
theorem headerField_lt (s : State) (k : Nat) : headerField s k < fieldSpace := ube32_lt (memRead_length ..)

theorem decPar_iff (pb : Byte) (b : List Byte) : decPar pb b = true ↔ pb = bitByte (fold b) := beq_iff_eq

/-- Settles O25: the parity byte of a block differs exactly where its work item notes a failure. -/
theorem decParChecksEveryBlock : Obligations.DecParChecksEveryBlock := by
  intro s i hi hs hu hinit B bs rem F n hlen htag hbs hT hrem hB hsize hw cw blk bad
  have h : Decodes .par s :=
    ⟨hinit, htag, hlen, (Codec.legalBlockSize_par_iff bs).2 ⟨hbs, headerField_lt s 5⟩, hT, hrem, hB, hsize, hw⟩
  have hexec := h.exec hu hi
  have hcw (q : Nat) : srcAddr s + (17 + q * (1 + bs)) = cw q := (Nat.add_assoc ..).symm
  have hout (q : Nat) : (decItem .par s (decLayout s) q).out = blk q :=
    congrArg (fun a => memRead s (a + 1) _) (hcw q)
  have hnoted (q : Nat) : (decItem .par s (decLayout s) q).noted
      = if decPar (srcByte s (cw q)) (blk q) then none else some .integrityError := by
    rw [← hout, ← hcw]
    rfl
  have hgood {q : Nat} (hq : ¬bad q) : (decItem .par s (decLayout s) q).noted = none := by
    rw [hnoted, if_pos ((decPar_iff _ _).2 (not_not.1 hq))]
  have hbad {q : Nat} (hq : bad q) : (decItem .par s (decLayout s) q).noted = some .integrityError := by
    rw [hnoted, if_neg (mt (decPar_iff _ _).1 hq)]
  refine ⟨fun hclean => ⟨decMemory .par s, ?_, h.sameOutside, fun q hq => ?_⟩,
    fun q hq hfail hfirst => ⟨_, ?_, h.failed_memory⟩⟩
  · rw [hexec, runJob_silent hs h.inOrder fun q hq => hgood (hclean q hq)]
    rfl
  · rw [← hout]
    exact h.holds_data hq
  · rw [hexec, runJob_fails_with hs h.inOrder (c := .integrityError) nofun (fun p _ => (em (bad p)).symm.imp hgood hbad) hq
      (hbad hfail) fun p hp => hgood (hfirst p hp)]
    rfl

/-! ## DEC.HAM and DEC.SEC (41 R187, R188) -/

section Verdicts

variable (v : Nat → Verdict) (n : Nat)

/-- The causes for the verdicts met: corrections, double-bit errors, integrity errors. -/
def verdictCauses (corr dbl int : Bool) : BitVec 15 :=
  (if corr then 0x08 else 0) ||| (if dbl then 0x10 else 0) ||| (if int then 0x40 else 0)

theorem verdictCauses_or_noteBits (corr dbl int : Bool) (u : Verdict) :
    verdictCauses corr dbl int ||| noteBits u.cause
      = verdictCauses (corr || u == .corr) (dbl || u == .failDbl) (int || u == .failInt) := by
  cases u <;> revert corr dbl int <;> decide

/-- The causes that block decodes note are those of their verdicts. -/
theorem notedCauses_verdicts :
    notedCauses (fun q => (v q).cause) n
      = verdictCauses ((List.range n).any fun q => v q == .corr) ((List.range n).any fun q => v q == .failDbl)
          ((List.range n).any fun q => v q == .failInt) := by
  induction n with
  | zero => simp [notedCauses, verdictCauses]
  | succ n ih =>
    simp only [notedCauses, ih, verdictCauses_or_noteBits, List.range_succ, List.any_append, List.any_cons,
      List.any_nil, Bool.or_false]

theorem corrections_verdicts :
    corrections (fun q => (v q).cause) n = ((List.range n).filter fun q => v q == .corr).length := by
  have hcause (u : Verdict) : (u.cause == some .singleBitCorrected) = (u == .corr) := by cases u <;> rfl
  simp only [corrections, hcause]

theorem isFailure_cause_iff (u : Verdict) : isFailure u.cause = true ↔ u = .failDbl ∨ u = .failInt := by
  cases u <;> decide

end Verdicts

/-- A decode of full blocks and remaining bytes, with its block decoder given. -/
theorem decodesCodewords {c : Codec} {dec : CodeReads → Byte → Word64 → BlockResult} (hc : c ≠ .par)
    (hdec : ∀ w t chk blk, c.decodeBlock w t chk blk
      = ((dec t chk (BitVec.ofNat 64 (le blk))).verdict.cause,
          bytesLE w.bytes (dec t chk (BitVec.ofNat 64 (le blk))).d.toNat)) : DecodesCodewords c dec := by
  intro s i w hi hs hu hinit hbs B bs rem F n hlen htag hT hrem hB hsize hw iw cw out res has failed corrected causes
  have hl : decLayout s = ⟨B, F, rem, bs, n, headerField s 13⟩ := by simp only [decLayout, hbs]; rfl
  have hcount : c.items (decLayout s) = F + rem := by rw [Codec.items_of_ne_par hc, hl]
  have hlt {q : Nat} (hq : q < F + rem) : q < c.items (decLayout s) := by rwa [hcount]
  have h : Decodes c s := by
    refine ⟨hinit, htag, hlen, ?_, hT, by rwa [hl], hB, by rwa [Codec.streamSize_of_ne_par hc, hl], by rwa [hl]⟩
    rw [Codec.legalBlockSize_of_ne_par hc, hl, width?_bytes]
    rfl
  have hitem (q : Nat) : decItem c s (decLayout s) q
      = ⟨(res q).verdict.cause, out q, bytesLE (iw q).bytes (res q).d.toNat⟩ := by
    have hiw : (if q < F then bs else 1) = (iw q).bytes := by
      simp only [iw]
      split <;> rfl
    simp only [decItem, hdec, Codec.codeOffset_of_ne_par hc, Codec.dataOffset_of_ne_par hc, Codec.itemLen_of_ne_par hc, hl,
      itemWidth_eq (l := ⟨B, F, rem, bs, n, headerField s 13⟩) (w := w) rfl, hiw]
    rfl
  have hcauses : (decJob c s).causes = causes := by
    simp only [Job.causes, decJob, hcount, hitem]
    exact notedCauses_verdicts (fun q => (res q).verdict) (F + rem)
  have hcorrected : (decJob c s).corrected = corrected := by
    simp only [Job.corrected, decJob, hcount, hitem]
    exact corrections_verdicts (fun q => (res q).verdict) (F + rem)
  have hfailed (q : Nat) : isFailure ((decJob c s).item q).noted = true ↔ failed q := by
    simp only [decJob, hitem]
    exact isFailure_cause_iff _
  have hpass {q : Nat} (hq : ¬failed q) : isFailure ((decJob c s).item q).noted = false :=
    Bool.eq_false_iff.2 (mt (hfailed q).1 hq)
  have hn : (decLayout s).n = n := congrArg Layout.n hl
  have hneed : (decJob c s).need = n := hn
  have hexec := h.exec hu hi
  have hout := h.sameOutside
  have hmem := h.failed_memory
  rw [hn] at hout hmem
  refine ⟨fun hclean => ⟨decMemory c s, ?_, hout, fun q hq => ?_⟩, fun q hq hfail hfirst => ⟨_, ?_, hmem⟩⟩
  · rw [hexec, runJob_succeeds hs h.inOrder fun q hq => hpass (hclean q (by rwa [← hcount])), hcauses, hcorrected, hneed]
    rfl
  · have := h.holds_data (hlt hq)
    rwa [hitem] at this
  · rw [hexec, runJob_fails hs h.inOrder (hlt hq) ((hfailed q).2 hfail) fun p hp => hpass (hfirst p hp), hcauses,
      hcorrected, hneed]
    rfl

/-- Settles O26. -/
theorem decHamDecodesEveryCodeword : Obligations.DecHamDecodesEveryCodeword :=
  decodesCodewords (c := .ham) nofun fun _ _ _ _ => rfl

/-- Settles O27. -/
theorem decSecDecodesEveryCodeword : Obligations.DecSecDecodesEveryCodeword :=
  decodesCodewords (c := .sec) nofun fun _ _ _ _ => rfl

/-! ## The raises of a decode -/

/-- Settles O28: the first failing check of the list of R181, then of the windows. -/
theorem linearDecodeRaisesTheFirstFailure : Obligations.LinearDecodeRaisesTheFirstFailure := by
  intro c s hs hu len B bs rem n size legal i
  have hp := streamPlan_decodeOf c s
  have hsize : c.streamSize (decLayout s) = size := by cases c <;> rfl
  have hlegal : c.legalBlockSize (decLayout s).bs = true ↔ legal := by
    cases c with
    | par => exact (Codec.legalBlockSize_par_iff _).trans (and_iff_left (headerField_lt s 5))
    | ham | sec => exact width?_isSome_iff _
  have hearly (r : Raise) (hr : firstRaise (decChecks c s) = some r) : RaisesEarly i s r.cause.bit r.info :=
    raisesEarly_of_plan hs hu hp hr
  have hraise := firstRaise_decChecks c s
  refine ⟨fun hinit => hearly ⟨.notInitialized, 0⟩ (hraise.trans (if_pos hinit)), fun hinit hsource => ?_,
    fun hinit hsource => ?_⟩
  all_goals replace hraise := hraise.trans (if_neg (by simp [hinit]))
  · exact hearly ⟨.busFault, 0⟩ (hraise.trans (if_pos hsource))
  replace hraise := hraise.trans (if_neg (not_not.2 hsource))
  refine ⟨fun hlen => hearly ⟨.malformedStream, 1⟩ (hraise.trans (if_pos (Nat.lt_one_iff.1 hlen))), fun hlen htag => ?_,
    fun hlen htag hshort => ?_, fun htag hlen => ?_⟩
  all_goals replace hraise := hraise.trans (if_neg (show ¬len = 0 by omega))
  · exact hearly ⟨.malformedStream, 2⟩ (hraise.trans (if_pos htag))
  all_goals replace hraise := (hraise.trans (if_neg (not_not.2 htag))).trans (firstRaise_linHeaderChecks c s (decLayout s))
  · exact hearly ⟨.malformedStream, 3⟩ (hraise.trans (if_pos hshort))
  replace hraise := hraise.trans (if_neg (Nat.not_lt.2 hlen))
  refine ⟨fun hl => hearly ⟨.invalidParameter, _⟩ (hraise.trans (if_pos (mt hlegal.1 hl))), fun hl hT => ?_,
    fun hl hT hrem => ?_, fun hl hT hrem hB => ?_⟩
  all_goals replace hraise := hraise.trans (if_neg (not_not.2 (hlegal.2 hl)))
  · exact hearly ⟨.invalidParameter, 0⟩ (hraise.trans (if_pos hT))
  all_goals replace hraise := hraise.trans (if_neg hT)
  · exact hearly ⟨.malformedStream, 4⟩ (hraise.trans (if_pos hrem))
  replace hraise := hraise.trans (if_neg (not_or.2 ⟨Nat.not_le.2 hrem, fun h => hB h.1 h.2⟩))
  rw [hsize] at hraise
  refine ⟨fun hne => hearly ⟨.malformedStream, 5⟩ (hraise.trans (if_pos hne)), fun heq => ?_, fun heq => ?_,
    fun heq => ?_⟩ <;>
    obtain ⟨hcap, hdst, hoverlap⟩ := windowRaises hs hu hp (hraise.trans (if_neg (not_not.2 heq)))
  exacts [hcap, hdst, hoverlap]

end Sys2Proof.Machine
end

section
/-! PROOFS. The round trip of the linear streams (O29; 41 R189): a decode reads back the layout that the encode wrote in its
header, finds every codeword clean, and delivers every data byte. -/

namespace Sys2Proof.Machine

/-! ## Codewords decode clean -/

/-- A codeword with the check byte of its data decodes to its data, and notes nothing (40 R138 to R140). -/
theorem decodeBlock_checkByte {c : Codec} {w : Width} {t : CodeReads} {blk : List Byte} (ht : t.r = w.rows)
    (hblk : c ≠ .par → blk.length = w.bytes) : c.decodeBlock w t (c.checkByte w t.rows blk) blk = (none, blk) := by
  have hdata (hlen : blk.length = w.bytes) : bytesLE w.bytes (BitVec.ofNat 64 (le blk)).toNat = blk := by
    have hle : le blk < 2 ^ 64 := (le_lt blk).trans_le
      (Nat.pow_le_pow_right (by decide) (Nat.mul_le_mul_left 8 (hlen ▸ w.bytes_le)))
    rw [BitVec.toNat_ofNat, Nat.mod_eq_of_lt hle, ← hlen, bytesLE_le]
  cases c with
  | par => exact Prod.ext (if_pos ((decPar_iff _ _).2 rfl)) rfl
  | ham =>
    simp only [Codec.decodeBlock, Codec.checkByte, decHam_codeword, hdata (hblk nofun)]
    rfl
  | sec =>
    simp only [Codec.decodeBlock, Codec.checkByte, ← ht, decSec_codeword, hdata (hblk nofun)]
    rfl

/-! ## The stream read back -/

section RoundTrip

variable {c : Codec} {s s' : State}

/-- A command reads header field `v` where memory holds it. -/
theorem headerField_of_holdsAt {k v : Nat} (hv : v < fieldSpace) (h : HoldsAt s'.mem (srcAddr s' + k) (be32 v)) :
    headerField s' k = v := by
  rw [headerField, show (4 : Nat) = (be32 v).length from rfl, memRead_of_holdsAt h, ube32_be32 hv]

theorem Encodes.blockSize_lt (h : Encodes c s) : (encLayout s).bs < fieldSpace := by
  have hlegal := h.legal
  cases c with
  | par => exact ((Codec.legalBlockSize_par_iff _).1 hlegal).2
  | ham | sec => rcases (width?_isSome_iff _).1 hlegal with h1 | h8 <;> simp [*, fieldSpace]

/-- The header of the stream gives back the layout of its encode (41 R173, R181). -/
theorem decLayout_of_holds_header (h : Encodes c s) (hsrc : HoldsAt s'.mem (srcAddr s') (linHeader c (encLayout s))) :
    tagByte s' = c.tag ∧ decLayout s' = encLayout s := by
  obtain ⟨htag, hfields⟩ := holdsAt_cons.1 hsrc
  simp only [holdsAt_append] at hfields
  obtain ⟨⟨⟨hB, hbs⟩, hrem⟩, hT⟩ := hfields
  have hl := h.consistent
  have hB := headerField_of_holdsAt (k := 1) h.count hB
  have hbs := headerField_of_holdsAt (k := 5) h.blockSize_lt hbs
  have hrem := headerField_of_holdsAt (k := 9) (hl.short.trans h.blockSize_lt) hrem
  have hT := headerField_of_holdsAt (k := 13) h.threads.2 hT
  refine ⟨read_of_look htag _, ?_⟩
  have hF : (encLayout s).B - (if 0 < (encLayout s).rem then 1 else 0) = (encLayout s).F := by
    rw [hl.blocks, Nat.add_sub_cancel]
  simp only [decLayout, hB, hbs, hrem, hT, hF, ← hl.data]

/-- The rows that an encode read and those that a later decode reads give the same check bytes: for Parity they do not matter, and
loaded tables read the same at each reading. -/
theorem checkByte_readRows (ht : c = .par ∨ (allLoaded s.tables = true ∧ s'.tables = s.tables)) (w : Width) (q : Nat)
    (blk : List Byte) :
    c.checkByte w (readRows s.tables w s.flight.key q 0) blk = c.checkByte w (readRows s'.tables w s'.flight.key q 0) blk := by
  rcases ht with rfl | ⟨hloaded, heq⟩
  · rfl
  · rw [heq, readRows_of_loaded hloaded]

/-- A work item of the decode finds its codeword clean and gives the data that the encode read. -/
theorem decItem_of_holds_codeword (h : Encodes c s)
    (ht : c = .par ∨ (allLoaded s.tables = true ∧ s'.tables = s.tables)) {q : Nat}
    (hcw : HoldsAt s'.mem (srcAddr s' + c.codeOffset (encLayout s) q) (encItem c s (encLayout s) q).out) :
    decItem c s' (encLayout s) q
      = ⟨none, dstAddr s' + c.dataOffset (encLayout s) q,
          memRead s (srcAddr s + c.dataOffset (encLayout s) q) (c.itemLen (encLayout s) q)⟩ := by
  obtain ⟨hchk, hblk⟩ := holdsAt_cons.1 hcw
  have hblk := memRead_of_holdsAt hblk
  rw [memRead_length] at hblk
  have hlen (hc : c ≠ .par) : c.itemLen (encLayout s) q = (itemWidth (encLayout s) q).bytes := by
    rw [Codec.itemLen_of_ne_par hc, itemWidth_bytes]
    rw [← Codec.legalBlockSize_of_ne_par hc]
    exact h.legal
  have hdec := decodeBlock_checkByte (c := c) (w := itemWidth (encLayout s) q)
    (t := codeReads s'.tables (itemWidth (encLayout s) q) s'.flight.key q)
    (blk := memRead s (srcAddr s + c.dataOffset (encLayout s) q) (c.itemLen (encLayout s) q)) rfl
    fun hc => (memRead_length ..).trans (hlen hc)
  rw [decItem, hblk, read_of_look hchk, checkByte_readRows ht]
  simp only [codeReads] at hdec ⊢
  rw [hdec]

/-- The stream of an encode, read with windows good for its data, passes the checks of its decode. -/
theorem Encodes.decodes (h : Encodes c s) (hinit : s'.init = true) (htag : tagByte s' = c.tag)
    (hl : decLayout s' = encLayout s) (hlen : srcLen s' = c.streamSize (encLayout s)) (hw : WindowsGood s' (srcLen s)) :
    Decodes c s' where
  init := hinit
  tag := htag
  len := hlen ▸ c.streamSize_ge _
  legal := hl ▸ h.legal
  threads := by
    rw [hl]
    exact Nat.one_le_iff_ne_zero.1 h.threads.1
  short := hl ▸ h.consistent.short
  blocks := by
    rw [hl, h.consistent.blocks]
    intro hrem
    rw [if_pos hrem]
    exact Nat.succ_ne_zero _
  size := by rw [hl, hlen]
  windows := by
    rw [hl]
    exact hw

/-- Work items that give the bytes of the data in their places deliver all of them. -/
theorem holdsAt_of_items {l : Layout} (hl : l.Consistent) {m : Memory} {a : Nat}
    (h : ∀ q < c.items l, HoldsAt m (a + c.dataOffset l q) (memRead s (srcAddr s + c.dataOffset l q) (c.itemLen l q))) :
    HoldsAt m a (memRead s (srcAddr s) l.n) := by
  intro j hj
  rw [memRead_length] at hj
  obtain ⟨q, hq, k, hk, rfl⟩ := c.exists_item hl hj
  rw [← Nat.add_assoc, h q hq k (by rwa [memRead_length]), memRead, memRead, readBytes_getElem?, readBytes_getElem?, if_pos hk,
    if_pos hj, Nat.add_assoc]

end RoundTrip

/-- Settles O29: the header gives back the layout, each codeword decodes clean to the block it was made of, and the blocks are all
of the data. -/
theorem linearStreamsRoundTrip : Obligations.LinearStreamsRoundTrip := by
  intro c s t s' i hs hu hexec hok hreads htables hi
  obtain ⟨hs', hu', hinit, hmem, hsrc, hlen, hw⟩ := hreads
  have h : Encodes c s := firstRaise_encode_eq_none.1 (checks_pass_of_ok hs hu (streamPlan_encodeOf c s) hexec hok)
  rw [h.exec hs hu] at hexec
  cases hexec
  replace hmem : s'.mem = encMemory c s := hmem
  replace hsrc : srcAddr s' = dstAddr s := congrArg BitVec.toNat hsrc
  replace hlen : srcLen s' = c.streamSize (encLayout s) := by
    rw [srcLen, hlen]
    exact Nat.mod_eq_of_lt h.streamSize_lt
  obtain ⟨htag, hl⟩ := decLayout_of_holds_header (s' := s') h (by rw [hmem, hsrc]; exact h.holds_header)
  have hd : Decodes c s' := h.decodes hinit htag hl hlen hw
  have hitem {q : Nat} (hq : q < c.items (encLayout s)) := decItem_of_holds_codeword (s' := s') (q := q) h htables
    (by rw [hmem, hsrc]; exact h.holds_codeword hq)
  have hsilent : ∀ q < (decJob c s').count, ((decJob c s').item q).noted = none := by
    simp only [decJob, hl]
    exact fun q hq => by rw [hitem hq]
  refine ⟨_, (hd.exec hu' hi).trans (congrArg _ (runJob_silent hs' hd.inOrder hsilent)), rfl, hs'.ecause,
    hs'.corrcnt, ?_, ?_⟩
  · have hn : (decLayout s').n = s.flight.ops.len.toNat := congrArg Layout.n hl
    simp [succeeded, decJob, hn]
  · refine holdsAt_of_items (c := c) h.consistent fun q hq => ?_
    have := hd.holds_data (q := q) (by rwa [hl])
    rwa [hl, hitem hq] at this

end Sys2Proof.Machine
end

section
/-! PROOFS. The field laws of `gmul` (O34) and its inverse; bytes under XOR and `gmul` as a field (42_reed_solomon R211 to
R213). -/

namespace Sys2Proof.Machine

/-! ## The product is bilinear -/

/-- The XOR of two conditions selects what they select between them. -/
theorem ite_xor (p q : Bool) (c : Byte) :
    (if Bool.xor p q then c else 0) = (if p then c else 0) ^^^ (if q then c else 0) := by
  cases p <;> cases q <;> simp

theorem xtime_eq (a : Byte) : xtime a = (a <<< 1) ^^^ (if a.msb then 0x1D else 0) := by
  unfold xtime
  split <;> simp

theorem xtime_xor (a b : Byte) : xtime (a ^^^ b) = xtime a ^^^ xtime b := by
  simp only [xtime_eq, BitVec.msb_xor, BitVec.shiftLeft_xor_distrib, ite_xor]
  ac_rfl

theorem gmulLoop_succ (n : Nat) (a b r : Byte) :
    gmulLoop (n + 1) a b r = gmulLoop n (xtime a) (b >>> 1) (r ^^^ if b.getLsbD 0 then a else 0) := by
  rw [gmulLoop]
  split <;> simp

theorem gmulLoop_xor_left (n : Nat) (a a' b r r' : Byte) :
    gmulLoop n (a ^^^ a') b (r ^^^ r') = gmulLoop n a b r ^^^ gmulLoop n a' b r' := by
  induction n generalizing a a' b r r' with
  | zero => rfl
  | succ n ih =>
    simp only [gmulLoop_succ, xtime_xor, ← ih]
    congr 1
    split
    · ac_rfl
    · simp

theorem gmulLoop_xor_right (n : Nat) (a b b' r r' : Byte) :
    gmulLoop n a (b ^^^ b') (r ^^^ r') = gmulLoop n a b r ^^^ gmulLoop n a b' r' := by
  induction n generalizing a b b' r r' with
  | zero => rfl
  | succ n ih =>
    simp only [gmulLoop_succ, BitVec.ushiftRight_xor_distrib, BitVec.getLsbD_xor, ite_xor, ← ih]
    congr 1
    ac_rfl

theorem gmul_xor_left (a a' b : Byte) : gmul (a ^^^ a') b = gmul a b ^^^ gmul a' b := gmulLoop_xor_left 8 a a' b 0 0

theorem gmul_xor (a b b' : Byte) : gmul a (b ^^^ b') = gmul a b ^^^ gmul a b' := gmulLoop_xor_right 8 a b b' 0 0

/-! ## The laws from the powers of `z` (42 R213) -/

theorem xorBytes_bits : ∀ a : Byte, xorBytes (((List.range 8).filter a.getLsbD).map fun i => 1#8 <<< i) = a := by decide

/-- What holds of 0 and of the powers of `z`, and is kept by XOR, holds of every byte. -/
theorem byte_induction {P : Byte → Prop} (zero : P 0) (bit : ∀ i < 8, P (1#8 <<< i))
    (xor : ∀ a b, P a → P b → P (a ^^^ b)) (a : Byte) : P a := by
  have hsum (is : List Nat) (his : ∀ i ∈ is, i < 8) : P (xorBytes (is.map fun i => 1#8 <<< i)) := by
    induction is with
    | nil => exact zero
    | cons i is ih =>
      rw [List.forall_mem_cons] at his
      exact xor _ _ (bit i his.1) (ih his.2)
  rw [← xorBytes_bits a]
  exact hsum _ fun i hi => List.mem_range.1 (List.mem_of_mem_filter hi)

theorem zero_gmul : ∀ a : Byte, gmul 0 a = 0 := by decide

theorem gmul_zero : ∀ a : Byte, gmul a 0 = 0 := by decide

theorem gmul_one : ∀ a : Byte, gmul a 1 = a := by decide

theorem gmul_bit_comm : ∀ i < 8, ∀ j < 8, gmul (1#8 <<< i) (1#8 <<< j) = gmul (1#8 <<< j) (1#8 <<< i) := by decide +kernel

theorem gmul_comm (a b : Byte) : gmul a b = gmul b a := by
  refine byte_induction (P := fun a => gmul a b = gmul b a) (by rw [zero_gmul, gmul_zero]) (fun i hi => ?_)
    (fun a a' h h' => by rw [gmul_xor_left, gmul_xor, h, h']) a
  refine byte_induction (P := fun b => gmul (1#8 <<< i) b = gmul b (1#8 <<< i)) (by rw [zero_gmul, gmul_zero])
    (gmul_bit_comm i hi) (fun b b' h h' => by rw [gmul_xor_left, gmul_xor, h, h']) b

theorem gmul_bit_assoc : ∀ i < 8, ∀ j < 8, ∀ k < 8,
    gmul (1#8 <<< i) (gmul (1#8 <<< j) (1#8 <<< k)) = gmul (gmul (1#8 <<< i) (1#8 <<< j)) (1#8 <<< k) := by decide +kernel

theorem gmul_assoc (a b c : Byte) : gmul a (gmul b c) = gmul (gmul a b) c := by
  refine byte_induction (P := fun a => gmul a (gmul b c) = gmul (gmul a b) c) (by simp only [zero_gmul]) (fun i hi => ?_)
    (fun a a' h h' => by simp only [gmul_xor_left, h, h']) a
  refine byte_induction (P := fun b => gmul (1#8 <<< i) (gmul b c) = gmul (gmul (1#8 <<< i) b) c)
    (by simp only [zero_gmul, gmul_zero]) (fun j hj => ?_) (fun b b' h h' => by simp only [gmul_xor_left, gmul_xor, h, h']) b
  exact byte_induction (P := fun c => gmul (1#8 <<< i) (gmul (1#8 <<< j) c) = gmul (gmul (1#8 <<< i) (1#8 <<< j)) c)
    (by simp only [gmul_zero]) (gmul_bit_assoc i hi j hj) (fun c c' h h' => by simp only [gmul_xor, h, h']) c

/-- Settles O34. -/
theorem galoisProductLaws : Obligations.GaloisProductLaws := ⟨gmul_comm, gmul_assoc, gmul_xor, gmul_one, gmul_zero⟩

/-! ## Reduction and inverse (42 R211, R212) -/

theorem gmul_two : ∀ a : Byte, gmul a 2 = (a <<< 1) ^^^ (if a.getLsbD 7 then 0x1D else 0) := by decide

theorem gmul_ginv : ∀ a : Byte, a ≠ 0 → gmul a (ginv a) = 1 := by decide +kernel

theorem ginv_zero : ginv 0 = 0 := by decide +kernel

theorem gmul_eq_one_iff {a : Byte} (ha : a ≠ 0) (b : Byte) : gmul a b = 1 ↔ b = ginv a := by
  constructor
  · intro h
    calc b = gmul b (gmul a (ginv a)) := by rw [gmul_ginv a ha, gmul_one]
      _ = gmul (gmul a b) (ginv a) := by rw [gmul_assoc, gmul_comm b a]
      _ = ginv a := by rw [h, gmul_comm, gmul_one]
  · rintro rfl
    exact gmul_ginv a ha

/-! ## The field -/

/-- A byte as an element of the field GF(2^8). -/
structure Galois where
  byte : Byte

/-- GF(2^8): bytes with XOR and `gmul` (42 R210 to R213). -/
@[reducible] def galoisField : Field Galois :=
  letI : Add Galois := ⟨fun a b => ⟨a.byte ^^^ b.byte⟩⟩
  letI : Mul Galois := ⟨fun a b => ⟨gmul a.byte b.byte⟩⟩
  letI : Neg Galois := ⟨id⟩
  letI := Inv.mk fun a : Galois => ⟨ginv a.byte⟩
  letI : Zero Galois := ⟨⟨0⟩⟩
  letI : One Galois := ⟨⟨1⟩⟩
  Field.ofMinimalAxioms Galois
    (fun _ _ _ => congrArg Galois.mk (BitVec.xor_assoc ..))
    (fun _ => congrArg Galois.mk BitVec.zero_xor)
    (fun _ => congrArg Galois.mk BitVec.xor_self)
    (fun _ _ _ => congrArg Galois.mk (gmul_assoc ..).symm)
    (fun _ _ => congrArg Galois.mk (gmul_comm ..))
    (fun a => congrArg Galois.mk ((gmul_comm ..).trans (gmul_one a.byte)))
    (fun a ha => congrArg Galois.mk (gmul_ginv a.byte fun h => ha (congrArg Galois.mk h)))
    (congrArg Galois.mk ginv_zero)
    (fun _ _ _ => congrArg Galois.mk (gmul_xor ..))
    ⟨⟨0⟩, ⟨1⟩, fun h => absurd (congrArg Galois.byte h) (by decide)⟩

/-- `φ` is an embedding of the bytes, with XOR and `gmul`, in a field. -/
structure EmbedsBytes {K : Type} [Field K] (φ : Byte → K) : Prop where
  xor       : ∀ a b, φ (a ^^^ b) = φ a + φ b
  gmul      : ∀ a b, φ (gmul a b) = φ a * φ b
  one       : φ 1 = 1
  injective : Function.Injective φ

theorem exists_embedding : ∃ (K : Type) (_ : Field K) (φ : Byte → K), EmbedsBytes φ :=
  letI := galoisField
  ⟨Galois, galoisField, Galois.mk, fun _ _ => rfl, fun _ _ => rfl, rfl, fun _ _ => congrArg Galois.byte⟩

end Sys2Proof.Machine
end

section
/-! PROOFS. The Lagrange coefficients and the coding matrix (O35), as those of a field in which the bytes embed
(42_reed_solomon R214 to R216). -/

namespace Sys2Proof.Machine

/-! ## The products over nodes (42 R214) -/

/-- A list without its entry `t` is its entries at the other indices. -/
theorem eraseIdx_eq_map_filter_range (X : List Byte) (t : Nat) :
    X.eraseIdx t = ((List.range X.length).filter fun u => u != t).map fun u => X.getD u 0 := by
  induction X generalizing t with
  | nil => rfl
  | cons x X ih =>
    have hself : X = (List.range X.length).map fun u => X.getD u 0 :=
      List.ext_getElem (by simp) fun i h _ => by simp [h]
    rw [List.length_cons, List.range_succ_eq_map]
    cases t with
    | zero => simpa [List.filter_map, Function.comp_def] using hself
    | succ t =>
      rw [List.eraseIdx_cons_succ, ih, List.filter_cons_of_pos (by simp), List.filter_map, List.map_cons, List.map_map]
      simp [Function.comp_def, bne]

theorem diffProduct_eraseIdx (X : List Byte) (t : Nat) (y : Byte) : diffProduct y (X.eraseIdx t) = nodeProduct X t y := by
  rw [eraseIdx_eq_map_filter_range, diffProduct, List.foldr_map]
  rfl

theorem lag_eq (X : List Byte) (t : Nat) (y : Byte) :
    lag X t y = gmul (nodeProduct X t y) (ginv (nodeProduct X t (X.getD t 0))) := by
  rw [lag, gdiv, diffProduct_eraseIdx, diffProduct_eraseIdx]

/-- The byte at the node `y` by interpolation from the bytes `d t` at the nodes `X` (42 R214, R220). -/
def interpolateByte (X : List Byte) (d : Nat → Byte) (y : Byte) : Byte :=
  xorBytes ((List.range X.length).map fun t => gmul (lag X t y) (d t))

/-! ## In a field -/

section Embedding

open Polynomial

variable {K : Type} [Field K] {φ : Byte → K} (hφ : EmbedsBytes φ)
include hφ

theorem EmbedsBytes.zero : φ 0 = 0 := by simpa using hφ.xor 0 0

/-- XOR is also subtraction. -/
theorem EmbedsBytes.xor_eq_sub (a b : Byte) : φ (a ^^^ b) = φ a - φ b := by
  have hsum := hφ.xor (a ^^^ b) b
  rw [BitVec.xor_assoc, BitVec.xor_self, BitVec.xor_zero] at hsum
  exact eq_sub_of_add_eq hsum.symm

theorem EmbedsBytes.ginv {a : Byte} (ha : a ≠ 0) : φ (ginv a) = (φ a)⁻¹ := by
  refine eq_inv_of_mul_eq_one_right ?_
  rw [← hφ.gmul, gmul_ginv a ha, hφ.one]

theorem EmbedsBytes.xorBytes_map_range (f : Nat → Byte) (n : Nat) :
    φ (xorBytes ((List.range n).map f)) = ∑ t ∈ Finset.range n, φ (f t) := by
  have hsum (l : List Nat) : φ (xorBytes (l.map f)) = (l.map fun t => φ (f t)).sum := by
    induction l with
    | nil => exact hφ.zero
    | cons t l ih => rw [List.map_cons, List.map_cons, List.sum_cons, ← ih, ← hφ.xor]; rfl
  rw [hsum, ← List.sum_toFinset _ List.nodup_range, List.toFinset_range]

/-- The nodes as elements of the field. -/
def fieldNode (φ : Byte → K) (X : List Byte) (u : Nat) : K := φ (X.getD u 0)

variable {X : List Byte} (hX : X.Nodup)

theorem EmbedsBytes.nodeProduct (X : List Byte) (t : Nat) (y : Byte) :
    φ (nodeProduct X t y) = ∏ u ∈ (Finset.range X.length).erase t, (φ y - fieldNode φ X u) := by
  have hprod (l : List Nat) : φ (l.foldr (fun u acc => Machine.gmul (y ^^^ X.getD u 0) acc) 1)
      = (l.map fun u => φ y - fieldNode φ X u).prod := by
    induction l with
    | nil => exact hφ.one
    | cons u l ih => rw [List.foldr_cons, hφ.gmul, ih, hφ.xor_eq_sub]; rfl
  rw [Machine.nodeProduct, hprod, ← List.prod_toFinset _ (List.nodup_range.filter _)]
  refine Finset.prod_congr ?_ fun _ _ => rfl
  ext u
  simp [and_comm]

include hX

theorem EmbedsBytes.fieldNode_injOn : Set.InjOn (fieldNode φ X) (Finset.range X.length) := by
  intro u hu v hv huv
  have hu : u < X.length := by simpa using hu
  have hv : v < X.length := by simpa using hv
  have := hφ.injective huv
  rw [List.getD_eq_getElem _ _ hu, List.getD_eq_getElem _ _ hv] at this
  exact hX.getElem_inj_iff.1 this

theorem EmbedsBytes.nodeProduct_self_ne_zero {t : Nat} (ht : t < X.length) : Machine.nodeProduct X t (X.getD t 0) ≠ 0 := by
  intro h0
  have hprod := hφ.nodeProduct X t (X.getD t 0)
  rw [h0, hφ.zero, eq_comm, Finset.prod_eq_zero_iff] at hprod
  obtain ⟨u, hu, hdiff⟩ := hprod
  obtain ⟨hut, hu⟩ := Finset.mem_erase.1 hu
  exact hut (hφ.fieldNode_injOn hX hu (by simpa using ht) (sub_eq_zero.1 hdiff).symm)

/-- The Lagrange coefficient is the value of the Lagrange basis polynomial. -/
theorem EmbedsBytes.lag {t : Nat} (ht : t < X.length) (y : Byte) :
    φ (lag X t y) = (Lagrange.basis (Finset.range X.length) (fieldNode φ X) t).eval (φ y) := by
  rw [lag_eq, hφ.gmul, hφ.ginv (hφ.nodeProduct_self_ne_zero hX ht), hφ.nodeProduct, hφ.nodeProduct, ← div_eq_mul_inv,
    ← Finset.prod_div_distrib, Lagrange.basis, eval_prod]
  refine Finset.prod_congr rfl fun u _ => ?_
  rw [Lagrange.basisDivisor, eval_mul, eval_C, eval_sub, eval_X, eval_C, div_eq_inv_mul]
  rfl

/-- Interpolation of bytes is that of field elements. -/
theorem EmbedsBytes.interpolate (d : Nat → Byte) (y : Byte) :
    φ (interpolateByte X d y)
      = (Lagrange.interpolate (Finset.range X.length) (fieldNode φ X) fun t => φ (d t)).eval (φ y) := by
  rw [interpolateByte, hφ.xorBytes_map_range, Lagrange.interpolate_apply, eval_finsetSum]
  refine Finset.sum_congr rfl fun t ht => ?_
  rw [hφ.gmul, hφ.lag hX (Finset.mem_range.1 ht), eval_mul, eval_C, mul_comm]

end Embedding

/-! ## Interpolation on distinct nodes (42 R214) -/

section Nodes

variable {X : List Byte} (hX : X.Nodup) {t : Nat} (ht : t < X.length)
include hX

/-- Bytes that are interpolated from as many bytes at other nodes interpolate to the same bytes: a polynomial of degree below
the number of nodes is determined by its values there. -/
theorem interpolateByte_interpolateByte {Y : List Byte} (hY : Y.Nodup) (hlen : Y.length = X.length) (d : Nat → Byte)
    (y : Byte) :
    interpolateByte Y (fun t => interpolateByte X d (Y.getD t 0)) y = interpolateByte X d y := by
  obtain ⟨K, _, φ, hφ⟩ := exists_embedding
  have hdegree : (Lagrange.interpolate (Finset.range X.length) (fieldNode φ X) fun t => φ (d t)).degree
      < (Finset.range Y.length).card := by
    rw [hlen]
    exact Lagrange.degree_interpolate_lt _ (hφ.fieldNode_injOn hX)
  apply hφ.injective
  rw [hφ.interpolate hY, hφ.interpolate hX, ← Lagrange.eq_interpolate_of_eval_eq _ (hφ.fieldNode_injOn hY) hdegree]
  exact fun t _ => (hφ.interpolate hX d _).symm

include ht

/-- At a node, interpolation gives the byte of that node. -/
theorem interpolateByte_node (d : Nat → Byte) : interpolateByte X d (X.getD t 0) = d t := by
  obtain ⟨K, _, φ, hφ⟩ := exists_embedding
  refine hφ.injective ((hφ.interpolate hX d _).trans ?_)
  exact Lagrange.eval_interpolate_at_node (fun t => φ (d t)) (hφ.fieldNode_injOn hX) (Finset.mem_range.2 ht)

theorem nodeProduct_self_ne_zero : nodeProduct X t (X.getD t 0) ≠ 0 := by
  obtain ⟨K, _, φ, hφ⟩ := exists_embedding
  exact hφ.nodeProduct_self_ne_zero hX ht

theorem gmul_lag_nodeProduct (y : Byte) : gmul (lag X t y) (nodeProduct X t (X.getD t 0)) = nodeProduct X t y := by
  rw [lag_eq, ← gmul_assoc, gmul_comm (ginv _), gmul_ginv _ (nodeProduct_self_ne_zero hX ht), gmul_one]

theorem lag_self : lag X t (X.getD t 0) = 1 := by
  rw [lag_eq, gmul_ginv _ (nodeProduct_self_ne_zero hX ht)]

theorem lag_of_ne {u : Nat} (hu : u < X.length) (hut : u ≠ t) : lag X t (X.getD u 0) = 0 := by
  obtain ⟨K, _, φ, hφ⟩ := exists_embedding
  refine hφ.injective ((hφ.lag hX ht _).trans (.trans ?_ hφ.zero.symm))
  exact Lagrange.eval_basis_of_ne (v := fieldNode φ X) hut.symm (Finset.mem_range.2 hu)

omit ht in
/-- The coefficients of a node XOR to 1 (42 R216 (a)). -/
theorem xorBytes_lag (hpos : 0 < X.length) (y : Byte) : xorBytes ((List.range X.length).map fun t => lag X t y) = 1 := by
  obtain ⟨K, _, φ, hφ⟩ := exists_embedding
  have hsum := congrArg (Polynomial.eval (φ y))
    (Lagrange.sum_basis (hφ.fieldNode_injOn hX) (Finset.nonempty_range_iff.2 hpos.ne'))
  rw [Polynomial.eval_finsetSum, Polynomial.eval_one] at hsum
  refine hφ.injective ((hφ.xorBytes_map_range _ _).trans (.trans ?_ (hsum.trans hφ.one.symm)))
  exact Finset.sum_congr rfl fun t ht => hφ.lag hX (Finset.mem_range.1 ht) y

end Nodes

/-! ## The coding matrix (42 R215) -/

/-- Different indices below 256 have different nodes. -/
theorem nodup_map_node {es : List Nat} (hes : es.Nodup) (hlt : ∀ e ∈ es, e < 256) : (es.map node).Nodup := by
  refine hes.map_on fun a ha b hb hab => ?_
  have := congrArg BitVec.toNat hab
  simpa [node, Nat.mod_eq_of_lt (hlt a ha), Nat.mod_eq_of_lt (hlt b hb)] using this

theorem nodup_range_node {k : Nat} (hk : k ≤ 256) : ((List.range k).map node).Nodup :=
  nodup_map_node List.nodup_range fun _ he => (List.mem_range.1 he).trans_le hk

/-- Settles O35. -/
theorem fieldInverseAndCodingMatrix : Obligations.FieldInverseAndCodingMatrix := by
  refine ⟨gmul_two, fun a b ha => gmul_eq_one_iff ha b, fun X t hX ht => ?_, fun k i hk hki => ⟨fun j _ => rfl, ?_⟩⟩
  · exact ⟨nodeProduct_self_ne_zero hX ht, gmul_lag_nodeProduct hX ht, lag_self hX ht,
      fun u hu hut => lag_of_ne hX ht hu hut⟩
  · have hrow := xorBytes_lag (nodup_range_node (k := k) (by omega)) (by simpa using Nat.lt_of_succ_le hk) (node (k + i))
    rwa [List.length_map, List.length_range] at hrow

end Sys2Proof.Machine
end

section
/-! PROOFS. Devices byte position by byte position, and the group decoder: what it returns for any records (O38), and that it
rebuilds up to `m` erasures (O39) (42_reed_solomon R210, R218 to R220, R235). -/

namespace Sys2Proof.Machine

/-! ## Devices by their byte positions (42 R210) -/

theorem getD_devScale (c : Byte) (u : Device) (p : Nat) : (devScale c u).getD p 0 = gmul c (u.getD p 0) := by
  conv_lhs => rw [← gmul_zero c, devScale, List.getD_map]

theorem length_getD {L : List (List Byte)} {c : Nat} (hL : ∀ u ∈ L, u.length = c) {r : Nat} (hr : r < L.length) :
    (L.getD r []).length = c := by
  rw [List.getD_eq_getElem _ _ hr]
  exact hL _ (List.getElem_mem _)

/-- A device is its 8 bytes. -/
theorem device_eq_map_range {u : Device} (hu : u.length = 8) : u = (List.range 8).map fun p => u.getD p 0 :=
  List.ext_getElem (by simp [hu]) fun p hp _ => by simp [hp]

theorem devSum_eq {us : List Device} (hus : ∀ u ∈ us, u.length = 8) :
    devSum us = (List.range 8).map fun p => xorBytes (us.map fun u => u.getD p 0) := by
  induction us with
  | nil => rfl
  | cons u us ih =>
    rw [List.forall_mem_cons] at hus
    calc devSum (u :: us) = devXor u (devSum us) := rfl
      _ = _ := by
        rw [ih hus.2, device_eq_map_range hus.1, devXor, List.zipWith_map, List.zipWith_self]
        rfl

theorem combine_eq (coeff : Nat → Byte) {vs : List Device} (hvs : ∀ v ∈ vs, v.length = 8) :
    combine coeff vs = (List.range 8).map fun p =>
      xorBytes ((List.range vs.length).map fun t => gmul (coeff t) ((vs.getD t []).getD p 0)) := by
  have hindex : vs.zipIdx = (List.range vs.length).map fun t => (vs.getD t [], t) :=
    List.ext_getElem (by simp) fun t ht _ => by simp at ht; simp [ht]
  rw [combine, devSum_eq]
  · simp only [hindex, List.map_map, Function.comp_def, getD_devScale]
  · intro u hu
    obtain ⟨v, hv, rfl⟩ := List.mem_map.1 hu
    rw [devScale, List.length_map]
    exact hvs _ (List.fst_mem_of_mem_zipIdx hv)

theorem interpolate_eq {X : List Byte} {vs : List Device} (hlen : vs.length = X.length) (hvs : ∀ v ∈ vs, v.length = 8)
    (y : Byte) : interpolate X vs y = (List.range 8).map fun p => interpolateByte X (fun t => (vs.getD t []).getD p 0) y := by
  rw [interpolate, combine_eq _ hvs, hlen]
  rfl

theorem interpolate_length {X : List Byte} {vs : List Device} (hlen : vs.length = X.length) (hvs : ∀ v ∈ vs, v.length = 8)
    (y : Byte) : (interpolate X vs y).length = 8 := by
  rw [interpolate_eq hlen hvs, List.length_map, List.length_range]

section Interpolation

variable {X : List Byte} (hX : X.Nodup) {vs : List Device} (hlen : vs.length = X.length) (hvs : ∀ v ∈ vs, v.length = 8)
include hX hlen hvs

/-- At a node, interpolation gives the device of that node. -/
theorem interpolate_node {t : Nat} (ht : t < X.length) : interpolate X vs (X.getD t 0) = vs.getD t [] := by
  have hdev : (vs.getD t []).length = 8 := length_getD hvs (hlen.symm ▸ ht)
  rw [interpolate_eq hlen hvs, device_eq_map_range hdev]
  exact List.map_congr_left fun p _ => interpolateByte_node hX ht _

/-- Devices that are interpolated from as many devices at other nodes interpolate to the same devices (42 R216, R220). -/
theorem interpolate_interpolate {Y : List Byte} (hY : Y.Nodup) (hYX : Y.length = X.length) (y : Byte) :
    interpolate Y (Y.map (interpolate X vs)) y = interpolate X vs y := by
  rw [interpolate_eq (by simp) (by simp [interpolate_length hlen hvs]), interpolate_eq hlen hvs]
  refine List.map_congr_left fun p hp => ?_
  rw [← interpolateByte_interpolateByte hX hY hYX]
  refine congrArg xorBytes (List.map_congr_left fun t ht => ?_)
  have ht := List.mem_range.1 ht
  have hp := List.mem_range.1 hp
  simp [interpolate_eq hlen hvs, ht, hp]

end Interpolation

/-! ## The group decoder on any records (42 R219, R220) -/

/-- A record is an erasure where its first byte is not the parity byte of its device (42 R219). -/
theorem isErasure_iff (r : List Byte) : isErasure r = true ↔ r.headD 0 ≠ bitByte (fold r.tail) := bne_iff_ne

section Decode

variable {m kb : Nat} {records : List (List Byte)}

/-- The device with coding-order index `e` that group decode returns where it does not fail. -/
def decodedDevice (m kb : Nat) (records : List (List Byte)) (e : Nat) : Device :=
  if isErasure (codingRecord m kb records e) then
    interpolate ((survivors m kb records).map node) ((survivors m kb records).map fun t => (codingRecord m kb records t).tail)
      (node e)
  else (codingRecord m kb records e).tail

section Length

variable (hlen : records.length = m + kb)
include hlen

/-- Coding order puts the data devices first. -/
theorem map_codingRecord : (List.range (kb + m)).map (codingRecord m kb records) = records.drop m ++ records.take m := by
  have hdata : (List.range kb).map (codingRecord m kb records) = records.drop m :=
    List.ext_getElem (by simp [hlen]) fun e he _ => by
      simp at he
      simp [codingRecord, he, hlen]
  have hcode : (List.range m).map (fun i => codingRecord m kb records (kb + i)) = records.take m :=
    List.ext_getElem (by simp [hlen]) fun i hi _ => by
      simp at hi
      simp [codingRecord, hlen, Nat.lt_add_right kb hi]
  rw [List.range_add, List.map_append, List.map_map, hdata, ← hcode]
  rfl

/-- As many records are erasures in coding order as in stream order. -/
theorem count_erasures :
    ((List.range (kb + m)).filter fun e => isErasure (codingRecord m kb records e)).length
      = (records.filter isErasure).length := by
  have hmap : ((List.range (kb + m)).filter fun e => isErasure (codingRecord m kb records e)).length
      = (((List.range (kb + m)).map (codingRecord m kb records)).filter isErasure).length := by
    rw [List.filter_map, List.length_map]
    rfl
  have hperm : (records.drop m ++ records.take m).Perm records := by
    simpa using List.perm_append_comm (l₁ := records.drop m) (l₂ := records.take m)
  rw [hmap, map_codingRecord hlen, (hperm.filter isErasure).length_eq]

theorem getD_coded {e : Nat} (he : e < kb + m) :
    (records.drop m ++ records.take m).getD e [] = codingRecord m kb records e := by
  rw [← map_codingRecord hlen]
  simp [he]

/-- Group decode, in the terms of the obligations. -/
theorem groupDecode_eq : groupDecode m kb records =
    if m < (records.filter isErasure).length then none else some ((List.range kb).map (decodedDevice m kb records)) := by
  have hfilter (p : List Byte → Bool) : (List.range (kb + m)).filter (fun e => p ((records.drop m ++ records.take m).getD e []))
      = (List.range (kb + m)).filter fun e => p (codingRecord m kb records e) :=
    List.filter_congr fun e he => by rw [getD_coded hlen (List.mem_range.1 he)]
  have hsurv : ((List.range (kb + m)).filter fun e =>
      !isErasure ((records.drop m ++ records.take m).getD e [])).take kb = survivors m kb records :=
    congrArg (List.take kb) (hfilter fun r => !isErasure r)
  simp only [groupDecode, hfilter isErasure, count_erasures hlen, hsurv]
  congr 2
  refine List.map_congr_left fun e he => ?_
  have he := List.mem_range.1 he
  have hdev : (survivors m kb records).map (fun t => ((records.drop m ++ records.take m).getD t []).tail)
      = (survivors m kb records).map fun t => (codingRecord m kb records t).tail :=
    List.map_congr_left fun t ht => by
      rw [getD_coded hlen (List.mem_range.1 (List.mem_of_mem_filter (List.mem_of_mem_take ht)))]
  rw [getD_coded hlen (by omega), hdev]
  rfl

theorem groupDecode_eq_none_iff : groupDecode m kb records = none ↔ m < (records.filter isErasure).length := by
  rw [groupDecode_eq hlen]
  split <;> simp [*]

/-- Where at most `m` records are erasures, `kb` of the others are chosen. -/
theorem survivors_length (h : (records.filter isErasure).length ≤ m) : (survivors m kb records).length = kb := by
  have hall := List.length_eq_length_filter_add (l := List.range (kb + m)) fun e => isErasure (codingRecord m kb records e)
  rw [count_erasures hlen, List.length_range] at hall
  rw [survivors, List.length_take]
  omega

end Length

theorem mem_survivors {e : Nat} (he : e ∈ survivors m kb records) :
    e < kb + m ∧ isErasure (codingRecord m kb records e) = false := by
  simpa using List.mem_filter.1 (List.mem_of_mem_take he)

theorem survivors_nodup : (survivors m kb records).Nodup :=
  (List.nodup_range.filter _).sublist (List.take_sublist ..)

theorem codingRecord_data {e : Nat} (he : e < kb) : codingRecord m kb records e = records.getD (m + e) [] := by
  rw [codingRecord, if_pos he]

theorem codingRecord_mem (hlen : records.length = m + kb) {e : Nat} (he : e < kb + m) :
    codingRecord m kb records e ∈ records := by
  have hmem := List.mem_map_of_mem (f := codingRecord m kb records) (List.mem_range.2 he)
  rw [map_codingRecord hlen] at hmem
  exact (List.mem_append.1 hmem).elim List.mem_of_mem_drop List.mem_of_mem_take

/-- The survivors of a group of records of 9 bytes are devices of 8 bytes. -/
theorem survivors_device_length (hlen : records.length = m + kb) (hrec : ∀ r ∈ records, r.length = 9) :
    ∀ d ∈ (survivors m kb records).map fun t => (codingRecord m kb records t).tail, d.length = 8 := by
  intro d hd
  obtain ⟨t, ht, rfl⟩ := List.mem_map.1 hd
  rw [List.length_tail, hrec _ (codingRecord_mem hlen (mem_survivors ht).1)]

/-- Group decode of records of 9 bytes returns `kb` devices of 8 bytes. -/
theorem length_of_groupDecode (hlen : records.length = m + kb) (hrec : ∀ r ∈ records, r.length = 9) {v : List Device}
    (hv : groupDecode m kb records = some v) : v.length = kb ∧ ∀ d ∈ v, d.length = 8 := by
  rw [groupDecode_eq hlen] at hv
  split at hv <;> cases hv
  refine ⟨by simp, fun d hd => ?_⟩
  obtain ⟨e, he, rfl⟩ := List.mem_map.1 hd
  have he : e < kb + m := Nat.lt_add_right m (List.mem_range.1 he)
  rw [decodedDevice]
  split
  · exact interpolate_length (by simp) (survivors_device_length hlen hrec) _
  · rw [List.length_tail, hrec _ (codingRecord_mem hlen he)]

end Decode

/-- Settles O38. -/
theorem groupDecodeFailsOnlyAboveM : Obligations.GroupDecodeFailsOnlyAboveM := by
  refine ⟨isErasure_iff, fun m kb records hlen => ⟨groupDecode_eq_none_iff hlen, fun v hv => ?_, fun hrec v hv => ?_⟩⟩ <;>
    rw [groupDecode_eq hlen] at hv <;> split at hv <;> cases hv
  · refine ⟨by simp, fun j hj hok => ?_⟩
    rw [← codingRecord_data hj] at hok ⊢
    simp [hj, decodedDevice, hok]
  · intro surv
    have hsurv : surv.length = kb := survivors_length hlen (Nat.not_lt.1 ‹_›)
    refine ⟨hsurv, fun e he herased => ?_⟩
    rw [← codingRecord_data he] at herased
    have hdecoded : ((List.range kb).map (decodedDevice m kb records)).getD e [] = decodedDevice m kb records e := by simp [he]
    rw [hdecoded, decodedDevice, if_pos herased, interpolate, combine_eq _ (survivors_device_length hlen hrec), List.length_map,
      hsurv]
    refine List.map_congr_left fun p _ => congrArg xorBytes (List.map_congr_left fun t ht => ?_)
    have ht : t < surv.length := hsurv.symm ▸ List.mem_range.1 ht
    have hdev : (surv.map fun u => (codingRecord m kb records u).tail).getD t []
        = (codingRecord m kb records (surv.getD t 0)).tail := by simp [ht]
    rw [hdev]
    rfl

/-! ## Erasures rebuilt (42 R235) -/

/-- The device with coding-order index `e` of a group with the data devices `v`: the polynomials through the data devices at the
nodes 0, 1, ... give the code devices at the nodes after them (42 R215, R218). -/
def codedDevice (v : List Device) (e : Nat) : Device := interpolate ((List.range v.length).map node) v (node e)

section Rebuild

variable {m : Nat} {v : List Device} (hv : v.length + m ≤ 256) (hdev : ∀ d ∈ v, d.length = 8)
include hv hdev

theorem codedDevice_data {e : Nat} (he : e < v.length) : codedDevice v e = v.getD e [] := by
  have hnode : ((List.range v.length).map node).getD e 0 = node e := by simp [he]
  rw [codedDevice, ← hnode]
  exact interpolate_node (nodup_range_node (by omega)) (by simp) hdev (by simpa using he)

omit hv hdev in
theorem groupRecords_code {i : Nat} (hi : i < m) : (groupRecords m v).getD i [] = deviceRecord (codeDevice v i) := by
  rw [groupRecords, List.getD_append _ _ _ _ (by simpa using hi)]
  simp [hi]

omit hv hdev in
theorem groupRecords_data {j : Nat} (hj : j < v.length) : (groupRecords m v).getD (m + j) [] = deviceRecord (v.getD j []) := by
  rw [groupRecords, List.getD_append_right _ _ _ _ (by simp)]
  simp [hj]

/-- In coding order a group as encoded is the records of its coded devices. -/
theorem codingRecord_groupRecords {e : Nat} (he : e < v.length + m) :
    codingRecord m v.length (groupRecords m v) e = deviceRecord (codedDevice v e) := by
  rcases Nat.lt_or_ge e v.length with hdata | hcode
  · rw [codedDevice_data hv hdev hdata, codingRecord_data hdata, groupRecords_data hdata]
  · obtain ⟨i, rfl⟩ := Nat.exists_eq_add_of_le hcode
    rw [codingRecord, if_neg (Nat.not_lt.2 hcode), Nat.add_sub_cancel_left, groupRecords_code (by omega)]
    rfl

end Rebuild

/-- Settles O39: every survivor is a value of the polynomials of degree below `kb` through the data devices, and `kb` survivors
determine them. -/
theorem upToMErasuresAreRebuilt : Obligations.UpToMErasuresAreRebuilt := by
  intro m v records hm hpos hcount hdev hlen hrec herasures
  have hintact {e : Nat} (he : e < v.length + m) (hok : isErasure (codingRecord m v.length records e) = false) :
      (codingRecord m v.length records e).tail = codedDevice v e := by
    rcases hrec (if e < v.length then m + e else e - v.length) (by split <;> omega) with hsame | herased
    · have : codingRecord m v.length records e = codingRecord m v.length (groupRecords m v) e := hsame
      rw [this, codingRecord_groupRecords hcount hdev he]
      rfl
    · exact absurd herased (Bool.eq_false_iff.1 hok)
  have hsurv := survivors_length hlen herasures
  have hdecoded {e : Nat} (he : e < v.length) : decodedDevice m v.length records e = v.getD e [] := by
    rw [← codedDevice_data hcount hdev he, decodedDevice]
    split
    · have hmap : (survivors m v.length records).map (fun t => (codingRecord m v.length records t).tail)
          = ((survivors m v.length records).map node).map (interpolate ((List.range v.length).map node) v) := by
        rw [List.map_map]
        exact List.map_congr_left fun t ht => hintact (mem_survivors ht).1 (mem_survivors ht).2
      have hnodes : ((survivors m v.length records).map node).Nodup :=
        nodup_map_node survivors_nodup fun t ht => (mem_survivors ht).1.trans_le hcount
      rw [hmap]
      exact interpolate_interpolate (nodup_range_node (by omega)) (by simp) hdev hnodes (by simp [hsurv]) _
    · exact hintact (by omega) (Bool.eq_false_iff.2 ‹_›)
  rw [groupDecode_eq hlen, if_neg (Nat.not_lt.2 herasures)]
  exact congrArg some (List.ext_getElem (by simp) fun e _ he => by simp [hdecoded he, he])

end Sys2Proof.Machine
end

section
/-! PROOFS. The job of ENC.RS: its checks, the groups of its stream in order, and the raise of the first failing check (O41)
(42_reed_solomon R221 to R225). -/

namespace Sys2Proof.Machine

/-! ## The checks (42 R225) -/

/-- The checks of ENC.RS that precede its output size. -/
def rsEncChecks (s : State) : List (Bool × Raise) :=
  [ checkInit s,
    (!legalDevices (rsEncLayout s).k (rsEncLayout s).m, ⟨.invalidParameter, devicesInfo (rsEncLayout s).k (rsEncLayout s).m⟩),
    (!legalThreads (rsEncLayout s).T, ⟨.invalidParameter, s.flight.ops.nt⟩),
    (decide (fieldSpace ≤ (rsEncLayout s).B), ⟨.invalidParameter, BitVec.ofNat 64 (rsEncLayout s).B⟩),
    checkSource s ]

/-- The job of ENC.RS. -/
def rsEncJob (s : State) : Job where
  need   := rsStreamSize (rsEncLayout s)
  header := rsHeader (rsEncLayout s)
  count  := (rsEncLayout s).B
  item   := rsEncItem s (rsEncLayout s)

theorem streamPlan_encRs (s : State) :
    streamPlan .encRs s = some (plan (rsEncChecks s) (windowChecks s (rsEncJob s).need) (rsEncJob s)) := rfl

/-- The device counts that the engine takes (42 R221). -/
theorem legalDevices_eq (k m : Nat) : legalDevices k m = decide (1 ≤ k ∧ 1 ≤ m ∧ k + m ≤ 256) := by
  simp only [legalDevices, Bool.decide_and, Bool.and_assoc]

/-- The `info` of bad device counts: `k` in the upper half, `m` in the lower one (60 R272). -/
theorem devicesInfo_eq (k m : Nat) : devicesInfo k m = BitVec.ofNat 64 (k % 2 ^ 32 * 2 ^ 32 + m % 2 ^ 32) := by
  have hk : k % 2 ^ 32 < 2 ^ 32 := Nat.mod_lt _ (Nat.two_pow_pos _)
  have hm : m % 2 ^ 32 < 2 ^ 32 := Nat.mod_lt _ (Nat.two_pow_pos _)
  apply BitVec.eq_of_toNat_eq
  simp only [devicesInfo, show fieldSpace = 2 ^ 32 from rfl, BitVec.toNat_or, BitVec.toNat_shiftLeft, BitVec.toNat_ofNat,
    Nat.shiftLeft_eq]
  simp (disch := omega) only [Nat.mod_eq_of_lt (b := 2 ^ 64)]
  rw [Nat.mul_comm, Nat.two_pow_add_eq_or_of_lt hm]

/-- The checks of 42 R225 before the windows, in their order. -/
theorem firstRaise_rsEncChecks (s : State) :
    firstRaise (rsEncChecks s) =
      if s.init = false then some ⟨.notInitialized, 0⟩
      else if ¬(1 ≤ (rsEncLayout s).k ∧ 1 ≤ (rsEncLayout s).m ∧ (rsEncLayout s).k + (rsEncLayout s).m ≤ 256) then
        some ⟨.invalidParameter, devicesInfo (rsEncLayout s).k (rsEncLayout s).m⟩
      else if ¬(1 ≤ (rsEncLayout s).T ∧ (rsEncLayout s).T < fieldSpace) then some ⟨.invalidParameter, s.flight.ops.nt⟩
      else if fieldSpace ≤ (rsEncLayout s).B then some ⟨.invalidParameter, BitVec.ofNat 64 (rsEncLayout s).B⟩
      else if ¬SourceGood s then some ⟨.busFault, 0⟩
      else none := by
  simp only [rsEncChecks, checkInit, checkSource_eq, legalDevices_eq, legalThreads, firstRaise_cons, firstRaise_nil,
    ← Bool.decide_and, Bool.not_eq_true', decide_eq_true_eq, decide_eq_false_iff_not]

/-- Settles O41: the first failing check of the list of R225, then of the windows. -/
theorem encRsRaisesTheFirstFailure : Obligations.EncRsRaisesTheFirstFailure := by
  intro s hs hu n k m T W B need legal
  have hp := streamPlan_encRs s
  have hearly (r : Raise) (hr : firstRaise (rsEncChecks s) = some r) : RaisesEarly .encRs s r.cause.bit r.info :=
    raisesEarly_of_plan hs hu hp hr
  have hraise := firstRaise_rsEncChecks s
  refine ⟨fun hinit => ?_, fun hinit hl => ?_, fun hinit hl hT => ?_, fun hinit hl hT hT' => ?_⟩
  · exact hearly ⟨.notInitialized, 0⟩ (hraise.trans (if_pos hinit))
  all_goals replace hraise := hraise.trans (if_neg (by simp [hinit]))
  · rw [← devicesInfo_eq]
    exact hearly ⟨.invalidParameter, _⟩ (hraise.trans (if_pos hl))
  all_goals replace hraise := hraise.trans (if_neg (not_not.2 hl))
  · exact hearly ⟨.invalidParameter, _⟩ (hraise.trans (if_pos hT))
  replace hraise := hraise.trans (if_neg (not_not.2 ⟨hT, hT'⟩))
  refine ⟨fun hB => hearly ⟨.invalidParameter, _⟩ (hraise.trans (if_pos hB)), fun hB => ?_⟩
  replace hraise := hraise.trans (if_neg (Nat.not_le.2 hB))
  refine ⟨fun hsource => hearly ⟨.busFault, 0⟩ (hraise.trans (if_pos hsource)), fun hsource => ?_, fun hsource => ?_,
    fun hsource => ?_⟩ <;>
    obtain ⟨hcap, hdst, hoverlap⟩ := windowRaises hs hu hp (hraise.trans (if_neg (not_not.2 hsource)))
  exacts [hcap, hdst, hoverlap]

/-! ## Groups in order (42 R223) -/

/-- The data devices of a group come before those of each later one. -/
theorem group_data_ordered {l : RsLayout} (hl : l.Consistent) {p q : Nat} (hpq : p < q) (hq : q < l.B) :
    p * l.k + groupSize l p ≤ q * l.k := by
  rcases group_cases hl (hpq.trans hq) with ⟨hlast, -⟩ | ⟨-, hg, -⟩
  · omega
  · rw [hg]
    exact block_end_le hpq l.k

/-- The records of a group come before those of each later one. -/
theorem group_records_ordered {l : RsLayout} (hl : l.Consistent) {p q : Nat} (hpq : p < q) (hq : q < l.B) :
    groupOffset l p + 9 * (l.m + groupSize l p) ≤ groupOffset l q := by
  have hm := block_end_le hpq l.m
  have hk := group_data_ordered hl hpq hq
  simp only [groupOffset, Nat.mul_assoc, Nat.mul_add]
  omega

theorem codeDevice_length {v : List Device} (hv : ∀ d ∈ v, d.length = 8) (i : Nat) : (codeDevice v i).length = 8 := by
  rw [codeDevice, combine_eq _ hv, List.length_map, List.length_range]

@[simp] theorem groupRecords_length (m : Nat) (v : List Device) : (groupRecords m v).length = m + v.length := by
  simp [groupRecords]

/-- Every record of a group of devices of 8 bytes has 9 bytes (42 R219). -/
theorem groupRecords_record_length {m : Nat} {v : List Device} (hv : ∀ d ∈ v, d.length = 8) :
    ∀ r ∈ groupRecords m v, r.length = 9 := by
  intro r hr
  simp only [groupRecords, List.mem_append, List.mem_map] at hr
  rcases hr with ⟨i, -, rfl⟩ | ⟨d, hd, rfl⟩
  · exact congrArg Nat.succ (codeDevice_length hv i)
  · exact congrArg Nat.succ (hv d hd)

/-- The data devices of group `b` (42 R223). -/
def groupData (s : State) (l : RsLayout) (b : Nat) : List Device :=
  (List.range (groupSize l b)).map fun j => dataWord s l (b * l.k + j)

@[simp] theorem groupData_length (s : State) (l : RsLayout) (b : Nat) : (groupData s l b).length = groupSize l b := by
  simp [groupData]

theorem groupData_device_length (s : State) {l : RsLayout} (hl : l.Consistent) (b : Nat) :
    ∀ d ∈ groupData s l b, d.length = 8 := by
  intro d hd
  obtain ⟨j, -, rfl⟩ := List.mem_map.1 hd
  exact dataWord_length hl.partialWord _

/-- Pieces of equal length, one after the other. -/
theorem length_flatten_of_forall {L : List (List Byte)} {c : Nat} (hL : ∀ u ∈ L, u.length = c) :
    L.flatten.length = c * L.length := by
  rw [List.length_flatten, List.map_congr_left hL, List.map_const', List.sum_replicate, smul_eq_mul, Nat.mul_comm]

theorem rsEncItem_eq (s : State) (l : RsLayout) (b : Nat) :
    rsEncItem s l b = ⟨none, dstAddr s + groupOffset l b, (groupRecords l.m (groupData s l b)).flatten⟩ := rfl

theorem rsEncItem_out_length (s : State) {l : RsLayout} (hl : l.Consistent) (b : Nat) :
    (rsEncItem s l b).out.length = 9 * (l.m + groupSize l b) := by
  rw [rsEncItem_eq, length_flatten_of_forall (groupRecords_record_length (groupData_device_length s hl b)), groupRecords_length,
    groupData_length]

/-! ## The run -/

/-- ENC.RS passes all checks of 42 R225. -/
structure RsEncodes (s : State) : Prop where
  init    : s.init = true
  devices : 1 ≤ (rsEncLayout s).k ∧ 1 ≤ (rsEncLayout s).m ∧ (rsEncLayout s).k + (rsEncLayout s).m ≤ 256
  threads : 1 ≤ (rsEncLayout s).T ∧ (rsEncLayout s).T < fieldSpace
  count   : (rsEncLayout s).B < fieldSpace
  windows : WindowsGood s (rsStreamSize (rsEncLayout s))

theorem firstRaise_encRs_eq_none {s : State} :
    firstRaise (rsEncChecks s) = none ∧ firstRaise (windowChecks s (rsEncJob s).need) = none ↔ RsEncodes s := by
  rw [firstRaise_windowChecks_eq_none, firstRaise_rsEncChecks]
  constructor
  · rintro ⟨h, hdst⟩
    split_ifs at h with hinit hdevices hthreads hcount hsource
    exact ⟨by simpa using hinit, hdevices, hthreads, Nat.not_le.1 hcount, hsource, hdst⟩
  · rintro ⟨hinit, hdevices, hthreads, hcount, hsource, hdst⟩
    refine ⟨?_, hdst⟩
    rw [if_neg (by simp [hinit]), if_neg (not_not.2 hdevices), if_neg (not_not.2 hthreads), if_neg (Nat.not_le.2 hcount),
      if_neg (not_not.2 hsource)]

/-- Memory after ENC.RS. -/
def rsEncMemory (s : State) : Memory := (rsEncJob s).memory (dstAddr s) s.mem

namespace RsEncodes

variable {s : State} (h : RsEncodes s)
include h

theorem consistent : (rsEncLayout s).Consistent := rsEncLayout_consistent h.devices.1

theorem streamSize_lt : rsStreamSize (rsEncLayout s) < 2 ^ 64 := by
  obtain ⟨-, hcap, -⟩ := h.windows
  exact hcap.trans_lt s.flight.ops.cap.isLt

theorem inOrder : (rsEncJob s).InOrder (dstAddr s) where
  header := Nat.le_add_right 25 _
  item b hb := by
    have hinside := rsEncItem_inside (s := s) h.consistent hb
    simp only [rsEncJob, rsEncItem_eq] at hinside ⊢
    omega
  count := h.count.le.trans (by decide)
  noted _ _ _ hd := nomatch hd
  afterHeader b _ := Nat.add_le_add_left (Nat.le_add_right 25 _) _
  ordered p q hpq hq := by
    have hgroups := group_records_ordered h.consistent hpq hq
    have hout := rsEncItem_out_length s h.consistent p
    simp only [rsEncJob, rsEncItem_eq] at hout ⊢
    omega

theorem exec (hs : Accepted s) (hu : Undisturbed s) :
    exec .encRs s = .next (succeeded { s with
      mem := rsEncMemory s, olen := BitVec.ofNat 64 (rsStreamSize (rsEncLayout s)) }) := by
  obtain ⟨hchecks, hwindows⟩ := firstRaise_encRs_eq_none.2 h
  rw [exec_of_plan hu (streamPlan_encRs s) hchecks hwindows]
  exact congrArg _ (runJob_silent hs h.inOrder fun _ _ => rfl)

end RsEncodes

end Sys2Proof.Machine
end

section
/-! PROOFS. The stream that ENC.RS leaves: the header, and record by record every group (O36) (42_reed_solomon R225). -/

namespace Sys2Proof.Machine

/-! ## Pieces of equal length in memory -/

/-- Of pieces of `c` bytes one after the other, the first `n` bytes: what is left of each piece stands in its place. -/
theorem holdsAt_of_flatten_take {m : Memory} {c : Nat} {L : List (List Byte)} (hL : ∀ u ∈ L, u.length = c) {a n : Nat}
    (h : HoldsAt m a (L.flatten.take n)) {r : Nat} (hr : r < L.length) :
    HoldsAt m (a + c * r) ((L.getD r []).take (n - c * r)) := by
  induction L generalizing a n r with
  | nil => cases hr
  | cons u L ih =>
    rw [List.forall_mem_cons] at hL
    obtain ⟨hu, hL⟩ := hL
    rw [List.flatten_cons, List.take_append, holdsAt_append, hu] at h
    obtain ⟨hhead, htail⟩ := h
    cases r with
    | zero => exact hhead
    | succ r =>
      rcases Nat.lt_or_ge n c with hlt | hge
      · have hnone : n - c * (r + 1) = 0 := by rw [Nat.mul_succ]; omega
        rw [hnone]
        nofun
      · rw [List.length_take, hu, Nat.min_eq_right hge] at htail
        have := ih hL htail (Nat.lt_of_succ_lt_succ hr)
        rwa [Nat.sub_sub, Nat.add_assoc, Nat.add_comm c, ← Nat.mul_succ] at this

/-- Pieces of `c` bytes one after the other: each stands in its place. -/
theorem holdsAt_of_flatten {m : Memory} {a c : Nat} {L : List (List Byte)} (hL : ∀ u ∈ L, u.length = c)
    (h : HoldsAt m a L.flatten) {r : Nat} (hr : r < L.length) : HoldsAt m (a + c * r) (L.getD r []) := by
  have hpiece := length_getD hL hr
  have hfit : c * r + c ≤ c * L.length := Nat.mul_le_mul_left c hr
  rw [← List.take_length (l := L.flatten), length_flatten_of_forall hL] at h
  have := holdsAt_of_flatten_take hL h hr
  rwa [List.take_of_length_le (by omega)] at this

/-! ## The records of a group -/

theorem groupData_getD (s : State) (l : RsLayout) {b j : Nat} (hj : j < groupSize l b) :
    (groupData s l b).getD j [] = dataWord s l (b * l.k + j) := by
  simp [groupData, hj]

/-- A code device is the coding-matrix combination of the data devices, byte position by byte position (42 R218). -/
theorem codeDevice_groupData (s : State) {l : RsLayout} (hl : l.Consistent) (b i : Nat) :
    codeDevice (groupData s l b) i = (List.range 8).map fun t => xorBytes ((List.range (groupSize l b)).map fun j =>
      gmul (codingCoeff (groupSize l b) i j) ((dataWord s l (b * l.k + j)).getD t 0)) := by
  rw [codeDevice, combine_eq _ (groupData_device_length s hl b), groupData_length]
  refine List.map_congr_left fun t _ => congrArg xorBytes (List.map_congr_left fun j hj => ?_)
  rw [groupData_getD s l (List.mem_range.1 hj)]

namespace RsEncodes

variable {s : State} (h : RsEncodes s)
include h

theorem sameOutside : SameOutside s.mem (rsEncMemory s) (dstAddr s) (rsStreamSize (rsEncLayout s)) :=
  h.inOrder.sameOutside s.mem

theorem holds_header : HoldsAt (rsEncMemory s) (dstAddr s) (rsHeader (rsEncLayout s)) := h.inOrder.holds_header s.mem

/-- Each record of a group stands in its place in the stream (42 R223). -/
theorem holds_record {b r : Nat} (hb : b < (rsEncLayout s).B) (hr : r < (rsEncLayout s).m + groupSize (rsEncLayout s) b) :
    HoldsAt (rsEncMemory s) (dstAddr s + groupOffset (rsEncLayout s) b + 9 * r)
      ((groupRecords (rsEncLayout s).m (groupData s (rsEncLayout s) b)).getD r []) :=
  holdsAt_of_flatten (groupRecords_record_length (groupData_device_length s h.consistent b)) (h.inOrder.holds_item s.mem b hb)
    (by simpa using hr)

end RsEncodes

/-- Settles O36. -/
theorem encRsWritesTheStream : Obligations.EncRsWritesTheStream := by
  intro s hs hu hinit n k m T W B rdd rl need hk hm hkm hT hT' hB hw kb word code at_
  have h : RsEncodes s := ⟨hinit, ⟨hk, hm, hkm⟩, ⟨hT, hT'⟩, hB, hw⟩
  have hat (b : Nat) : dstAddr s + groupOffset (rsEncLayout s) b = at_ b := (Nat.add_assoc ..).symm
  refine ⟨rsEncMemory s, h.exec hs hu, h.sameOutside, h.holds_header, fun b hb => ⟨fun i hi => ?_, fun j hj => ?_⟩⟩
  · replace hi : i < (rsEncLayout s).m := hi
    have := h.holds_record hb (Nat.lt_add_right (groupSize (rsEncLayout s) b) hi)
    rwa [hat, groupRecords_code hi, codeDevice_groupData s h.consistent] at this
  · have := h.holds_record hb (Nat.add_lt_add_left hj _)
    rwa [hat, groupRecords_data (by rwa [groupData_length]), groupData_getD s _ hj] at this

end Sys2Proof.Machine
end

section
/-! PROOFS. The Reed-Solomon decodes, by DEC.RS and by DEC.AUTO: the raise of the first failing check (O42), and the data devices
of every group or the first group with too many erasures (O37) (42_reed_solomon R230 to R234; 43 R254). -/

namespace Sys2Proof.Machine

/-! ## The checks (42 R230) -/

/-- The checks of DEC.RS that precede its output size. -/
def rsDecChecks (s : State) : List (Bool × Raise) :=
  decodeChecks s ++ [checkTag s 4] ++ rsHeaderChecks s (rsDecLayout s)

/-- The job of a Reed-Solomon decode. -/
def rsDecJob (s : State) : Job where
  need   := (rsDecLayout s).n
  header := []
  count  := (rsDecLayout s).B
  item   := rsDecItem s (rsDecLayout s)

theorem streamPlan_decRs (s : State) :
    streamPlan .decRs s = some (plan (rsDecChecks s) (windowChecks s (rsDecJob s).need) (rsDecJob s)) := rfl

/-- DEC.AUTO on a Reed-Solomon stream goes on as DEC.RS (43 R254). -/
theorem streamPlan_decAuto_rs {s : State} (hd : firstRaise (decodeChecks s) = none) (htag : tagByte s = 4) :
    streamPlan .decAuto s
      = some (plan (rsHeaderChecks s (rsDecLayout s)) (windowChecks s (rsDecJob s).need) (rsDecJob s)) := by
  simp only [streamPlan, autoPlan, hd, htag]
  rfl

/-- The shape that 42 R230 (8) asks of a header: short parts shorter than whole ones, and no part of an empty stream. -/
abbrev RsLayout.HeaderFits (l : RsLayout) : Prop := l.rdd < l.k ∧ l.rl < 8 ∧ (0 < l.rdd ∨ 0 < l.rl → l.B ≠ 0)

theorem RsLayout.headerFits_iff (l : RsLayout) :
    ¬l.HeaderFits ↔ (l.k ≤ l.rdd ∨ 8 ≤ l.rl) ∨ l.B = 0 ∧ (0 < l.rdd ∨ 0 < l.rl) := by
  unfold RsLayout.HeaderFits
  omega

/-- The steps (5) to (10) of 42 R230. -/
theorem firstRaise_rsHeaderChecks (s : State) (l : RsLayout) :
    firstRaise (rsHeaderChecks s l) =
      if srcLen s < 25 then some ⟨.malformedStream, 3⟩
      else if ¬(1 ≤ l.k ∧ 1 ≤ l.m ∧ l.k + l.m ≤ 256) then some ⟨.invalidParameter, devicesInfo l.k l.m⟩
      else if l.T = 0 then some ⟨.invalidParameter, 0⟩
      else if ¬l.HeaderFits then some ⟨.malformedStream, 4⟩
      else if rsStreamSize l ≠ srcLen s then some ⟨.malformedStream, 5⟩
      else none := by
  simp only [rsHeaderChecks, malformed, legalDevices_eq, firstRaise_cons, firstRaise_nil, Bool.not_eq_true', decide_eq_true_eq,
    decide_eq_false_iff_not, beq_iff_eq, Bool.or_eq_true, Bool.and_eq_true, bne_iff_ne, RsLayout.headerFits_iff]

/-- The checks of DEC.RS, in their order. -/
theorem firstRaise_rsDecChecks (s : State) :
    firstRaise (rsDecChecks s) =
      if s.init = false then some ⟨.notInitialized, 0⟩
      else if ¬SourceGood s then some ⟨.busFault, 0⟩
      else if srcLen s = 0 then some ⟨.malformedStream, 1⟩
      else if tagByte s ≠ 4 then some ⟨.malformedStream, 2⟩
      else firstRaise (rsHeaderChecks s (rsDecLayout s)) := by
  simp only [rsDecChecks, firstRaise_append, firstRaise_decodeChecks, checkTag, malformed, firstRaise_cons, firstRaise_nil,
    bne_iff_ne]
  split_ifs <;> rfl

/-- The device counts of a header in the `info` of their raise: a header field fits the half of the word it gets. -/
theorem devicesInfo_header (s : State) : devicesInfo (rsDecLayout s).k (rsDecLayout s).m
    = BitVec.ofNat 64 (headerField s 1 * 2 ^ 32 + headerField s 5) := by
  rw [devicesInfo_eq]
  exact congrArg₂ (fun k m => BitVec.ofNat 64 (k * 2 ^ 32 + m)) (Nat.mod_eq_of_lt (headerField_lt s 1))
    (Nat.mod_eq_of_lt (headerField_lt s 5))

/-- Settles O42: the first failing check of the list of R230, then of the windows. -/
theorem decRsRaisesTheFirstFailure : Obligations.DecRsRaisesTheFirstFailure := by
  intro s hs hu len k m B rdd rl W n legal consistent i
  have hp := streamPlan_decRs s
  have hearly (r : Raise) (hr : firstRaise (rsDecChecks s) = some r) : RaisesEarly i s r.cause.bit r.info :=
    raisesEarly_of_plan hs hu hp hr
  have hraise := firstRaise_rsDecChecks s
  refine ⟨fun hinit => hearly ⟨.notInitialized, 0⟩ (hraise.trans (if_pos hinit)), fun hinit hsource => ?_,
    fun hinit hsource => ?_⟩
  all_goals replace hraise := hraise.trans (if_neg (by simp [hinit]))
  · exact hearly ⟨.busFault, 0⟩ (hraise.trans (if_pos hsource))
  replace hraise := hraise.trans (if_neg (not_not.2 hsource))
  refine ⟨fun hlen => hearly ⟨.malformedStream, 1⟩ (hraise.trans (if_pos (Nat.lt_one_iff.1 hlen))), fun hlen htag => ?_,
    fun hlen htag hshort => ?_, fun htag hlen => ?_⟩
  all_goals replace hraise := hraise.trans (if_neg (show ¬len = 0 by omega))
  · exact hearly ⟨.malformedStream, 2⟩ (hraise.trans (if_pos htag))
  all_goals replace hraise := (hraise.trans (if_neg (not_not.2 htag))).trans (firstRaise_rsHeaderChecks s (rsDecLayout s))
  · exact hearly ⟨.malformedStream, 3⟩ (hraise.trans (if_pos hshort))
  replace hraise := hraise.trans (if_neg (Nat.not_lt.2 hlen))
  refine ⟨fun hl => ?_, fun hl hT => ?_, fun hl hT hfits => ?_, fun hl hT hfits => ?_⟩
  · rw [← devicesInfo_header]
    exact hearly ⟨.invalidParameter, _⟩ (hraise.trans (if_pos hl))
  all_goals replace hraise := hraise.trans (if_neg (not_not.2 hl))
  · exact hearly ⟨.invalidParameter, 0⟩ (hraise.trans (if_pos hT))
  all_goals replace hraise := hraise.trans (if_neg hT)
  · exact hearly ⟨.malformedStream, 4⟩ (hraise.trans (if_pos hfits))
  replace hraise := hraise.trans (if_neg (not_not.2 hfits))
  refine ⟨fun hne => hearly ⟨.malformedStream, 5⟩ (hraise.trans (if_pos hne)), fun heq => ?_, fun heq => ?_,
    fun heq => ?_⟩ <;>
    obtain ⟨hcap, hdst, hoverlap⟩ := windowRaises hs hu hp (hraise.trans (if_neg (not_not.2 heq)))
  exacts [hcap, hdst, hoverlap]

/-! ## The groups decoded (42 R231, R232) -/

/-- The valid bytes of data word `i`: fewer in a partial last word (42 R223). -/
def wordLength (l : RsLayout) (i : Nat) : Nat := if 0 < l.rl ∧ i + 1 = l.W then l.rl else 8

theorem groupRecordsAt_record_length (s : State) (l : RsLayout) (b : Nat) : ∀ r ∈ groupRecordsAt s l b, r.length = 9 := by
  intro r hr
  obtain ⟨i, -, rfl⟩ := List.mem_map.1 hr
  exact memRead_length ..

/-- What group `b` of the stream decodes to. -/
def decodedGroup (s : State) (l : RsLayout) (b : Nat) : Option (List Device) :=
  groupDecode l.m (groupSize l b) (groupRecordsAt s l b)

section Group

variable {s : State} {l : RsLayout} {b : Nat} {v : List Device}

/-- The devices of a decoded group: as many as the group has, of 8 bytes each. -/
theorem decodedGroup_length (hv : decodedGroup s l b = some v) : v.length = groupSize l b ∧ ∀ d ∈ v, d.length = 8 :=
  length_of_groupDecode (by simp [groupRecordsAt]) (groupRecordsAt_record_length s l b) hv

theorem rsDecItem_of_some (hv : decodedGroup s l b = some v) :
    rsDecItem s l b = ⟨none, dstAddr s + 8 * (b * l.k), groupOutput l b v⟩ := by
  rw [decodedGroup] at hv
  rw [rsDecItem, hv]

theorem rsDecItem_noted_of_none (hv : decodedGroup s l b = none) : (rsDecItem s l b).noted = some .tooManyErasures := by
  rw [decodedGroup] at hv
  rw [rsDecItem, hv]

/-- A group notes nothing, or too many erasures. -/
theorem rsDecItem_noted (s : State) (l : RsLayout) (b : Nat) :
    (rsDecItem s l b).noted = none ∨ (rsDecItem s l b).noted = some .tooManyErasures := by
  cases hv : decodedGroup s l b with
  | none => exact .inr (rsDecItem_noted_of_none hv)
  | some v => exact .inl (by rw [rsDecItem_of_some hv])

/-- The output of a group of whole devices lacks what a partial last word lacks. -/
theorem groupOutput_eq (hlen : v.length = groupSize l b) (hdev : ∀ d ∈ v, d.length = 8) :
    groupOutput l b v = v.flatten.take (8 * groupSize l b - if 0 < l.rl ∧ b + 1 = l.B then 8 - l.rl else 0) := by
  unfold groupOutput
  split
  · rfl
  · rw [List.take_of_length_le]
    rw [length_flatten_of_forall hdev, hlen]
    exact Nat.le_refl _

/-- The part of a group's output from device `j` on holds the valid bytes of that device. -/
theorem wordLength_eq (hl : l.Consistent) (hb : b < l.B) {j : Nat} (hj : j < groupSize l b) :
    wordLength l (b * l.k + j)
      = min (8 * groupSize l b - (if 0 < l.rl ∧ b + 1 = l.B then 8 - l.rl else 0) - 8 * j) 8 := by
  have hrl := hl.partialWord
  unfold wordLength
  rcases group_cases hl hb with ⟨hlast, -, hW⟩ | ⟨hlt, hg, hW⟩ <;> split <;> split <;> omega

/-- Where memory holds the output of a group, it holds the valid bytes of each of its devices in their place (42 R232). -/
theorem holdsAt_of_groupOutput (hl : l.Consistent) (hb : b < l.B) (hlen : v.length = groupSize l b)
    (hdev : ∀ d ∈ v, d.length = 8) {m : Memory} {a : Nat} (h : HoldsAt m (a + 8 * (b * l.k)) (groupOutput l b v)) {j : Nat}
    (hj : j < groupSize l b) : HoldsAt m (a + 8 * (b * l.k + j)) ((v.getD j []).take (wordLength l (b * l.k + j))) := by
  rw [groupOutput_eq hlen hdev] at h
  have hpiece := holdsAt_of_flatten_take hdev h (hlen.symm ▸ hj)
  have hd : (v.getD j []).length = 8 := length_getD hdev (hlen.symm ▸ hj)
  rwa [Nat.add_assoc, ← Nat.mul_add, ← List.take_length (l := v.getD j []), List.take_take, hd,
    ← wordLength_eq hl hb hj] at hpiece

end Group

/-! ## The run -/

/-- The header of a Reed-Solomon stream and the windows of its decode pass all checks of 42 R230. -/
structure RsDecodes (s : State) : Prop where
  init    : s.init = true
  tag     : tagByte s = 4
  len     : 25 ≤ srcLen s
  devices : 1 ≤ (rsDecLayout s).k ∧ 1 ≤ (rsDecLayout s).m ∧ (rsDecLayout s).k + (rsDecLayout s).m ≤ 256
  threads : (rsDecLayout s).T ≠ 0
  fits    : (rsDecLayout s).HeaderFits
  size    : rsStreamSize (rsDecLayout s) = srcLen s
  windows : WindowsGood s (rsDecLayout s).n

/-- Memory after the groups of a decode. -/
def rsDecMemory (s : State) : Memory := (rsDecJob s).memory (dstAddr s) s.mem

namespace RsDecodes

variable {s : State} (h : RsDecodes s)
include h

theorem header_passes : firstRaise (rsHeaderChecks s (rsDecLayout s)) = none := by
  rw [firstRaise_rsHeaderChecks, if_neg (Nat.not_lt.2 h.len), if_neg (not_not.2 h.devices), if_neg h.threads,
    if_neg (not_not.2 h.fits), if_neg (not_not.2 h.size)]

theorem decodeChecks_pass : firstRaise (decodeChecks s) = none := by
  have hlen := h.len
  rw [firstRaise_decodeChecks, if_neg (by simp [h.init]), if_neg (not_not.2 h.windows.1), if_neg (by omega)]

/-- A Reed-Solomon decode, by DEC.RS or by DEC.AUTO, that passes its checks runs its job. -/
theorem exec (hu : Undisturbed s) {i : Instr} (hi : i = .decRs ∨ i = .decAuto) : exec i s = .next (runJob (rsDecJob s) s) := by
  have hwindows : firstRaise (windowChecks s (rsDecJob s).need) = none := firstRaise_windowChecks_eq_none.2 h.windows.2
  rcases hi with rfl | rfl
  · refine exec_of_plan hu (streamPlan_decRs s) ?_ hwindows
    have hlen := h.len
    rw [firstRaise_rsDecChecks, if_neg (by simp [h.init]), if_neg (not_not.2 h.windows.1), if_neg (by omega),
      if_neg (not_not.2 h.tag), h.header_passes]
  · exact exec_of_plan hu (streamPlan_decAuto_rs h.decodeChecks_pass h.tag) h.header_passes hwindows

theorem consistent : (rsDecLayout s).Consistent := rsDecLayout_consistent h.header_passes

theorem inOrder : (rsDecJob s).InOrder (dstAddr s) where
  header := Nat.zero_le _
  item b hb := by
    have hout := rsDecItem_out_length_le s (rsDecLayout s) b
    have hin := group_data_inside h.consistent hb
    have hn : (rsDecJob s).need
      = 8 * (rsDecLayout s).W - if 0 < (rsDecLayout s).rl then 8 - (rsDecLayout s).rl else 0 := rfl
    simp only [hn]
    simp only [rsDecJob, rsDecItem_addr]
    omega
  count := (headerField_lt s 9).le.trans (by decide)
  noted b _ c hc := by
    simp only [rsDecJob] at hc
    rcases rsDecItem_noted s (rsDecLayout s) b with hnone | hsome
    · rw [hnone] at hc
      cases hc
    · rw [hsome] at hc
      cases hc
      exact .inr (.inr (.inl rfl))
  afterHeader b _ := by
    simp only [rsDecJob, rsDecItem_addr]
    exact Nat.le_add_right ..
  ordered p q hpq hq := by
    have hout := rsDecItem_out_length_le s (rsDecLayout s) p
    have hgroups := group_data_ordered h.consistent hpq hq
    simp only [rsDecJob, rsDecItem_addr]
    omega

theorem sameOutside : SameOutside s.mem (rsDecMemory s) (dstAddr s) (rsDecLayout s).n := h.inOrder.sameOutside s.mem

/-- What a failed decode leaves of memory: the window unspecified, every other byte as before (60 R291). -/
theorem failed_memory :
    SameOutside s.mem ((rsDecMemory s).blurRange (dstAddr s) (rsDecLayout s).n) (dstAddr s) (rsDecLayout s).n
      ∧ UnspecifiedAt ((rsDecMemory s).blurRange (dstAddr s) (rsDecLayout s).n) (dstAddr s) (rsDecLayout s).n :=
  ⟨h.sameOutside.trans (blurRange_outside _ _ _), blurRange_unspecified _ _ _⟩

/-- The valid bytes of each device of a decoded group stand in their place in the data (42 R231, R232). -/
theorem holds_device {b : Nat} (hb : b < (rsDecLayout s).B) {v : List Device}
    (hv : decodedGroup s (rsDecLayout s) b = some v) {j : Nat} (hj : j < groupSize (rsDecLayout s) b) :
    HoldsAt (rsDecMemory s) (dstAddr s + 8 * (b * (rsDecLayout s).k + j))
      ((v.getD j []).take (wordLength (rsDecLayout s) (b * (rsDecLayout s).k + j))) := by
  obtain ⟨hlen, hdev⟩ := decodedGroup_length hv
  have hitem := h.inOrder.holds_item s.mem b hb
  simp only [rsDecJob, rsDecItem_of_some hv] at hitem
  exact holdsAt_of_groupOutput h.consistent hb hlen hdev hitem hj

end RsDecodes

/-- Settles O37: a group notes too many erasures exactly where group decode fails. -/
theorem decRsDecodesEveryGroup : Obligations.DecRsDecodesEveryGroup := by
  intro s i hi hs hu hinit k m B rdd rl W n hlen htag hk hm hkm hT hrdd hrl hB hsize hw kb group
  have h : RsDecodes s := ⟨hinit, htag, hlen, ⟨hk, hm, hkm⟩, hT, ⟨hrdd, hrl, hB⟩, hsize, hw⟩
  have hgroup (b : Nat) : decodedGroup s (rsDecLayout s) b = group b := by
    have hat : srcAddr s + groupOffset (rsDecLayout s) b = srcAddr s + 25 + 9 * b * (m + k) := (Nat.add_assoc ..).symm
    simp only [decodedGroup, groupRecordsAt, hat]
    rfl
  have hgood {b : Nat} (hb : group b ≠ none) : (rsDecItem s (rsDecLayout s) b).noted = none := by
    obtain ⟨v, hv⟩ := Option.ne_none_iff_exists'.1 hb
    rw [rsDecItem_of_some ((hgroup b).trans hv)]
  refine ⟨fun hclean => ⟨rsDecMemory s, ?_, h.sameOutside, fun b hb v hv j hj => ?_⟩,
    fun b hb hfail hfirst => ⟨_, ?_, h.failed_memory⟩⟩
  · rw [h.exec hu hi, runJob_silent hs h.inOrder fun b hb => hgood (hclean b hb)]
    rfl
  · have hv := (hgroup b).trans hv
    obtain ⟨hcount, hdev⟩ := decodedGroup_length hv
    have hd : (v.getD j []).length = 8 := length_getD hdev (hcount.symm ▸ hj)
    have := h.holds_device hb hv hj
    rw [wordLength, apply_ite (fun c => (v.getD j []).take c), List.take_of_length_le hd.le] at this
    exact this
  · rw [h.exec hu hi, runJob_fails_with hs h.inOrder (c := .tooManyErasures) nofun (fun p _ => rsDecItem_noted s _ p) hb
      (rsDecItem_noted_of_none ((hgroup b).trans hfail)) fun p hp => hgood (hfirst p hp)]
    rfl

end Sys2Proof.Machine
end

section
/-! PROOFS. The round trip of the Reed-Solomon streams (O40): a decode reads back the layout that ENC.RS wrote in its header,
finds no erasure, and delivers every data byte (42_reed_solomon R225, R234). -/

namespace Sys2Proof.Machine

/-! ## Words and groups of the data (42 R222, R223) -/

section Words

variable {l : RsLayout} {s : State}

/-- Every data word is a device of a group. -/
theorem exists_group (hl : l.Consistent) (hrdd : l.rdd < l.k) {i : Nat} (hi : i < l.W) :
    ∃ b < l.B, ∃ j < groupSize l b, i = b * l.k + j := by
  obtain ⟨hk, hW, hshort, -⟩ := hl
  have hdiv := Nat.div_add_mod' i l.k
  have hmod := Nat.mod_lt i hk
  have hB : i / l.k < l.B := by
    rw [Nat.div_lt_iff_lt_mul hk]
    refine hi.trans_le ?_
    split at hW
    · next hpos =>
      have hlast : l.B - 1 + 1 = l.B := Nat.succ_pred_eq_of_pos (hshort hpos)
      rw [← hlast, Nat.succ_mul]
      omega
    · rw [Nat.sub_zero] at hW
      omega
  refine ⟨i / l.k, hB, i % l.k, ?_, hdiv.symm⟩
  unfold groupSize
  split
  · next hlast =>
    rw [if_pos hlast.1, show l.B - 1 = i / l.k by omega] at hW
    omega
  · exact hmod

/-- The valid bytes of a data word are those of the source. -/
theorem dataWord_take (i : Nat) : (dataWord s l i).take (wordLength l i) = memRead s (srcAddr s + 8 * i) (wordLength l i) := by
  unfold dataWord wordLength
  split
  · exact List.take_left' (memRead_length ..)
  · exact List.take_of_length_le (memRead_length ..).le

/-- Words that give the valid bytes of the data in their places deliver all of them. -/
theorem holdsAt_of_words (hn : l.n = 8 * l.W - if 0 < l.rl then 8 - l.rl else 0) {m : Memory} {a : Nat}
    (h : ∀ i < l.W, HoldsAt m (a + 8 * i) (memRead s (srcAddr s + 8 * i) (wordLength l i))) :
    HoldsAt m a (memRead s (srcAddr s) l.n) := by
  intro j hj
  rw [memRead_length] at hj
  have hword : j / 8 < l.W := by split at hn <;> omega
  have hbyte : j % 8 < wordLength l (j / 8) := by
    unfold wordLength
    split at hn <;> split <;> omega
  have := h (j / 8) hword (j % 8) (by rwa [memRead_length])
  rw [memRead, readBytes_getElem?, if_pos hbyte, Nat.add_assoc, Nat.add_assoc, Nat.div_add_mod] at this
  rw [this, memRead, readBytes_getElem?, if_pos hj]

end Words

/-! ## The stream read back -/

theorem isErasure_deviceRecord (d : Device) : isErasure (deviceRecord d) = false := bne_self_eq_false _

theorem groupRecords_intact (m : Nat) (v : List Device) : ∀ r ∈ groupRecords m v, isErasure r = false := by
  intro r hr
  simp only [groupRecords, List.mem_append, List.mem_map] at hr
  rcases hr with ⟨i, -, rfl⟩ | ⟨d, -, rfl⟩
  · exact isErasure_deviceRecord _
  · exact isErasure_deviceRecord _

/-- A group as encoded decodes to its data devices. -/
theorem groupDecode_groupRecords {m : Nat} {v : List Device} (hm : 1 ≤ m) (hv : 1 ≤ v.length) (hcount : v.length + m ≤ 256)
    (hdev : ∀ d ∈ v, d.length = 8) : groupDecode m v.length (groupRecords m v) = some v := by
  refine upToMErasuresAreRebuilt m v _ hm hv hcount hdev (groupRecords_length ..) (fun _ _ => .inl rfl) ?_
  rw [List.filter_eq_nil_iff.2 fun r hr => by rw [groupRecords_intact m v r hr]; nofun]
  exact Nat.zero_le _

theorem groupSize_pos {l : RsLayout} (hl : l.Consistent) {b : Nat} (hb : b < l.B) : 0 < groupSize l b := by
  have hk := hl.devices
  rcases group_cases hl hb with ⟨-, hpos, -⟩ | ⟨-, hg, -⟩ <;> omega

theorem groupSize_le_devices {l : RsLayout} (hrdd : l.rdd < l.k) (b : Nat) : groupSize l b ≤ l.k := by
  unfold groupSize
  split <;> omega

theorem rsEncLayout_n (s : State) : (rsEncLayout s).n
    = 8 * (rsEncLayout s).W - if 0 < (rsEncLayout s).rl then 8 - (rsEncLayout s).rl else 0 := by
  have hW : (rsEncLayout s).W = (rsEncLayout s).n / 8 + if 0 < (rsEncLayout s).rl then 1 else 0 := ceilDiv_eq (by decide) _
  have hrl : (rsEncLayout s).rl = (rsEncLayout s).n % 8 := rfl
  by_cases hpartial : 0 < (rsEncLayout s).rl
  · rw [if_pos hpartial] at hW ⊢
    omega
  · rw [if_neg hpartial] at hW ⊢
    omega

namespace RsEncodes

variable {s s' : State} (h : RsEncodes s)
include h

theorem short : (rsEncLayout s).rdd < (rsEncLayout s).k := Nat.mod_lt _ h.devices.1

theorem fits : (rsEncLayout s).HeaderFits := by
  have hn := rsEncLayout_n s
  have hrl : (rsEncLayout s).rl = (rsEncLayout s).n % 8 := rfl
  obtain ⟨-, hW, hshort, hpartial⟩ := h.consistent
  refine ⟨h.short, hpartial, fun hsome hB => ?_⟩
  rw [hB, Nat.zero_sub, Nat.zero_mul] at hW
  omega

/-- The header of the stream gives back the layout of its encode (42 R222, R230). -/
theorem rsDecLayout_of_holds_header (hsrc : HoldsAt s'.mem (srcAddr s') (rsHeader (rsEncLayout s))) :
    tagByte s' = 4 ∧ rsDecLayout s' = rsEncLayout s := by
  obtain ⟨htag, hfields⟩ := holdsAt_cons.1 hsrc
  simp only [holdsAt_append] at hfields
  obtain ⟨⟨⟨⟨⟨hk, hm⟩, hB⟩, hrdd⟩, hrl⟩, hT⟩ := hfields
  have hdevices := h.devices
  obtain ⟨hshort, hpartial, -⟩ := h.fits
  have hspace : 256 < fieldSpace := by decide
  have hk := headerField_of_holdsAt (k := 1) (by omega) hk
  have hm := headerField_of_holdsAt (k := 5) (by omega) hm
  have hB := headerField_of_holdsAt (k := 9) h.count hB
  have hrdd := headerField_of_holdsAt (k := 13) (by omega) hrdd
  have hrl := headerField_of_holdsAt (k := 17) (by omega) hrl
  have hT := headerField_of_holdsAt (k := 21) h.threads.2 hT
  refine ⟨read_of_look htag _, ?_⟩
  simp only [rsDecLayout, hk, hm, hB, hrdd, hrl, hT, ← h.consistent.words, ← rsEncLayout_n]

/-- The stream of ENC.RS, read with windows good for its data, passes the checks of its decode. -/
theorem decodes (hinit : s'.init = true) (htag : tagByte s' = 4) (hl : rsDecLayout s' = rsEncLayout s)
    (hlen : srcLen s' = rsStreamSize (rsEncLayout s)) (hw : WindowsGood s' (srcLen s)) : RsDecodes s' where
  init := hinit
  tag := htag
  len := hlen ▸ Nat.le_add_right 25 _
  devices := hl ▸ h.devices
  threads := by
    rw [hl]
    exact Nat.one_le_iff_ne_zero.1 h.threads.1
  fits := hl ▸ h.fits
  size := by rw [hl, hlen]
  windows := by
    rw [hl]
    exact hw

/-- Group `b` of the stream, read back, decodes to the data devices it was made of. -/
theorem decodedGroup_eq (hsrc : s'.mem = rsEncMemory s) (haddr : srcAddr s' = dstAddr s) {b : Nat}
    (hb : b < (rsEncLayout s).B) : decodedGroup s' (rsEncLayout s) b = some (groupData s (rsEncLayout s) b) := by
  have hdev := groupData_device_length s h.consistent b
  have hrecords : groupRecordsAt s' (rsEncLayout s) b = groupRecords (rsEncLayout s).m (groupData s (rsEncLayout s) b) := by
    refine List.ext_getElem (by simp [groupRecordsAt]) fun r hr hr' => ?_
    have hrecord := h.holds_record hb (r := r) (by simpa using hr')
    rw [← hsrc, ← haddr, List.getD_eq_getElem _ _ hr'] at hrecord
    have hread := memRead_of_holdsAt hrecord
    rw [groupRecords_record_length hdev _ (List.getElem_mem _)] at hread
    simpa [groupRecordsAt] using hread
  have hdevices := h.devices
  have hpos := groupSize_pos h.consistent hb
  have hle := groupSize_le_devices h.short b
  have hdecode := groupDecode_groupRecords (m := (rsEncLayout s).m) (v := groupData s (rsEncLayout s) b) (by omega)
    (by rw [groupData_length]; omega) (by rw [groupData_length]; omega) hdev
  rwa [groupData_length, ← hrecords] at hdecode

end RsEncodes

/-- Settles O40: the header gives back the layout, each group decodes to the data devices it was made of, and those are all of the
data. -/
theorem reedSolomonStreamsRoundTrip : Obligations.ReedSolomonStreamsRoundTrip := by
  intro s t s' i hs hu hexec hok hreads hi
  obtain ⟨hs', hu', hinit, hmem, hsrc, hlen, hw⟩ := hreads
  have h : RsEncodes s := firstRaise_encRs_eq_none.1 (checks_pass_of_ok hs hu (streamPlan_encRs s) hexec hok)
  rw [h.exec hs hu] at hexec
  cases hexec
  replace hmem : s'.mem = rsEncMemory s := hmem
  replace hsrc : srcAddr s' = dstAddr s := congrArg BitVec.toNat hsrc
  replace hlen : srcLen s' = rsStreamSize (rsEncLayout s) := by
    rw [srcLen, hlen]
    exact Nat.mod_eq_of_lt h.streamSize_lt
  obtain ⟨htag, hl⟩ := h.rsDecLayout_of_holds_header (s' := s') (by rw [hmem, hsrc]; exact h.holds_header)
  have hd : RsDecodes s' := h.decodes hinit htag hl hlen hw
  have hgroup {b : Nat} (hb : b < (rsEncLayout s).B) := h.decodedGroup_eq hmem hsrc hb
  have hsilent : ∀ b < (rsDecJob s').count, ((rsDecJob s').item b).noted = none := by
    simp only [rsDecJob, hl]
    exact fun b hb => by rw [rsDecItem_of_some (hgroup hb)]
  refine ⟨_, (hd.exec hu' hi).trans (congrArg _ (runJob_silent hs' hd.inOrder hsilent)), rfl, hs'.ecause,
    hs'.corrcnt, ?_, ?_⟩
  · have hn : (rsDecLayout s').n = s.flight.ops.len.toNat := congrArg RsLayout.n hl
    simp [succeeded, rsDecJob, hn]
  · refine holdsAt_of_words (rsEncLayout_n s) fun i hiW => ?_
    obtain ⟨b, hb, j, hj, rfl⟩ := exists_group h.consistent h.short hiW
    have := hd.holds_device (hl ▸ hb) (hl ▸ hgroup hb) (hl ▸ hj)
    rwa [hl, groupData_getD s _ hj, dataWord_take] at this

end Sys2Proof.Machine
end

section
/-! PROOFS. The engine's move at the boundary: a write to `c[CMD]` (O6), an illegal value (O5), and that every command completes
in the move that runs it (O7) (43 R250 to R253, R260; 60 R293). -/

namespace Sys2Proof.Machine

/-! ## When the engine moves -/

theorem step_of_no_inputs {s : State} (h : s.inputs = []) : step s = advance s := by simp only [step, h]

theorem step_of_tick {s : State} {rest : List HostEvent} (h : s.inputs = .tick :: rest) :
    step s = advance { s with inputs := rest } := step_of_inputs h

theorem step_of_polling_wait {s : State} {rest : List HostEvent} (h : s.inputs = .wait :: rest) (hdone : s.done = false) :
    step s = advance s := (step_of_inputs h).trans (if_neg (Bool.eq_false_iff.1 hdone))

/-- A command in flight moves as its value decodes: the command, or the report of an illegal value. -/
theorem advance_busy {s : State} (hb : s.busy = true) :
    (∃ i, advance s = exec i s) ∨ advance s = .next (illegalCommand s) := by
  rw [advance, if_pos hb]
  split
  · exact .inl ⟨_, rfl⟩
  · exact .inr rfl

/-! ## Acceptance (43 R250, R251) -/

/-- Settles O6: slot 16 is `c[CMD]`, and acceptance is the update of R250 and R251. -/
theorem commandWriteIsAcceptedOrDropped : Obligations.CommandWriteIsAcceptedOrDropped := by
  intro s v rest h
  have hstep : step s = .next (writeCmd v { s with inputs := rest }) := step_of_inputs h
  rw [hstep]
  exact ⟨fun hb => congrArg _ (if_pos hb), fun hb => congrArg _ (if_neg (Bool.eq_false_iff.1 hb))⟩

/-! ## Illegal values (43 R253) -/

theorem Accepted.busy {s : State} (h : Accepted s) : s.busy = true := h.1

theorem Accepted.done {s : State} (h : Accepted s) : s.done = false := by
  obtain ⟨-, hdone, -⟩ := h
  exact hdone

/-- The low `k` bits of a word, by a mask. -/
theorem setWidth_setWidth_eq_and (k : Nat) (v : Word64) :
    (v.setWidth k).setWidth 64 = v &&& (BitVec.allOnes k).setWidth 64 := by
  refine BitVec.eq_of_getLsbD_eq fun i hi => ?_
  simp [hi, Bool.and_comm]

theorem illegalCommand_eq_failedWith {s : State} (h : Accepted s) :
    illegalCommand s = failedWith 0x0200 (s.flight.value &&& 0xFFFFFFFF) s := by
  rw [illegalCommand, setWidth_setWidth_eq_and]
  exact raise_eq_failedWith h.ecause _

/-- The engine's move on an illegal value, which is no command (30_encoding R96). -/
theorem advance_illegal {s : State} (h : Accepted s) (hv : illegalValue s.flight.value = true) :
    advance s = .next (failedWith 0x0200 (s.flight.value &&& 0xFFFFFFFF) s) := by
  have hreject (i : Instr) : decode s.flight.value ≠ .ok i := fun hi => by
    rw [(exists_decode_iff_legal _).1 ⟨i, hi⟩] at hv
    cases hv
  rw [advance, if_pos h.busy]
  split
  · exact absurd ‹_› (hreject _)
  · exact congrArg _ (illegalCommand_eq_failedWith h)

/-- Settles O5: what follows in the list of events is no part of the report. -/
theorem illegalValueReportsAndDoesNothingElse : Obligations.IllegalValueReportsAndDoesNothingElse := by
  intro s hs hv report
  refine ⟨fun h => ?_, fun rest h => ?_, fun rest h => ?_⟩
  · rw [step_of_no_inputs h, advance_illegal hs hv]
  · rw [step_of_tick h]
    exact advance_illegal (s := { s with inputs := rest }) hs hv
  · rw [step_of_polling_wait h hs.done, advance_illegal hs hv]

/-! ## The completion event (43 R260) -/

/-- A command has completed: `BUSY` is 0, `DONE` is 1, and `OK` says whether an error is set. -/
def Completed (t : State) : Prop := t.busy = false ∧ t.done = true ∧ t.ok = !hasError t.ecause

theorem complete_completed (s : State) : Completed (complete s) := ⟨rfl, rfl, rfl⟩

/-- Every cause but the correction of a single bit is an error (10_state R29). -/
theorem Cause.hasError_bit {c : Cause} (h : c ≠ .singleBitCorrected) : hasError c.bit = true := by
  revert h
  cases c <;> decide

/-- A raise of an error, whatever was noted before it. -/
theorem raise_completed {r : Raise} (h : r.cause ≠ .singleBitCorrected) (s : State) : Completed (raise r s) := by
  have herror : hasError (s.ecause ||| r.cause.bit) = true := by
    rw [hasError, or_and_bne_zero, ← hasError, ← hasError, Cause.hasError_bit h, Bool.or_true]
  exact ⟨rfl, rfl, by rw [raise_ok, raise_ecause, herror]; rfl⟩

/-- Checks that raise errors only. -/
def ErrorChecks (checks : List (Bool × Raise)) : Prop := ∀ c ∈ checks, c.2.cause ≠ .singleBitCorrected

theorem ErrorChecks.append {cs ds : List (Bool × Raise)} (hc : ErrorChecks cs) (hd : ErrorChecks ds) : ErrorChecks (cs ++ ds) :=
  List.forall_mem_append.2 ⟨hc, hd⟩

theorem ErrorChecks.firstRaise {checks : List (Bool × Raise)} {r : Raise} (h : ErrorChecks checks)
    (hr : firstRaise checks = some r) : r.cause ≠ .singleBitCorrected := h _ (firstRaise_mem hr)

theorem checked_completed {checks : List (Bool × Raise)} (h : ErrorChecks checks) (k : State → State) (s : State) :
    Completed (checked checks k s) := by
  rcases checked_cases checks k s with ⟨r, hr, he⟩ | ⟨-, he⟩ <;> rw [he]
  · exact raise_completed (h.firstRaise hr) s
  · exact complete_completed _

theorem blockChecks_errors (s : State) (legal : Bool) : ErrorChecks (blockChecks s legal) := by
  simp [ErrorChecks, blockChecks, checkInit]

theorem withWidth_completed (k : Width → State → State) (s : State) : Completed (withWidth k s) := by
  unfold withWidth
  split <;> exact checked_completed (blockChecks_errors s _) _ s

/-! ## Stream commands complete -/

theorem decodeChecks_errors (s : State) : ErrorChecks (decodeChecks s) := by
  simp [ErrorChecks, decodeChecks, checkInit, checkSource, malformed]

theorem checkTag_errors (s : State) (tag : Byte) : ErrorChecks [checkTag s tag] := by
  simp [ErrorChecks, checkTag, malformed]

theorem linHeaderChecks_errors (c : Codec) (s : State) (l : Layout) : ErrorChecks (linHeaderChecks c s l) := by
  simp [ErrorChecks, linHeaderChecks, malformed]

theorem rsHeaderChecks_errors (s : State) (l : RsLayout) : ErrorChecks (rsHeaderChecks s l) := by
  simp [ErrorChecks, rsHeaderChecks, malformed]

theorem windowChecks_errors (s : State) (need : Nat) : ErrorChecks (windowChecks s need) := by
  simp [ErrorChecks, windowChecks, checkCapacity, checkDestination, checkOverlap]

/-- The raise of a plan, where it has one, is an error. -/
def Plan.RaisesErrors : Plan → Prop
  | .early r | .late r _ => r.cause ≠ .singleBitCorrected
  | .run _ => True

theorem plan_raisesErrors {checks : List (Bool × Raise)} (h : ErrorChecks checks) (s : State) (need : Nat) (job : Job) :
    (plan checks (windowChecks s need) job).RaisesErrors := by
  rcases plan_cases checks (windowChecks s need) job with ⟨r, hr, hp⟩ | ⟨r, -, hr, hp⟩ | ⟨-, -, hp⟩ <;> rw [hp]
  · exact h.firstRaise hr
  · exact (windowChecks_errors s need).firstRaise hr
  · trivial

theorem encPlan_raisesErrors (c : Codec) (s : State) : (encPlan c s).RaisesErrors :=
  plan_raisesErrors (by simp [ErrorChecks, checkInit, checkSource]) ..

theorem rsEncPlan_raisesErrors (s : State) : (rsEncPlan s).RaisesErrors :=
  plan_raisesErrors (by simp [ErrorChecks, checkInit, checkSource]) ..

theorem decFromHeader_raisesErrors {before : List (Bool × Raise)} (h : ErrorChecks before) (c : Codec) (s : State) :
    (decFromHeader c before s).RaisesErrors := plan_raisesErrors (h.append (linHeaderChecks_errors _ _ _)) ..

theorem rsDecFromHeader_raisesErrors {before : List (Bool × Raise)} (h : ErrorChecks before) (s : State) :
    (rsDecFromHeader before s).RaisesErrors := plan_raisesErrors (h.append (rsHeaderChecks_errors _ _)) ..

theorem autoPlan_raisesErrors (s : State) : (autoPlan s).RaisesErrors := by
  have hnone : ErrorChecks [] := List.forall_mem_nil _
  unfold autoPlan
  split
  · exact (decodeChecks_errors s).firstRaise ‹_›
  · split
    iterate 3 exact decFromHeader_raisesErrors hnone _ s
    · exact rsDecFromHeader_raisesErrors hnone s
    · exact nofun

theorem streamPlan_raisesErrors {i : Instr} {s : State} {p : Plan} (h : streamPlan i s = some p) : p.RaisesErrors := by
  have htag (tag : Byte) : ErrorChecks (decodeChecks s ++ [checkTag s tag]) :=
    (decodeChecks_errors s).append (checkTag_errors s tag)
  cases i <;> cases h
  case encPar | encHam | encSec => exact encPlan_raisesErrors _ s
  case encRs => exact rsEncPlan_raisesErrors s
  case decAuto => exact autoPlan_raisesErrors s
  case decPar | decHam | decSec => exact decFromHeader_raisesErrors (htag _) _ s
  case decRs => exact rsDecFromHeader_raisesErrors (htag 4) s

/-- A stream command completes: raced, by its raise, or at the end of its job. -/
theorem runPlan_completed {p : Plan} (h : p.RaisesErrors) (s : State) : Completed (runPlan p s) := by
  rcases runPlan_cases p s with ⟨-, he⟩ | ⟨-, ⟨r, rfl, he⟩ | ⟨r, n, rfl, he⟩ | ⟨job, rfl, he⟩⟩ <;> rw [he]
  · exact complete_completed _
  · exact raise_completed h s
  · exact raise_completed h s
  · obtain ⟨m, e, f, n, o, hrun⟩ := runJob_frame job s
    rw [hrun]
    exact ⟨rfl, rfl, rfl⟩

/-! ## Every command completes -/

theorem exec_completed (i : Instr) (s : State) : ∃ t, exec i s = .next t ∧ Completed t := by
  cases hp : streamPlan i s with
  | some p => exact ⟨_, exec_of_streamPlan hp, runPlan_completed (streamPlan_raisesErrors hp) s⟩
  | none =>
    cases i
    case encPar | encHam | encSec | encRs | decAuto | decPar | decHam | decSec | decRs => cases hp
    case nop | init | close => exact ⟨_, rfl, complete_completed _⟩
    case pcm | bencHam | bencSec | bdecHam | bdecSec => exact ⟨_, rfl, withWidth_completed _ s⟩
    case bencPar | bdecPar => exact ⟨_, rfl, checked_completed (blockChecks_errors s _) _ s⟩
    case twr | trd => exact ⟨_, rfl, checked_completed (by simp [ErrorChecks, checkIndex]) _ s⟩

theorem advance_completed {s : State} (hb : s.busy = true) : ∃ t, advance s = .next t ∧ Completed t := by
  rcases advance_busy hb with ⟨i, he⟩ | he <;> rw [he]
  · exact exec_completed i s
  · exact ⟨_, rfl, raise_completed (r := ⟨.illegalCommand, _⟩) nofun s⟩

/-- Settles O7: every end of a command is a completion event, and every raise an error. -/
theorem everyCommandCompletes : Obligations.EveryCommandCompletes := by
  intro s hb hmoves
  have hstep : ∃ t, step s = .next t ∧ Completed t := by
    rcases hmoves with h | ⟨rest, h⟩ | ⟨rest, h, hdone⟩
    · rw [step_of_no_inputs h]
      exact advance_completed hb
    · rw [step_of_tick h]
      exact advance_completed (s := { s with inputs := rest }) hb
    · rw [step_of_polling_wait h hdone]
      exact advance_completed hb
  obtain ⟨t, ht, hbusy, hdone, hok⟩ := hstep
  refine ⟨t, ht, hbusy, hdone, ?_⟩
  rw [hok, Bool.not_eq_true', hasError_eq_false_iff]

end Sys2Proof.Machine
end

section
/-! PROOFS. The dispatch of DEC.AUTO (O43), the commands that need `INIT = 1` (O48), and NOP, INIT and CLOSE (O44)
(43 R252, R254 to R257). -/

namespace Sys2Proof.Machine

/-! ## DEC.AUTO (43 R254) -/

theorem plan_of_firstRaise {checks : List (Bool × Raise)} {r : Raise} (h : firstRaise checks = some r)
    (windows : List (Bool × Raise)) (job : Job) : plan checks windows job = .early r := by simp only [plan, h]

/-- Passed checks at the head of the list have no part in a plan. -/
theorem plan_append_of_pass {checks : List (Bool × Raise)} (h : firstRaise checks = none) (rest windows : List (Bool × Raise))
    (job : Job) : plan (checks ++ rest) windows job = plan rest windows job := by
  simp only [plan, firstRaise_append, h]

theorem streamPlan_decAuto_of_raise {s : State} {r : Raise} (h : firstRaise (decodeChecks s) = some r) :
    streamPlan .decAuto s = some (.early r) := by simp only [streamPlan, autoPlan, h]

/-- DEC.AUTO does as the decode command of the stream's tag, given that it goes on as that command once the checks before the
tag have passed. -/
theorem exec_decAuto_of_tag {i : Instr} {s : State} {tag : Byte} {header windows : List (Bool × Raise)} {job : Job}
    (htag : tagByte s = tag)
    (hi : streamPlan i s = some (plan (decodeChecks s ++ [checkTag s tag] ++ header) windows job))
    (hauto : firstRaise (decodeChecks s) = none → streamPlan .decAuto s = some (plan header windows job)) :
    exec .decAuto s = exec i s := by
  rw [exec_of_streamPlan hi]
  cases hd : firstRaise (decodeChecks s) with
  | some r =>
    have hraise : firstRaise (decodeChecks s ++ [checkTag s tag] ++ header) = some r := by
      simp only [firstRaise_append, hd]
    rw [exec_of_streamPlan (streamPlan_decAuto_of_raise hd), plan_of_firstRaise hraise]
  | none =>
    have hpass : firstRaise (decodeChecks s ++ [checkTag s tag]) = none := by
      simp [firstRaise_append, hd, checkTag, malformed, htag]
    rw [exec_of_streamPlan (hauto hd), plan_append_of_pass hpass]

theorem exec_decAuto_linear {c : Codec} {s : State} (htag : tagByte s = c.tag) : exec .decAuto s = exec (decodeOf c) s :=
  exec_decAuto_of_tag htag (streamPlan_decodeOf c s) fun hd => streamPlan_decAuto hd htag

theorem exec_decAuto_rs {s : State} (htag : tagByte s = 4) : exec .decAuto s = exec .decRs s :=
  exec_decAuto_of_tag htag (streamPlan_decRs s) fun hd => streamPlan_decAuto_rs hd htag

theorem streamPlan_decAuto_unknown {s : State} (hd : firstRaise (decodeChecks s) = none)
    (htag : tagByte s = 0 ∨ 5 ≤ (tagByte s).toNat) :
    streamPlan .decAuto s = some (.early ⟨.unknownEncoding, (tagByte s).setWidth 64⟩) := by
  have hnat : (tagByte s).toNat = 0 ∨ 5 ≤ (tagByte s).toNat := htag.imp_left (congrArg BitVec.toNat)
  simp only [streamPlan, autoPlan, hd]
  split
  iterate 4 omega
  rfl

theorem raisesEarly_of_early {i : Instr} {s : State} {r : Raise} (hs : Accepted s) (hu : Undisturbed s)
    (hp : streamPlan i s = some (.early r)) : RaisesEarly i s r.cause.bit r.info := by
  refine ⟨?_, (outputNeed_of_streamPlan hp).trans (Nat.zero_min _)⟩
  rw [exec_of_streamPlan hp, runPlan, if_neg (Bool.eq_false_iff.1 hu), raise_eq_failedWith hs.ecause]

/-- Settles O43: by the tag where it is known; else by the first failing check, and then the tag itself. -/
theorem decAutoDispatchesOnTheTag : Obligations.DecAutoDispatchesOnTheTag := by
  intro s
  refine ⟨exec_decAuto_linear (c := .par), exec_decAuto_linear (c := .ham), exec_decAuto_linear (c := .sec), exec_decAuto_rs,
    fun hs hu => ?_⟩
  have hraise := firstRaise_decodeChecks s
  have hearly (r : Raise) (hr : firstRaise (decodeChecks s) = some r) : RaisesEarly .decAuto s r.cause.bit r.info :=
    raisesEarly_of_early hs hu (streamPlan_decAuto_of_raise hr)
  refine ⟨fun hinit => hearly ⟨.notInitialized, 0⟩ (hraise.trans (if_pos hinit)), fun hinit hsource => ?_,
    fun hinit hsource hlen => ?_, fun hinit hsource hlen htag => ?_⟩
  all_goals replace hraise := hraise.trans (if_neg (by simp [hinit]))
  · exact hearly ⟨.busFault, 0⟩ (hraise.trans (if_pos hsource))
  all_goals replace hraise := hraise.trans (if_neg (not_not.2 hsource))
  · exact hearly ⟨.malformedStream, 1⟩ (hraise.trans (if_pos hlen))
  · have hpass := hraise.trans (if_neg (Nat.ne_of_gt hlen))
    exact raisesEarly_of_early hs hu (streamPlan_decAuto_unknown hpass htag)

/-! ## Commands that need `INIT = 1` (43 R252) -/

/-- The first check of every stream command is that of `INIT` (60 R280). -/
theorem streamPlan_uninit {i : Instr} {s : State} (hi : isStream i = true) (hinit : s.init = false) :
    streamPlan i s = some (.early ⟨.notInitialized, 0⟩) := by
  have hplan (rest windows : List (Bool × Raise)) (job : Job) :
      some (plan (checkInit s :: rest) windows job) = some (.early ⟨.notInitialized, 0⟩) :=
    congrArg some (plan_of_firstRaise (by simp [checkInit, hinit]) windows job)
  cases i
  case encPar | encHam | encSec | encRs | decPar | decHam | decSec | decRs => exact hplan ..
  case decAuto => exact streamPlan_decAuto_of_raise ((firstRaise_decodeChecks s).trans (if_pos hinit))
  all_goals cases hi

theorem BlockRaises.uninit {i : Instr} {legal : Nat → Prop} (h : BlockRaises i legal) {s : State} (hs : Accepted s)
    (hinit : s.init = false) : exec i s = .next (failedWith 0x0001 0 s) := (h s hs).1 hinit

/-- Settles O48: by the first check of the stream commands and of the block-level commands. -/
theorem codecsNeedInit : Obligations.CodecsNeedInit := by
  intro i s hs hu hi hinit
  cases hstream : isStream i
  case true =>
    obtain ⟨he, -⟩ := raisesEarly_of_early hs (hu hstream) (streamPlan_uninit hstream hinit)
    exact he
  case false =>
    cases i
    case encPar | encHam | encSec | encRs | decAuto | decPar | decHam | decSec | decRs => cases hstream
    case nop | init | close | twr | trd => exact absurd hi (by decide)
    case pcm | bencHam | bencSec | bdecHam | bdecSec => exact (blockRaises_withWidth fun _ => rfl).uninit hs hinit
    case bencPar | bdecPar => exact (blockRaises_parity fun _ => rfl).uninit hs hinit

/-! ## NOP, INIT, CLOSE (43 R255 to R257) -/

/-- Settles O44: no cause is noted, so each completes with OK = 1. -/
theorem systemCommandsSetInit : Obligations.SystemCommandsSetInit := fun s hs =>
  have hend (b : Bool) : complete { s with init := b } = succeeded { s with init := b } := complete_eq_succeeded hs.hasError
  ⟨congrArg _ (hend s.init), congrArg _ (hend true), congrArg _ (hend false)⟩

end Sys2Proof.Machine
end

section
/-! PROOFS. The table store as TWR and TRD reach it (O45, O46) (43 R258, R259; 30_encoding R108). -/

namespace Sys2Proof.Machine

/-! ## Reading after writing -/

/-- An entry written reads as the word written, truncated to its width (43 R258). -/
theorem tableRead_tableWrite_same (t : Tables) (r : TRef) (v free : Word64) :
    tableRead (tableWrite t r v) r free = match r with
      | .h8 _ => v
      | .h1 _ | .s1 _ | .s8 _ => v &&& 0xFF := by
  cases r <;> simp [tableRead, tableWrite, setWidth_byte]

/-- Every other entry reads as before. -/
theorem tableRead_tableWrite_other {r r' : TRef} (h : r ≠ r') (t : Tables) (v free : Word64) :
    tableRead (tableWrite t r v) r' free = tableRead t r' free := by
  cases r <;> cases r'
  case h1.h1 i j | h8.h8 i j | s1.s1 i j | s8.s8 i j =>
    have hrow : i.val ≠ j.val := fun hij => h (congrArg _ (Fin.ext hij))
    simp [tableRead, tableWrite, hrow]
  all_goals rfl

/-! ## The index (30_encoding R108) -/

theorem tRef?_eq_none_of_invalid {n : Nat} (h : ∀ r, tIndex r ≠ n) : tRef? n = none :=
  Option.eq_none_iff_forall_ne_some.2 fun r hr => h r (tIndex_of_tRef? hr)

theorem checkIndex_of_invalid {s : State} (h : ∀ r, tIndex r ≠ s.flight.ops.pa.toNat) :
    checkIndex s = (true, ⟨.invalidParameter, s.flight.ops.pa⟩) := by
  rw [checkIndex, tRef?_eq_none_of_invalid h]
  rfl

section Valid

variable {s : State} {r : TRef}

theorem checkIndex_of_valid (h : tIndex r = s.flight.ops.pa.toNat) :
    checkIndex s = (false, ⟨.invalidParameter, s.flight.ops.pa⟩) := by
  rw [checkIndex, (tRef?_eq_some_iff ..).2 h]
  rfl

theorem storeEntry_of_valid (h : tIndex r = s.flight.ops.pa.toNat) :
    storeEntry s = { s with tables := tableWrite s.tables r s.flight.ops.bd } := by
  simp only [storeEntry, (tRef?_eq_some_iff ..).2 h]

theorem loadEntry_of_valid (h : tIndex r = s.flight.ops.pa.toNat) :
    loadEntry s = setBD (tableRead s.tables r (Config.freeTable s.flight.key 0 0 (tIndex r))) s := by
  simp only [loadEntry, (tRef?_eq_some_iff ..).2 h]

end Valid

/-! ## TWR and TRD -/

/-- A command whose first failing check is known. -/
theorem checked_of_firstRaise {s : State} (hs : Accepted s) {checks : List (Bool × Raise)} {r : Raise}
    (h : firstRaise checks = some r) (k : State → State) : checked checks k s = failedWith r.cause.bit r.info s := by
  rw [checked, h]
  exact raise_eq_failedWith hs.ecause r

theorem checked_of_pass {checks : List (Bool × Raise)} (h : firstRaise checks = none) (k : State → State) (s : State) :
    checked checks k s = complete (k s) := by rw [checked, h]

/-- Settles O45: the lock, then the index, then the entry written. -/
theorem twrStoresOneEntry : Obligations.TwrStoresOneEntry := by
  intro s hs
  refine ⟨fun hinit => ?_, fun hinit hinvalid => ?_, fun hinit r hr => ?_⟩
  · exact congrArg _ (checked_of_firstRaise (r := ⟨.tableLocked, 0⟩) hs (by simp [hinit]) _)
  · exact congrArg _ (checked_of_firstRaise (r := ⟨.invalidParameter, s.flight.ops.pa⟩) hs
      (by simp [hinit, checkIndex_of_invalid hinvalid]) _)
  · refine ⟨tableWrite s.tables r s.flight.ops.bd, ?_, tableRead_tableWrite_same _ _ _,
      fun r' hne => tableRead_tableWrite_other hne.symm _ _⟩
    rw [exec, execTwr, checked_of_pass (by simp [hinit, checkIndex_of_valid hr]), storeEntry_of_valid hr]
    exact congrArg _ (complete_eq_succeeded hs.hasError)

/-- Settles O46: the index, then the entry read. -/
theorem trdLoadsOneEntry : Obligations.TrdLoadsOneEntry := by
  intro s hs
  refine ⟨fun hinvalid => ?_, fun r hr => ?_⟩
  · exact congrArg _ (checked_of_firstRaise (r := ⟨.invalidParameter, s.flight.ops.pa⟩) hs
      (by simp [checkIndex_of_invalid hinvalid]) _)
  · rw [exec, execTrd, checked_of_pass (by simp [checkIndex_of_valid hr]), loadEntry_of_valid hr]
    exact congrArg _ (complete_eq_succeeded hs.hasError)

end Sys2Proof.Machine
end

section
/-! PROOFS. A stream command leaves the same state for every order of its work items (O31; 60_exceptions R292, R301). -/

namespace Sys2Proof.Machine

/-! ## Two work items, in either order -/

/-- Stores of two ranges that share no byte, in either order. -/
theorem writeBytes_comm {m : Memory} (hm : m.wf) {a b : Nat} {xs ys : List Byte}
    (h : a + xs.length ≤ b ∨ b + ys.length ≤ a) :
    (m.writeBytes a xs).writeBytes b ys = (m.writeBytes b ys).writeBytes a xs := by
  refine memory_ext (writeBytes_wf (writeBytes_wf hm _ _) _ _) (writeBytes_wf (writeBytes_wf hm _ _) _ _) fun x => ?_
  simp only [look_writeBytes]
  split_ifs
  · omega
  all_goals rfl

/-- A failure is noted after a note if one was noted before, or the note is of one. -/
theorem failureNoted_or_noteBits {c : Option Cause} (h : ∀ e ∈ c, e.BlockLevel) (e : BitVec 15) :
    failureNoted (e ||| noteBits c) = (failureNoted e || isFailure c) := by
  obtain ⟨-, hnoted⟩ := noteBits_of_blockLevel h
  rw [failureNoted, or_and_bne_zero, ← failureNoted, ← failureNoted, hnoted]

/-- Notes of two work items, in either order: `ECAUSE` gets both causes, `CORRCNT` counts both, and of two failures `EINFO` keeps
the smaller index (60 R292). -/
theorem noteItem_comm {c d : Option Cause} (hc : ∀ e ∈ c, e.BlockLevel) (hd : ∀ e ∈ d, e.BlockLevel) (i j : Nat)
    (s : State) : noteItem d j (noteItem c i s) = noteItem c i (noteItem d j s) := by
  simp only [noteItem_eq, failureNoted_or_noteBits hc, failureNoted_or_noteBits hd, State.mk.injEq, true_and, and_true]
  refine ⟨by rw [BitVec.or_assoc, BitVec.or_comm (noteBits c), BitVec.or_assoc], add_right_comm .., ?_⟩
  cases isFailure c with
  | false => simp
  | true =>
    cases isFailure d with
    | false => simp
    | true => -- both fail: whatever `EINFO` holds, the smaller index stays
      cases failureNoted s.ecause <;>
        simp only [Bool.or_true, Bool.false_and, Bool.true_and, Bool.false_eq_true, if_true, if_false, decide_eq_true_eq] <;>
        split_ifs <;> bv_omega

theorem noteItem_mem (c : Option Cause) (i : Nat) (s : State) (m : Memory) :
    noteItem c i { s with mem := m } = { noteItem c i s with mem := m } := by simp only [noteItem_eq]

/-- A work item notes its cause, and writes its output. -/
theorem runItem_eq (item : Nat → WorkItem) (s : State) (q : Nat) : runItem item s q
    = { noteItem (item q).noted q s with mem := s.mem.writeBytes (item q).addr (item q).out } := noteItem_mem ..

theorem runItem_wf {s : State} (h : s.mem.wf) (item : Nat → WorkItem) (q : Nat) : (runItem item s q).mem.wf := by
  rw [runItem_eq]
  exact writeBytes_wf h _ _

/-- Two work items whose outputs share no byte. -/
theorem runItem_comm {item : Nat → WorkItem} {p q : Nat} (hp : ∀ c ∈ (item p).noted, c.BlockLevel)
    (hq : ∀ c ∈ (item q).noted, c.BlockLevel)
    (hpq : (item p).addr + (item p).out.length ≤ (item q).addr ∨ (item q).addr + (item q).out.length ≤ (item p).addr)
    {s : State} (hs : s.mem.wf) : runItem item (runItem item s p) q = runItem item (runItem item s q) p := by
  simp only [runItem_eq, noteItem_mem, noteItem_comm hp hq, writeBytes_comm hs hpq]

/-! ## All work items, in every order -/

/-- Work items that commute leave the same state in every order. -/
theorem runItems_perm {item : Nat → WorkItem} {l l' : List Nat} (hl : l.Perm l')
    (hcomm : ∀ p ∈ l, ∀ q ∈ l, ∀ s : State, s.mem.wf →
      runItem item (runItem item s p) q = runItem item (runItem item s q) p)
    {s : State} (hs : s.mem.wf) : runItems item l s = runItems item l' s := by
  induction hl generalizing s with
  | nil => rfl
  | cons p _ ih =>
    exact ih (fun q hq r hr => hcomm q (List.mem_cons_of_mem _ hq) r (List.mem_cons_of_mem _ hr)) (runItem_wf hs item p)
  | swap p q l => exact congrArg (runItems item l) (hcomm q (by simp) p (by simp) s hs)
  | trans h _ ih ih' =>
    exact (ih hcomm hs).trans (ih' (fun p hp q hq => hcomm p (h.mem_iff.2 hp) q (h.mem_iff.2 hq)) hs)

/-- The work items of a job whose outputs follow one another commute. -/
theorem Job.InOrder.runItem_comm {job : Job} {dst : Nat} (h : job.InOrder dst) {p q : Nat} (hp : p < job.count)
    (hq : q < job.count) {s : State} (hs : s.mem.wf) :
    runItem job.item (runItem job.item s p) q = runItem job.item (runItem job.item s q) p := by
  rcases Nat.lt_trichotomy p q with hlt | rfl | hgt
  · exact Machine.runItem_comm (h.noted p hp) (h.noted q hq) (.inl (h.ordered p q hlt hq)) hs
  · rfl
  · exact Machine.runItem_comm (h.noted p hp) (h.noted q hq) (.inr (h.ordered q p hgt hp)) hs

/-! ## Every job that runs has its outputs in order -/

theorem run_of_plan {checks windows : List (Bool × Raise)} {job job' : Job} (h : plan checks windows job = .run job') :
    firstRaise checks = none ∧ firstRaise windows = none ∧ job = job' := by
  rcases plan_cases checks windows job with ⟨r, -, hp⟩ | ⟨r, -, -, hp⟩ | ⟨hc, hw, hp⟩ <;> rw [hp] at h <;> cases h
  exact ⟨hc, hw, rfl⟩

theorem firstRaise_append_eq_none {cs ds : List (Bool × Raise)} :
    firstRaise (cs ++ ds) = none ↔ firstRaise cs = none ∧ firstRaise ds = none := by
  simp only [firstRaise_eq_none, List.forall_mem_append]

theorem firstRaise_checkTag_eq_none {s : State} {tag : Byte} : firstRaise [checkTag s tag] = none ↔ tagByte s = tag := by
  simp [checkTag, malformed]

section Jobs

variable {s : State} {job : Job}

theorem encPlan_inOrder {c : Codec} (h : encPlan c s = .run job) : job.InOrder (dstAddr s) := by
  obtain ⟨hchecks, hwindows, rfl⟩ := run_of_plan (checks := encChecks c s) (job := encJob c s) h
  exact (firstRaise_encode_eq_none.1 ⟨hchecks, hwindows⟩).inOrder

theorem rsEncPlan_inOrder (h : rsEncPlan s = .run job) : job.InOrder (dstAddr s) := by
  obtain ⟨hchecks, hwindows, rfl⟩ := run_of_plan (checks := rsEncChecks s) (job := rsEncJob s) h
  exact (firstRaise_encRs_eq_none.1 ⟨hchecks, hwindows⟩).inOrder

/-- A linear decode that gets from its header on to its job, the checks before the header passed. -/
theorem decode_inOrder {c : Codec} (hd : firstRaise (decodeChecks s) = none) (htag : tagByte s = c.tag)
    (h : plan (linHeaderChecks c s (decLayout s)) (windowChecks s (decJob c s).need) (decJob c s) = .run job) :
    job.InOrder (dstAddr s) := by
  obtain ⟨hheader, hwindows, rfl⟩ := run_of_plan h
  rw [firstRaise_decodeChecks] at hd
  rw [firstRaise_linHeaderChecks] at hheader
  split_ifs at hd with hinit hsource hlen
  split_ifs at hheader with hshort hlegal hT hfits hsize
  exact Decodes.inOrder {
    init := by simpa using hinit, tag := htag, len := Nat.not_lt.1 hshort, legal := hlegal, threads := hT
    short := by omega, blocks := by omega, size := not_not.1 hsize
    windows := ⟨hsource, firstRaise_windowChecks_eq_none.1 hwindows⟩ }

/-- A Reed-Solomon decode that gets from its header on to its job, the checks before the header passed. -/
theorem decodeRs_inOrder (hd : firstRaise (decodeChecks s) = none) (htag : tagByte s = 4)
    (h : plan (rsHeaderChecks s (rsDecLayout s)) (windowChecks s (rsDecJob s).need) (rsDecJob s) = .run job) :
    job.InOrder (dstAddr s) := by
  obtain ⟨hheader, hwindows, rfl⟩ := run_of_plan h
  rw [firstRaise_decodeChecks] at hd
  rw [firstRaise_rsHeaderChecks] at hheader
  split_ifs at hd with hinit hsource hlen
  split_ifs at hheader with hshort hdevices hT hfits hsize
  exact RsDecodes.inOrder {
    init := by simpa using hinit, tag := htag, len := Nat.not_lt.1 hshort, devices := hdevices, threads := hT
    fits := hfits, size := not_not.1 hsize
    windows := ⟨hsource, firstRaise_windowChecks_eq_none.1 hwindows⟩ }

/-- An explicit decode passes the checks before its header, and goes on from there. -/
theorem header_of_tagChecks {tag : Byte} {header windows : List (Bool × Raise)} {job' : Job}
    (h : plan (decodeChecks s ++ [checkTag s tag] ++ header) windows job' = .run job) :
    firstRaise (decodeChecks s) = none ∧ tagByte s = tag ∧ plan header windows job' = .run job := by
  obtain ⟨hchecks, -, -⟩ := run_of_plan h
  obtain ⟨hbefore, -⟩ := firstRaise_append_eq_none.1 hchecks
  obtain ⟨hd, htag⟩ := firstRaise_append_eq_none.1 hbefore
  rw [plan_append_of_pass hbefore] at h
  exact ⟨hd, firstRaise_checkTag_eq_none.1 htag, h⟩

theorem decPlan_inOrder {c : Codec} (h : decPlan c s = .run job) : job.InOrder (dstAddr s) := by
  obtain ⟨hd, htag, hp⟩ := header_of_tagChecks h
  exact decode_inOrder hd htag hp

theorem rsDecPlan_inOrder (h : rsDecPlan s = .run job) : job.InOrder (dstAddr s) := by
  obtain ⟨hd, htag, hp⟩ := header_of_tagChecks h
  exact decodeRs_inOrder hd htag hp

theorem autoPlan_inOrder (h : autoPlan s = .run job) : job.InOrder (dstAddr s) := by
  unfold autoPlan at h
  split at h
  · cases h
  · have hd : firstRaise (decodeChecks s) = none := ‹_›
    split at h
    case _ htag => exact decode_inOrder (c := .par) hd (BitVec.eq_of_toNat_eq htag) h
    case _ htag => exact decode_inOrder (c := .ham) hd (BitVec.eq_of_toNat_eq htag) h
    case _ htag => exact decode_inOrder (c := .sec) hd (BitVec.eq_of_toNat_eq htag) h
    case _ htag => exact decodeRs_inOrder hd (BitVec.eq_of_toNat_eq htag) h
    case _ => cases h

/-- Every stream command whose checks pass runs a job whose outputs follow one another. -/
theorem streamPlan_inOrder {i : Instr} (h : streamPlan i s = some (.run job)) : job.InOrder (dstAddr s) := by
  cases i <;> simp only [streamPlan, Option.some.injEq, reduceCtorEq] at h
  case encPar | encHam | encSec => exact encPlan_inOrder h
  case encRs => exact rsEncPlan_inOrder h
  case decAuto => exact autoPlan_inOrder h
  case decPar | decHam | decSec => exact decPlan_inOrder h
  case decRs => exact rsDecPlan_inOrder h

end Jobs

/-- Settles O31: the outputs of two work items share no byte and their notes commute, so that any two neighbours may change
places. -/
theorem workItemOrderDoesNotMatter : Obligations.WorkItemOrderDoesNotMatter := by
  intro i s job order hwf hplan horder
  have hjob := streamPlan_inOrder hplan
  have hlt {q : Nat} (hq : q ∈ order) : q < job.count := List.mem_range.1 (horder.mem_iff.1 hq)
  exact runItems_perm horder (fun p hp q hq _ hs => hjob.runItem_comm (hlt hp) (hlt hq) hs) (writeBytes_wf hwf _ _)

end Sys2Proof.Machine
end

section
/-! PROOFS. The logical work ranges of a stream command (O32; 60_exceptions R300). -/

namespace Sys2Proof.Machine

/-- Every range but the last has `floor(W/T)` items, after those of the ranges before it. -/
theorem workRange_of_lt {W T t : Nat} (h : t + 1 < T) : workRange W T t = (List.range (W / T)).map (t * (W / T) + ·) :=
  if_neg (Nat.ne_of_lt h)

/-- The last range takes the items that the ranges before it leave. -/
theorem workRange_last (W t : Nat) :
    workRange W (t + 1) t = (List.range (W - t * (W / (t + 1)))).map (t * (W / (t + 1)) + ·) := if_pos rfl

/-- Ranges of `k` items each, one after the other. -/
theorem flatten_ranges (k t : Nat) :
    ((List.range t).map fun u => (List.range k).map (u * k + ·)).flatten = List.range (t * k) := by
  induction t with
  | zero => simp
  | succ t ih => rw [List.range_succ, List.map_append, List.flatten_append, ih, Nat.succ_mul, List.range_add]; simp

theorem workRanges_flatten (W t : Nat) : (workRanges W (t + 1)).flatten = List.range W := by
  have hbefore : (List.range t).map (workRange W (t + 1))
      = (List.range t).map fun u => (List.range (W / (t + 1))).map (u * (W / (t + 1)) + ·) :=
    List.map_congr_left fun u hu => workRange_of_lt (Nat.succ_lt_succ (List.mem_range.1 hu))
  have hle : t * (W / (t + 1)) ≤ W := (Nat.mul_le_mul_right _ t.le_succ).trans (Nat.mul_div_le W (t + 1))
  calc (workRanges W (t + 1)).flatten
      = List.range (t * (W / (t + 1))) ++ workRange W (t + 1) t := by
        rw [workRanges, List.range_succ, List.map_append, List.flatten_append, hbefore, flatten_ranges, List.map_singleton,
          List.flatten_singleton]
    _ = List.range W := by rw [workRange_last, ← List.range_add, Nat.add_sub_cancel' hle]

/-- Settles O32. -/
theorem workRangesPartitionTheItems : Obligations.WorkRangesPartitionTheItems := by
  intro W T hT
  obtain ⟨t, rfl⟩ := Nat.exists_eq_add_of_le' hT
  refine ⟨by simp [workRanges], workRanges_flatten W t, fun u hu => ?_⟩
  rw [workRange_of_lt hu, List.length_map, List.length_range]

end Sys2Proof.Machine
end

section
/-! PROOFS. What a step does to the result registers: the interrupt line that follows them (O58), the idle engine that holds them
(O54), and the reserved causes, which stay clear (O50) (60_exceptions R271, R285, R294, R306). -/

namespace Sys2Proof.Machine

/-! ## The interrupt line (60 R285) -/

theorem irq_iff (s : State) :
    s.irq = true ↔ s.done = true ∧ (s.ie.getLsbD 0 = true ∨ (s.ie.getLsbD 1 = true ∧ s.ecause &&& 0x7FF7 ≠ 0)) := by
  simp only [State.irq, State.err, Bool.and_eq_true, Bool.or_eq_true, hasError, bne_iff_ne, ne_eq, errMask]

theorem irq_of_not_done {s : State} (h : s.done = false) : s.irq = false := by rw [State.irq, h, Bool.false_and]

/-- Settles O58: the acknowledge and the acceptance of a command clear `DONE`. -/
theorem interruptLineFollowsStatus : Obligations.InterruptLineFollowsStatus := by
  intro s v
  refine ⟨irq_iff s, fun hie => ?_, fun hb => irq_of_not_done ?_, fun hb => irq_of_not_done ?_⟩
  · simp [State.irq, hie]
  · simp [hostWrite, writeStatus, hb]
  · simp [hostWrite, writeCmd, hb]

/-! ## What an event does to the result registers -/

/-- `BUSY`, `OK` and the result registers (60 R294). -/
def State.results (s : State) : Bool × Bool × BitVec 15 × Word64 × Word64 × Word64 × Word64 :=
  (s.busy, s.ok, s.ecause, s.olen, s.corrcnt, s.einfo, s.cpos)

theorem busy_of_results {s t : State} (h : t.results = s.results) : t.busy = s.busy := congrArg (fun r => r.1) h

theorem ecause_of_results {s t : State} (h : t.results = s.results) : t.ecause = s.ecause := congrArg (fun r => r.2.2.1) h

theorem writeOperand_results (n : Nat) (v : Word64) (s : State) : (writeOperand n v s).results = s.results := by
  unfold writeOperand
  split <;> rfl

theorem writeStatus_results (v : Word64) (s : State) : (writeStatus v s).results = s.results := by
  unfold writeStatus
  split <;> rfl

/-- A write to `c[CMD]` is dropped, or clears the causes (43 R250). -/
theorem writeCmd_results (v : Word64) (s : State) : (writeCmd v s).results = s.results ∨ (writeCmd v s).ecause = 0 := by
  unfold writeCmd
  split
  · exact .inl rfl
  · exact .inr rfl

theorem hostWrite_results (slot : Nat) (v : Word64) (s : State) :
    (hostWrite slot v s).results = s.results ∨ slot = 16 ∧ (hostWrite slot v s).ecause = 0 := by
  unfold hostWrite
  split_ifs with hoperand hcmd
  · exact .inl (writeOperand_results slot v s)
  · exact (writeCmd_results v s).imp_right (.intro hcmd)
  · exact .inl (writeStatus_results v s)
  all_goals exact .inl rfl

theorem hostRead_results (slot : Nat) (s : State) : (hostRead slot s).results = s.results := by
  rw [hostRead, spendDraw_eq]
  rfl

theorem markRaced_results (as : List Nat) (s : State) : (markRaced as s).results = s.results := by
  rw [markRaced_eq]
  rfl

theorem pokeBytes_results (s : State) (a : Nat) (bs : List Byte) : (pokeBytes s a bs).results = s.results := by
  induction bs generalizing s a with
  | nil => rfl
  | cons b bs ih =>
    refine (ih (pokeByte s a b) (a + 1)).trans ?_
    unfold pokeByte
    split
    · exact markRaced_results [a] s
    · rfl

theorem hostPoke_results {a : Nat} {bs : List Byte} {s t : State} (h : hostPoke a bs s = .next t) : t.results = s.results := by
  unfold hostPoke at h
  split_ifs at h
  cases h
  exact pokeBytes_results s a bs

theorem hostPeek_results {a n : Nat} {s t : State} (h : hostPeek a n s = .next t) : t.results = s.results := by
  unfold hostPeek at h
  split_ifs at h
  cases h
  exact markRaced_results _ s

theorem onSlot_eq_next {addr width : Nat} {k : Nat → State → State} {s t : State} (h : onSlot addr width k s = .next t) :
    ∃ slot, busSlot s.platform addr width = .ok slot ∧ t = k slot s := by
  unfold onSlot at h
  split at h <;> cases h
  exact ⟨_, ‹_›, rfl⟩

/-- An event leaves the results, starts a command or resets, or lets the engine move. -/
theorem hostStep_results {e : HostEvent} {rest : List HostEvent} {s t : State} (h : hostStep e rest s = .next t) :
    t.results = s.results ∨ (startsOrResets s.platform e = true ∧ t.ecause = 0)
      ∨ ∃ u, u.results = s.results ∧ advance u = .next t := by
  cases e with
  | wr slot v =>
    cases h
    exact (hostWrite_results slot v _).imp_right fun ⟨hslot, hecause⟩ => .inl ⟨by simp [startsOrResets, hslot], hecause⟩
  | rd slot => cases h; exact .inl (hostRead_results slot _)
  | busWr addr width v =>
    obtain ⟨slot, hbus, rfl⟩ := onSlot_eq_next h
    exact (hostWrite_results slot v _).imp_right fun ⟨hslot, hecause⟩ =>
      .inl ⟨by simp only [startsOrResets, hbus, hslot, beq_self_eq_true], hecause⟩
  | busRd addr width =>
    obtain ⟨slot, -, rfl⟩ := onSlot_eq_next h
    exact .inl (hostRead_results slot _)
  | poke addr bytes => exact .inl (hostPoke_results (s := { s with inputs := rest }) h)
  | peek addr n => exact .inl (hostPeek_results (s := { s with inputs := rest }) h)
  | wait =>
    simp only [hostStep] at h
    split_ifs at h
    · cases h
      exact .inl rfl
    · exact .inr (.inr ⟨s, rfl, h⟩)
  | reset => cases h; exact .inr (.inl ⟨rfl, rfl⟩)
  | tick => exact .inr (.inr ⟨{ s with inputs := rest }, rfl, h⟩)

/-! ## The idle engine (60 R306) -/

theorem advance_idle {s : State} (h : s.busy = false) : advance s = .next s := if_neg (Bool.eq_false_iff.1 h)

/-- The results of an idle engine hold (60 R294). -/
theorem results_hold {s t : State} {e : HostEvent} {rest : List HostEvent} (hb : s.busy = false)
    (he : startsOrResets s.platform e = false) (h : hostStep e rest s = .next t) : t.results = s.results := by
  rcases hostStep_results h with hsame | ⟨hstart, -⟩ | ⟨u, hu, hmove⟩
  · exact hsame
  · rw [he] at hstart
    cases hstart
  · rw [advance_idle ((busy_of_results hu).trans hb)] at hmove
    cases hmove
    exact hu

/-- Settles O54, from the engine's idle move and what each event does to the results. -/
theorem idleEngineKeepsStateAndResultsHold : Obligations.IdleEngineKeepsStateAndResultsHold := by
  refine ⟨fun s hb => ⟨fun h => ?_, fun rest h => ?_, fun rest h hdone => ?_⟩, fun s rest h hdone => ?_,
    fun s t e rest hb h he ht => ?_⟩
  · rw [step_of_no_inputs h, advance_idle hb]
  · rw [step_of_tick h, advance_idle (s := { s with inputs := rest }) hb]
  · rw [step_of_polling_wait h hdone, advance_idle hb]
  · exact (step_of_inputs h).trans (if_pos hdone)
  · have hresults := results_hold hb he ((step_of_inputs h).symm.trans ht)
    simpa only [State.results, Prod.mk.injEq, hb] using hresults

/-! ## The reserved causes (60 R271)

Unlike `Running`, these lemmas ask nothing of memory and `OLEN`: O50 speaks of every state. -/

section Reserved

variable {s : State} (h : ReservedClear s.ecause)
include h

theorem ReservedClear.raise {r : Raise} (hr : r.cause.Unreserved) : ReservedClear (raise r s).ecause :=
  h.or hr.bit_reservedClear

theorem ReservedClear.noteItem {c : Option Cause} (hc : ∀ d ∈ c, d.Unreserved) (i : Nat) :
    ReservedClear (noteItem c i s).ecause := by
  rw [noteItem_eq]
  refine h.or ?_
  cases c with
  | none => exact reservedClear_zero
  | some c => exact (hc c rfl).bit_reservedClear

theorem ReservedClear.runItems {item : Nat → WorkItem} (hnoted : ∀ q, ∀ c ∈ (item q).noted, c.Unreserved) (order : List Nat) :
    ReservedClear (runItems item order s).ecause := by
  induction order generalizing s with
  | nil => exact h
  | cons q qs ih =>
    exact ih (ReservedClear.noteItem (s := memWrite (item q).addr (item q).out s) h (hnoted q) q)

theorem ReservedClear.runJob {job : Job} (hnoted : ∀ q, ∀ c ∈ (job.item q).noted, c.Unreserved) :
    ReservedClear (runJob job s).ecause := by
  have hitems := ReservedClear.runItems (s := memWrite (dstAddr s) job.header s) h hnoted (List.range job.count)
  obtain ⟨m, o, hend⟩ := finishStream_frame job.need
    (Machine.runItems job.item (List.range job.count) (memWrite (dstAddr s) job.header s))
  rw [Machine.runJob, ← dstAddr, hend]
  exact hitems

theorem ReservedClear.runPlan {p : Plan} (hp : p.Sound s) : ReservedClear (runPlan p s).ecause := by
  rcases runPlan_cases p s with ⟨-, he⟩ | ⟨-, ⟨r, rfl, he⟩ | ⟨r, n, rfl, he⟩ | ⟨job, rfl, he⟩⟩ <;> rw [he]
  · exact racedCauses_reserved s
  · exact h.raise hp
  · exact h.raise hp
  · obtain ⟨-, -, hnoted⟩ := hp
    exact h.runJob hnoted

theorem ReservedClear.checked {checks : List (Bool × Raise)} {k : State → State}
    (hchecks : ∀ c ∈ checks, c.2.cause.Unreserved) (hk : ReservedClear (k s).ecause) : ReservedClear (checked checks k s).ecause := by
  rcases checked_cases checks k s with ⟨r, hr, he⟩ | ⟨-, he⟩ <;> rw [he]
  · exact h.raise (hchecks _ (firstRaise_mem hr))
  · exact hk

theorem ReservedClear.withWidth {k : Width → State → State} (hk : ∀ w, ReservedClear (k w s).ecause) :
    ReservedClear (withWidth k s).ecause := by
  rcases withWidth_cases k s with ⟨r, he, rfl | rfl⟩ | ⟨w, -, -, he⟩ <;> rw [he]
  · exact h.raise (by decide)
  · exact h.raise ⟨nofun, nofun⟩
  · exact hk w

theorem ReservedClear.applyBlockResult (r : BlockResult) : ReservedClear (applyBlockResult r s).ecause := by
  unfold Machine.applyBlockResult
  split
  · exact h
  iterate 3 exact h.or (Cause.Unreserved.bit_reservedClear (by decide))

theorem ReservedClear.storeEntry : ReservedClear (storeEntry s).ecause := by
  unfold Machine.storeEntry
  split <;> exact h

theorem ReservedClear.loadEntry : ReservedClear (loadEntry s).ecause := by
  unfold Machine.loadEntry
  split <;> exact h

theorem ReservedClear.exec {i : Instr} {t : State} (ht : exec i s = .next t) : ReservedClear t.ecause := by
  cases hp : streamPlan i s with
  | some p =>
    rw [exec_of_streamPlan hp] at ht
    cases ht
    exact h.runPlan (streamPlan_sound hp)
  | none =>
    cases i
    case encPar | encHam | encSec | encRs | decAuto | decPar | decHam | decSec | decRs => cases hp
    all_goals cases ht
    case nop.refl | init.refl | close.refl => exact h
    case pcm.refl | bencHam.refl | bencSec.refl => exact h.withWidth fun _ => h
    case bdecHam.refl | bdecSec.refl => exact h.withWidth fun _ => h.applyBlockResult _
    case bencPar.refl => exact h.checked (blockChecks_unreserved s _) h
    case bdecPar.refl =>
      refine h.checked (blockChecks_unreserved s _) ?_
      split
      · exact h
      · exact h.or (Cause.Unreserved.bit_reservedClear (by decide))
    case twr.refl => exact h.checked (by simp [checkIndex, Cause.Unreserved]) h.storeEntry
    case trd.refl => exact h.checked (by simp [checkIndex, Cause.Unreserved]) h.loadEntry

theorem ReservedClear.advance {t : State} (ht : advance s = .next t) : ReservedClear t.ecause := by
  cases hb : s.busy with
  | false =>
    rw [advance_idle hb] at ht
    cases ht
    exact h
  | true =>
    rcases advance_busy hb with ⟨i, he⟩ | he <;> rw [he] at ht
    · exact h.exec ht
    · cases ht
      exact h.raise ⟨nofun, nofun⟩

end Reserved

theorem step_reservedClear {s t : State} (h : ReservedClear s.ecause) (ht : step s = .next t) : ReservedClear t.ecause := by
  unfold step at ht
  split at ht
  · exact h.advance ht
  · rcases hostStep_results ht with hsame | ⟨-, hzero⟩ | ⟨u, hu, hmove⟩
    · rwa [ecause_of_results hsame]
    · rw [hzero]
      exact reservedClear_zero
    · rw [← ecause_of_results hu] at h
      exact h.advance hmove

/-- Settles O50: acceptance and reset clear the causes, no other event of the host touches them, and no command raises or notes a
reserved one. -/
theorem reservedCausesStayClear : Obligations.ReservedCausesStayClear := fun _ _ h1 h8 => step_reservedClear ⟨h1, h8⟩

end Sys2Proof.Machine
end

section
/-! PROOFS. Host writes while a command is in flight and while idle (O51), the host that never meets a hazard (O57), and reset
(O55) (10_state R21 to R47; 70_reset_and_hazards R310 to R321). -/

namespace Sys2Proof.Machine

/-! ## Host writes (70 R321) -/

theorem step_wr {s t : State} {slot : Fin 32} {v : Word64} {rest : List HostEvent} (h : s.inputs = .wr slot v :: rest)
    (ht : hostWrite slot v { s with inputs := rest } = t) : step s = .next t :=
  (step_of_inputs h).trans (congrArg _ ht)

theorem hostWrite_operand_busy {s : State} (hb : s.busy = true) {slot : Nat} (h : slot ≤ 8) (v : Word64) :
    hostWrite slot v s = { s with hstat := s.hstat ||| 2 } := (if_pos h).trans (if_pos hb)

theorem hostWrite_status (v : Word64) (s : State) : hostWrite 17 v s = writeStatus v s := rfl

theorem hostWrite_status_busy {s : State} (hb : s.busy = true) (v : Word64) : hostWrite 17 v s = s := by
  rw [hostWrite_status, writeStatus, hb]
  rfl

theorem hostWrite_status_idle {s : State} (hb : s.busy = false) (v : Word64) :
    hostWrite 17 v s = { s with done := s.done && !v.getLsbD 2 } := by
  have hclears : (!s.busy && v.getLsbD 2) = v.getLsbD 2 := by rw [hb, Bool.not_false, Bool.true_and]
  rw [hostWrite_status, writeStatus, hclears]
  cases v.getLsbD 2 with
  | false => rw [Bool.not_false, Bool.and_true]; rfl
  | true => rw [Bool.not_true, Bool.and_false]; rfl

/-- Beside the operands, only `CMD`, `STATUS`, `IE` and `HSTAT` take a write (10_state R24). -/
theorem hostWrite_ignored {slot : Nat} (h : 8 < slot) (hslot : slot ∉ [16, 17, 23, 24]) (v : Word64) (s : State) :
    hostWrite slot v s = s := by
  simp only [List.mem_cons, List.not_mem_nil, or_false, not_or] at hslot
  obtain ⟨hcmd, hstatus, hie, hhstat⟩ := hslot
  rw [hostWrite, if_neg (Nat.not_le.2 h), if_neg hcmd, if_neg hstatus, if_neg hie, if_neg hhstat]

/-- Settles O51, from the write to each group of slots. -/
theorem hostWritesByBusyAndSlot : Obligations.HostWritesByBusyAndSlot := by
  intro s slot v rest h t
  refine ⟨fun hb => ⟨fun hle => step_wr h (hostWrite_operand_busy (s := t) hb hle v), ?_, ?_⟩, fun hb => ?_, ?_, ?_,
    fun hgt hslot => step_wr h (hostWrite_ignored hgt (by simpa [Fin.ext_iff] using hslot) v _)⟩
  · rintro rfl
    exact step_wr h (if_pos hb)
  · rintro rfl
    exact step_wr h (hostWrite_status_busy (s := t) hb v)
  · have hoperand (n : Fin 32) (hn : n.val ≤ 8) (hslot : slot = n) :=
      step_wr (hslot ▸ h) (hostWrite_operand (s := t) hb hn v)
    refine ⟨hoperand 0 (by decide), hoperand 1 (by decide), hoperand 2 (by decide), hoperand 3 (by decide),
      hoperand 4 (by decide), hoperand 5 (by decide), hoperand 6 (by decide), hoperand 7 (by decide),
      hoperand 8 (by decide), ?_⟩
    rintro rfl
    exact step_wr h (hostWrite_status_idle (s := t) hb v)
  · rintro rfl
    exact step_wr h rfl
  · rintro rfl
    exact step_wr h rfl

/-! ## The host that keeps to the protocol (70 R320) -/

/-- Only the host's writes reach `HSTAT`: no engine's move does. -/
theorem advance_hstat {s t : State} (h : advance s = .next t) : t.hstat = s.hstat := by
  cases hb : s.busy with
  | false =>
    rw [advance_idle hb] at h
    cases h
    rfl
  | true =>
    rcases advance_busy hb with ⟨i, he⟩ | he <;> rw [he] at h
    · obtain ⟨-, -, -, -, -, -, -, hhstat, -⟩ := commandsLeaveTheRestAlone i s t h
      exact hhstat
    · cases h
      rfl

theorem pokeBytes_hstat (s : State) (a : Nat) (bs : List Byte) : (pokeBytes s a bs).hstat = s.hstat := by
  induction bs generalizing s a with
  | nil => rfl
  | cons b bs ih =>
    refine (ih (pokeByte s a b) (a + 1)).trans ?_
    unfold pokeByte
    split
    · exact markRaced_hstat [a] s
    · rfl

theorem hostPoke_hstat {a : Nat} {bs : List Byte} {s t : State} (h : hostPoke a bs s = .next t) : t.hstat = s.hstat := by
  unfold hostPoke at h
  split_ifs at h
  cases h
  exact pokeBytes_hstat s a bs

theorem hostPeek_hstat {a n : Nat} {s t : State} (h : hostPeek a n s = .next t) : t.hstat = s.hstat := by
  unfold hostPeek at h
  split_ifs at h
  cases h
  exact markRaced_hstat _ s

theorem hostRead_hstat (slot : Nat) (s : State) : (hostRead slot s).hstat = s.hstat := by
  rw [hostRead, spendDraw_eq]

/-- A write to an idle engine, or to a slot that is not protected, sets no flag. -/
theorem hostWrite_hstat_zero {s : State} (h : s.hstat = 0) {slot : Nat} (hp : (!s.busy || !protectedSlot slot) = true)
    (v : Word64) : (hostWrite slot v s).hstat = 0 := by
  simp only [protectedSlot, Bool.or_eq_true, Bool.not_eq_true', Bool.or_eq_false_iff, decide_eq_false_iff_not,
    beq_eq_false_iff_ne] at hp
  unfold hostWrite
  split_ifs with hoperand hcmd
  · have hb : s.busy = false := hp.resolve_right fun hn => hn.1 hoperand
    rwa [writeOperand, hb, if_neg Bool.false_ne_true]
  · have hb : s.busy = false := hp.resolve_right fun hn => hn.2 hcmd
    rwa [writeCmd, hb, if_neg Bool.false_ne_true, accept_hstat]
  · unfold writeStatus
    split <;> exact h
  · exact h
  · simp [h]
  · exact h

theorem hostStep_hstat_zero {s t : State} (h : s.hstat = 0) {e : HostEvent} {rest : List HostEvent}
    (he : politeEvent s e = true) (ht : hostStep e rest s = .next t) : t.hstat = 0 := by
  cases e with
  | wr slot v => cases ht; exact hostWrite_hstat_zero (s := { s with inputs := rest }) h he v
  | busWr addr width v =>
    obtain ⟨slot, hslot, rfl⟩ := onSlot_eq_next ht
    simp only [politeEvent, hslot] at he
    exact hostWrite_hstat_zero (s := { s with inputs := rest }) h he v
  | rd slot => cases ht; exact (hostRead_hstat slot _).trans h
  | busRd addr width =>
    obtain ⟨slot, -, rfl⟩ := onSlot_eq_next ht
    exact (hostRead_hstat slot _).trans h
  | poke addr bytes => exact (hostPoke_hstat ht).trans h
  | peek addr n => exact (hostPeek_hstat ht).trans h
  | wait =>
    simp only [hostStep] at ht
    split_ifs at ht
    · cases ht
      exact h
    · exact (advance_hstat ht).trans h
  | reset => cases ht; rfl
  | tick => exact (advance_hstat ht).trans h

/-- Settles O57, by the event that the step takes. -/
theorem politeHostNeverSetsHstat : Obligations.PoliteHostNeverSetsHstat := by
  intro s t h hpolite ht
  cases hin : s.inputs with
  | nil => exact (advance_hstat ((step_of_no_inputs hin).symm.trans ht)).trans h
  | cons e rest => exact hostStep_hstat_zero h (hpolite e rest hin) ((step_of_inputs hin).symm.trans ht)

/-! ## Reset (70 R310, R311, R313) -/

theorem flightNeed_idle {s : State} (hb : s.busy = false) : flightNeed s = 0 := by
  rw [flightNeed, flightPlan_eq_none fun h => absurd h (Bool.eq_false_iff.1 hb)]

theorem tableRead_unloaded (r : TRef) (free : Word64) :
    tableRead Tables.unloaded r free = match r with
      | .h8 _ => free
      | .h1 _ | .s1 _ | .s8 _ => free &&& 0xFF := by
  have hread {n k : Nat} (i : Fin k) :
      entryValue (Vector.replicate k (.unloaded : Entry n))[i] free = (free.setWidth n).setWidth 64 := by
    simp [entryValue]
  cases r with
  | h8 i => exact (hread i).trans (by simp)
  | h1 i => exact (hread i).trans (setWidth_byte free)
  | s1 i => exact (hread i).trans (setWidth_byte free)
  | s8 i => exact (hread i).trans (setWidth_byte free)

theorem hostReset_status (s : State) : (hostReset s).status = 0 :=
  (rfl : (hostReset s).status = State.reset.status).trans (show State.reset.status = 0 by decide)

/-- Settles O55: the registers by evaluation, memory by the laws of a range that becomes unspecified. -/
theorem resetRestoresEveryRegister : Obligations.ResetRestoresEveryRegister := by
  intro s rest h
  refine ⟨hostReset { s with inputs := rest }, step_of_inputs h, rfl, rfl, hostReset_status _, rfl, rfl, rfl,
    rfl, rfl, rfl, rfl, rfl, rfl, rfl, rfl, rfl, tableRead_unloaded, rfl, rfl, rfl, rfl, fun hb => ?_,
    blurRange_outside _ _ _, blurRange_unspecified _ _ _⟩
  rw [hostReset_mem, flightNeed_inputs, flightNeed_idle hb]
  rfl

end Sys2Proof.Machine
end
